-- ==== Sys2Proof/Word.lean ====
section
/-! DEFINITION. The unsigned word types of R12 (spec/00_scope.md). No value of the block is signed. -/

namespace Sys2Proof

/-- An unsigned 8-bit value (R12), the atomic access unit (R67). -/
abbrev Byte := BitVec 8

/-- An unsigned 16-bit value (R12): a device-id, a sequence number, a checksum. -/
abbrev U16 := BitVec 16

/-- An unsigned 32-bit value (R12): a counter of `COUNTER_BITS` = 32 bits, a tick count. -/
abbrev U32 := BitVec 32

end Sys2Proof
end

