-- ==== Sys2Proof/Syntax.lean ====
section
/-! DEFINITION. The units the block acts on, one constructor of `Instr` per row of spec/opcode_table.json.
The block fetches no instructions (R20, R73): an instruction here is a Message matched by its opcode, a
transaction of R105, a service of ML or an internal operation (30_encoding.md; log 1). -/

namespace Sys2Proof

/-- A serial port (R1, R130). -/
inductive Port where
  | p0 | p1
deriving DecidableEq, Repr

/-- Where a Message arrived (R16 "Transport"). -/
inductive Transport where
  | s0 | s1 | r
deriving DecidableEq, Repr

/-- The states of a serial frame decoder (R21). -/
inductive FdState where
  | waitStart0 | waitStart1 | waitLength | receiveData
deriving DecidableEq, Repr

/-- Why the block is reset (R340): every cause has the same effect on the block. -/
inductive ResetCause where
  | powerOn | watchdog | rebootReq | rstInput
deriving DecidableEq, Repr

/-- The Message header without its opcode (R93). -/
structure Header where
  deviceId  : U16
  seqnum    : U16
  subsystem : Byte
deriving DecidableEq, Repr

/-- The interface that presents a unit to the block, with what selects the row there: a Message's length
comes from its carrier (R104), a serial byte's row from the decoder's state and, in `WaitLength`, from whether
a slot of the port is Free (R130, R134, R135). -/
inductive Carrier where
  /-- a Message handed to the match table (R204) -/
  | message
  /-- one byte received on a serial port (R105 `ser_rx`) -/
  | serialIn (p : Port) (st : FdState) (free : Bool)
  /-- ML services a serial port (R107 `ml poll`) -/
  | mlPoll (p : Port)
  /-- a Message handed to the serial send (R140) -/
  | serialOut (p : Port)
  /-- a packet delivered by the PHY (R105 `rf_rx`) -/
  | radioIn
  /-- ML services the radio slot (R107 `ml radio`) -/
  | mlRadio
  /-- a Message handed to the radio send (R171) -/
  | radioOut (fbit : Bool)
  /-- the end of the in-flight transmission (R105 `rf_tx_done`) -/
  | txDone
  /-- ML dispatches the Message in `msg` (R200) -/
  | mlDispatch
  /-- one scheduler tick (R105 `tick`) -/
  | tick
  /-- a reset (R105 `rst`) -/
  | rst (cause : ResetCause)
deriving DecidableEq, Repr

/-- What one step is presented with: the carrier and the bytes it carries. -/
structure WireUnit where
  carrier : Carrier
  bytes   : List Byte
deriving DecidableEq, Repr

/-- The rows of spec/opcode_table.json, in the table's order. A Message row carries the header and the
payload; `reboot` is opcode 0x12 with an empty payload (R248), `rebootPostpone` opcode 0x12 with one (R249). -/
inductive Instr where
  | ping (h : Header) (pl : List Byte)
  | bootloaderAck (h : Header) (pl : List Byte)
  | writePage (h : Header) (pl : List Byte)
  | erase (h : Header) (pl : List Byte)
  | bootloaderNack (h : Header) (pl : List Byte)
  | ack (h : Header) (pl : List Byte)
  | ascii (h : Header) (pl : List Byte)
  | reboot (h : Header)
  | rebootPostpone (h : Header) (pl : List Byte)
  | getTime (h : Header) (pl : List Byte)
  | setTime (h : Header) (pl : List Byte)
  | ranging (h : Header) (pl : List Byte)
  | rangingAck (h : Header) (pl : List Byte)
  | getTelem (h : Header) (pl : List Byte)
  | telem (h : Header) (pl : List Byte)
  | getCallsign (h : Header) (pl : List Byte)
  | setCallsign (h : Header) (pl : List Byte)
  | callsign (h : Header) (pl : List Byte)
  | nack (h : Header) (pl : List Byte)
  | unassigned (op : Byte) (h : Header) (pl : List Byte)
  | serRxWaitStart0 (p : Port) (b : Byte)
  | serRxWaitStart1 (p : Port) (b : Byte)
  | serRxWaitLengthBad (p : Port) (b : Byte)
  | serRxWaitLengthNofree (p : Port) (b : Byte)
  | serRxWaitLengthOk (p : Port) (b : Byte)
  | serRxReceiveData (p : Port) (b : Byte)
  | poll (p : Port)
  | serSend (p : Port) (m : List Byte)
  | rfRx (pkt : List Byte)
  | mlRadio
  | radioSend (m : List Byte) (fbit : Bool)
  | rfTxDone
  | dispatch
  | tick
  | rst (cause : ResetCause)
deriving DecidableEq, Repr

end Sys2Proof
end

