-- ==== Sys2Proof/Config.lean ====
section
/-! DEFINITION. The configuration inputs of R10 and R36, as plain data, and the constants the spec leaves open.
A configuration is fixed before reset is released and never written at run time (R36, R344); State holds it as a
static field, so that a claim about every state is a claim about every configuration (log 8). A parameter that is
a function is a named binding; a binding the spec does not give is an opaque constant, of which nothing can be
proved. -/

namespace Sys2Proof

/-- The two builds of the block (R2, R236, R318). -/
inductive Variant where
  | bootloader | application
deriving DecidableEq, Repr

/-- `COMMON_INBOUND_REPLY` (R10, R231). -/
inductive InboundReply where
  | none | nack
deriving DecidableEq, Repr

/-- The binding of `CRC_STEP` (R168): the default `CRC16_8005` (R169), or the primitive of the golden vectors,
which the spec does not give (log 9). -/
inductive CrcBinding where
  | crc16x8005
  | golden
deriving DecidableEq, Repr

/-- The block cipher `E` of the signature verifier (R274): the AES primitive, which is outside the block, or the
toy primitive of vector E8.6 (log 10). -/
inductive CipherBinding where
  | aes
  | toyAdd
deriving DecidableEq, Repr

/-- What `EXT` answers for a Message it handles (R256): no reply, or a reply opcode and payload. -/
inductive ExtReply where
  | silent
  | reply (rop : Byte) (rpl : List Byte)
deriving DecidableEq, Repr

/-- One row of an extension table: the opcode it takes and its answer. -/
structure ExtRow where
  op     : Byte
  answer : ExtReply
deriving DecidableEq, Repr

/-- The binding of `EXT` (R256): the default "never handled", a table by opcode, or the board's own function,
which the spec does not give (log 11). -/
inductive ExtBinding where
  | never
  | table (rows : List ExtRow)
  | board
deriving DecidableEq, Repr

/-- The layout of the telemetry snapshot (R288): the board's, which the spec leaves open, or fixed bytes, as
vector A15 binds it (log 12). -/
inductive TelemBinding where
  | board
  | fixed (bytes : List Byte)
deriving DecidableEq, Repr

/-- The width of `keepalive` and what an extension past it does, which R280 leaves open (log 16). -/
inductive KeepaliveForm where
  | exact
  | wraps (bits : Nat)
  | saturates (max : Nat)
deriving DecidableEq, Repr

/-- The configuration inputs (R10, R36) and the parameters of 93_implementation_defined.md. -/
structure Config where
  /-- `VARIANT` -/
  variant : Variant
  /-- `SELF_ID`, read-only at run time -/
  selfId : U16
  /-- `SUBSYS_RADIO` -/
  subsysRadio : Byte
  /-- `SUBSYS_REPLY` -/
  subsysReply : Byte
  /-- `N_SLOTS[0]` -/
  nSlots0 : Nat
  /-- `N_SLOTS[1]` -/
  nSlots1 : Nat
  /-- `FWD_EN[S0]` -/
  fwdS0 : Bool
  /-- `FWD_EN[S1]` -/
  fwdS1 : Bool
  /-- `FWD_EN[R]` -/
  fwdR : Bool
  /-- `FWD_PORT_MAP(0)` -/
  fwdPort0 : Port
  /-- `FWD_PORT_MAP(1)` -/
  fwdPort1 : Port
  /-- `RADIO_LEN_MAX` -/
  radioLenMax : Nat
  /-- `CRC_STEP` -/
  crc : CrcBinding
  /-- `COMMON_INBOUND_REPLY` -/
  inboundReply : InboundReply
  /-- `EXT` -/
  ext : ExtBinding
  /-- `TIME_BYTES` -/
  timeBytes : Nat
  /-- `CALLSIGN_MAX` -/
  callsignMax : Nat
  /-- `TELEM_BYTES` -/
  telemBytes : Nat
  /-- the layout of the telemetry snapshot -/
  telem : TelemBinding
  /-- `RANGING_PAYLOAD` -/
  rangingPayload : List Byte
  /-- `POSTPONE_MAX` -/
  postponeMax : Nat
  /-- `RX_IDLE_MAX` -/
  rxIdleMax : Nat
  /-- `REBOOT_DEADLINE_INIT` -/
  rebootDeadlineInit : U32
  /-- `KEEPALIVE_INIT` -/
  keepaliveInit : Nat
  /-- `KEEPALIVE_EXTEND` -/
  keepaliveExtend : Nat
  /-- width and saturation of `keepalive` -/
  keepaliveForm : KeepaliveForm
  /-- `APP_START` -/
  appStart : Nat
  /-- `APP_END`, inclusive (R271) -/
  appEnd : Nat
  /-- `FLASH_SIZE` -/
  flashSize : Nat
  /-- `SIG_OFFSET` -/
  sigOffset : Nat
  /-- what an erased flash byte reads as (R270, I7) -/
  erasedByte : Byte
  /-- `KEYS[0]` -/
  key0 : List Byte
  /-- `KEYS[1]` -/
  key1 : List Byte
  /-- `KEYS[2]` -/
  key2 : List Byte
  /-- the block cipher `E` -/
  cipher : CipherBinding
deriving DecidableEq, Repr

/-- What the block contributes to the telemetry snapshot (R288). -/
structure TelemView where
  uartRxFrames0 : U32
  uartRxFrames1 : U32
  radioGood     : U32
  radioRejCrc   : U32
  radioRejOther : U32
  radioSent     : U32
  uptime        : U32
deriving DecidableEq, Repr

/-- The checksum primitive of the golden vectors (R168), a free value: `CRC_STEP` of a checksum and a byte. -/
opaque Config.goldenCrcStep : U16 → Byte → U16

/-- Byte `k` of `E(K, B)` for the AES primitive (R274), a free value: key, block, `k`. -/
opaque Config.aesByte : List Byte → List Byte → Nat → Byte

/-- The board's extension table (R256), a free value: a total function of the Message alone; `none` is "not
handled". -/
opaque Config.extBoard : List Byte → Option ExtReply

/-- Byte `k` of the board's telemetry snapshot (R288), a free value: what the block contributes, which draw
this is (the snapshot also holds fields from outside the block, which change), and `k`. -/
opaque Config.telemByte : TelemView → Nat → Nat → Byte

/-- The binding `CFG-A` of 95_test_vectors.md section 0, with the values it does not list: variant Bootloader,
keys unprovisioned (R277), a 4-byte snapshot (vector A15), the signature near the application region's tail
(R75), an erased byte of 0xFF and an exact keep-alive (log 8). -/
def Config.cfgA : Config where
  variant := .bootloader
  selfId := 0x1234
  subsysRadio := 0x01
  subsysReply := 0x02
  nSlots0 := 2
  nSlots1 := 2
  fwdS0 := true
  fwdS1 := true
  fwdR := true
  fwdPort0 := .p0
  fwdPort1 := .p1
  radioLenMax := 255
  crc := .crc16x8005
  inboundReply := .none
  ext := .never
  timeBytes := 4
  callsignMax := 8
  telemBytes := 4
  telem := .board
  rangingPayload := [0x01, 0x02]
  postponeMax := 1000
  rxIdleMax := 5
  rebootDeadlineInit := 0xFFFFFFFF
  keepaliveInit := 100
  keepaliveExtend := 50
  keepaliveForm := .exact
  appStart := 0x0400
  appEnd := 0x6BFF
  flashSize := 0x8000
  sigOffset := 0x6BE0
  erasedByte := 0xFF
  key0 := List.replicate 16 0xFF
  key1 := List.replicate 16 0xFF
  key2 := List.replicate 16 0xFF
  cipher := .aes

end Sys2Proof
end

