-- ==== Sys2Proof/WellFormed.lean ====
section
/-! DEFINITION. When an instruction is one that the encodings of 30_encoding.md admit. -/

namespace Sys2Proof

/-- The opcodes that R101 assigns. -/
def assignedOpcodes : List Byte :=
  [0x00, 0x01, 0x02, 0x0C, 0x0F, 0x10, 0x11, 0x12, 0x13, 0x14, 0x15, 0x16, 0x17, 0x18, 0x19, 0x1A, 0x1B, 0xFF]

/-- A payload has 0 to `MSG_PAYLOAD_MAX` = 247 bytes (R10, R93). -/
def payloadFits (pl : List Byte) : Bool := decide (pl.length ≤ 247)

/-- A legal frame length is 1..251 (R10, R91). -/
def frameLengthOk (b : Byte) : Bool := decide (1 ≤ b.toNat ∧ b.toNat ≤ 251)

/-- The checks an instruction passes: the payload bound, an argument where `reboot.postpone` needs one (R249),
an opcode that is unassigned (R102), a length byte in or out of range (R133 to R135), a sendable Message buffer
(R140, R171) and a packet that is as long as its length byte says (R105 `rf_rx`). -/
def Instr.wf : Instr → Bool
  | .ping _ pl | .bootloaderAck _ pl | .writePage _ pl | .erase _ pl | .bootloaderNack _ pl
  | .ack _ pl | .ascii _ pl | .getTime _ pl | .setTime _ pl | .ranging _ pl | .rangingAck _ pl
  | .getTelem _ pl | .telem _ pl | .getCallsign _ pl | .setCallsign _ pl | .callsign _ pl
  | .nack _ pl => payloadFits pl
  | .reboot _ => true
  | .rebootPostpone _ pl => !pl.isEmpty && payloadFits pl
  | .unassigned op _ pl => !assignedOpcodes.contains op && payloadFits pl
  | .serRxWaitStart0 _ _ | .serRxWaitStart1 _ _ | .serRxReceiveData _ _ => true
  | .serRxWaitLengthBad _ b => !frameLengthOk b
  | .serRxWaitLengthNofree _ b | .serRxWaitLengthOk _ b => frameLengthOk b
  | .poll _ | .mlRadio | .rfTxDone | .dispatch | .tick | .rst _ => true
  | .serSend _ m => decide (m.length ≤ 253)
  | .radioSend m _ => decide (6 ≤ m.length ∧ m.length ≤ 253)
  | .rfRx pkt => !pkt.isEmpty && decide (pkt.length = (pkt.headD 0).toNat + 1)

end Sys2Proof
end

