-- ==== Sys2Proof/Decode.lean ====
section
/-! DEFINITION. From the unit an interface presents to the instruction it stands for, total on any bytes, and
back (30_encoding.md, opcode_table.json). -/

namespace Sys2Proof

/-- Why a unit stands for no instruction. -/
inductive Reject where
  /-- a Message shorter than its 6-byte header (R201) -/
  | messageShort
  /-- a Message longer than its buffer, `MSG_CAP` = 253 bytes, or, for the radio send, shorter than the header -/
  | messageLength
  /-- a serial byte unit that is not exactly one byte -/
  | notOneByte
  /-- a packet that is not as long as its length byte announces (R105 `rf_rx`) -/
  | packetLength
  /-- bytes on a transaction that has no operand bytes -/
  | operandBytes
deriving DecidableEq, Repr

/-- `u16le(lo, hi)` (R13, R63): low byte first. -/
def u16le (lo hi : Byte) : U16 := hi ++ lo

/-- `le16(v) = [v[7:0], v[15:8]]` (R13, R63). -/
def le16 (v : U16) : List Byte := [v.extractLsb' 0 8, v.extractLsb' 8 8]

/-- The bytes of a Message (R93): device-id, seqnum, subsystem, opcode, payload. -/
def messageBytes (h : Header) (op : Byte) (pl : List Byte) : List Byte :=
  le16 h.deviceId ++ le16 h.seqnum ++ [h.subsystem, op] ++ pl

/-- The row of the match table's opcode map that an opcode selects (R101, R102). With opcode 0x12 the payload
decides between `reboot` (none, R248) and `reboot.postpone` (R249). -/
def instrOfOpcode (op : Byte) (h : Header) (pl : List Byte) : Instr :=
  if op = 0x00 then .ping h pl
  else if op = 0x01 then .bootloaderAck h pl
  else if op = 0x02 then .writePage h pl
  else if op = 0x0C then .erase h pl
  else if op = 0x0F then .bootloaderNack h pl
  else if op = 0x10 then .ack h pl
  else if op = 0x11 then .ascii h pl
  else if op = 0x12 then (if pl.isEmpty then .reboot h else .rebootPostpone h pl)
  else if op = 0x13 then .getTime h pl
  else if op = 0x14 then .setTime h pl
  else if op = 0x15 then .ranging h pl
  else if op = 0x16 then .rangingAck h pl
  else if op = 0x17 then .getTelem h pl
  else if op = 0x18 then .telem h pl
  else if op = 0x19 then .getCallsign h pl
  else if op = 0x1A then .setCallsign h pl
  else if op = 0x1B then .callsign h pl
  else if op = 0xFF then .nack h pl
  else .unassigned op h pl

/-- A Message as the match table sees it (R93, R230). -/
def decodeMessage : List Byte → Except Reject Instr
  | id0 :: id1 :: sq0 :: sq1 :: sub :: op :: pl =>
    if payloadFits pl then .ok (instrOfOpcode op ⟨u16le id0 id1, u16le sq0 sq1, sub⟩ pl)
    else .error .messageLength
  | _ => .error .messageShort

/-- A received serial byte: exactly one row applies to every state and byte (R130, R137). -/
def decodeSerialByte (p : Port) (st : FdState) (free : Bool) (b : Byte) : Instr :=
  match st with
  | .waitStart0 => .serRxWaitStart0 p b
  | .waitStart1 => .serRxWaitStart1 p b
  | .waitLength =>
    if frameLengthOk b then (if free then .serRxWaitLengthOk p b else .serRxWaitLengthNofree p b)
    else .serRxWaitLengthBad p b
  | .receiveData => .serRxReceiveData p b

/-- A unit whose carrier takes no operand bytes. -/
def decodeBare (i : Instr) : List Byte → Except Reject Instr
  | [] => .ok i
  | _ :: _ => .error .operandBytes

/-- The instruction a unit stands for, or why it stands for none. -/
def decode (u : WireUnit) : Except Reject Instr :=
  match u.carrier with
  | .message => decodeMessage u.bytes
  | .serialIn p st free =>
    match u.bytes with
    | [b] => .ok (decodeSerialByte p st free b)
    | _ => .error .notOneByte
  | .mlPoll p => decodeBare (.poll p) u.bytes
  | .serialOut p => if u.bytes.length ≤ 253 then .ok (.serSend p u.bytes) else .error .messageLength
  | .radioIn =>
    match u.bytes with
    | [] => .error .packetLength
    | l :: rest => if rest.length = l.toNat then .ok (.rfRx (l :: rest)) else .error .packetLength
  | .mlRadio => decodeBare .mlRadio u.bytes
  | .radioOut fbit =>
    if 6 ≤ u.bytes.length ∧ u.bytes.length ≤ 253 then .ok (.radioSend u.bytes fbit) else .error .messageLength
  | .txDone => decodeBare .rfTxDone u.bytes
  | .mlDispatch => decodeBare .dispatch u.bytes
  | .tick => decodeBare .tick u.bytes
  | .rst cause => decodeBare (.rst cause) u.bytes

/-- A Message row as the unit that carries it. -/
def encodeMessage (op : Byte) (h : Header) (pl : List Byte) : WireUnit := ⟨.message, messageBytes h op pl⟩

/-- The unit an instruction is presented by: the Message layout of R93 with the opcode of R101, the byte and the
decoder state of its row, the packet, or the bare transaction of R105. The free-slot flag is written only for
the two rows of `WaitLength` that it tells apart. -/
def encode : Instr → WireUnit
  | .ping h pl => encodeMessage 0x00 h pl
  | .bootloaderAck h pl => encodeMessage 0x01 h pl
  | .writePage h pl => encodeMessage 0x02 h pl
  | .erase h pl => encodeMessage 0x0C h pl
  | .bootloaderNack h pl => encodeMessage 0x0F h pl
  | .ack h pl => encodeMessage 0x10 h pl
  | .ascii h pl => encodeMessage 0x11 h pl
  | .reboot h => encodeMessage 0x12 h []
  | .rebootPostpone h pl => encodeMessage 0x12 h pl
  | .getTime h pl => encodeMessage 0x13 h pl
  | .setTime h pl => encodeMessage 0x14 h pl
  | .ranging h pl => encodeMessage 0x15 h pl
  | .rangingAck h pl => encodeMessage 0x16 h pl
  | .getTelem h pl => encodeMessage 0x17 h pl
  | .telem h pl => encodeMessage 0x18 h pl
  | .getCallsign h pl => encodeMessage 0x19 h pl
  | .setCallsign h pl => encodeMessage 0x1A h pl
  | .callsign h pl => encodeMessage 0x1B h pl
  | .nack h pl => encodeMessage 0xFF h pl
  | .unassigned op h pl => encodeMessage op h pl
  | .serRxWaitStart0 p b => ⟨.serialIn p .waitStart0 false, [b]⟩
  | .serRxWaitStart1 p b => ⟨.serialIn p .waitStart1 false, [b]⟩
  | .serRxWaitLengthBad p b => ⟨.serialIn p .waitLength false, [b]⟩
  | .serRxWaitLengthNofree p b => ⟨.serialIn p .waitLength false, [b]⟩
  | .serRxWaitLengthOk p b => ⟨.serialIn p .waitLength true, [b]⟩
  | .serRxReceiveData p b => ⟨.serialIn p .receiveData false, [b]⟩
  | .poll p => ⟨.mlPoll p, []⟩
  | .serSend p m => ⟨.serialOut p, m⟩
  | .rfRx pkt => ⟨.radioIn, pkt⟩
  | .mlRadio => ⟨.mlRadio, []⟩
  | .radioSend m fbit => ⟨.radioOut fbit, m⟩
  | .rfTxDone => ⟨.txDone, []⟩
  | .dispatch => ⟨.mlDispatch, []⟩
  | .tick => ⟨.tick, []⟩
  | .rst cause => ⟨.rst cause, []⟩

/-- The Message that a word of spec/opcode_table.json stands for. The table numbers the bits of a Message row
from its opcode byte (mask 0xFF of `msg[5]`), so the word's first byte is the opcode and the bytes after it, if
the word has any, are the payload; the header, to which the table gives no bits, is five zero bytes (log 31). -/
def tableMessage (nbits w : Nat) : List Byte :=
  List.replicate 5 (0 : Byte) ++ (List.range (nbits / 8)).map (fun i => BitVec.ofNat 8 (w >>> (8 * i)))

/-- The instruction the decoder reads from a word of spec/opcode_table.json. -/
def decodeTableWord (nbits w : Nat) : Option Instr :=
  match decode ⟨.message, tableMessage nbits w⟩ with
  | .ok i => some i
  | .error _ => none

end Sys2Proof
end

