-- ==== Sys2Proof/Machine/State.lean ====
section
/-! DEFINITION. Everything the spec gives the machine (10_state.md), the model's own fields, the reasons a step can
stop, and the state after reset (R341). -/

namespace Sys2Proof.Machine

/-- A byte buffer (R60) or the flash (R62): (index, byte) pairs in the canonical form of `Memory.wf`. -/
abbrev Memory := List Host.Cell

/-- What a byte that nothing has written reads as. For the flash this is the unprovisioned value, all ones (R344;
log 14); for the buffers the spec gives none, and no rule reads one before it is written (I6; log 13). -/
def Memory.unlisted : Byte := 0xFF

/-- The canonical form: addresses strictly rising, and no entry that an unlisted address would read as. -/
abbrev Memory.wf (m : Memory) : Prop :=
  m.Pairwise (fun c d => c.1 < d.1) ∧ ∀ c ∈ m, c.2 ≠ Memory.unlisted

/-- `slot_status[p][k]` (R25). -/
inductive SlotStatus where
  | free | filling | ready
deriving DecidableEq, Repr

/-- One receive slot of a serial port (R25, R26). -/
structure Slot where
  /-- `slot_status[p][k]` -/
  status : SlotStatus
  /-- `slot_len[p][k]` -/
  len : Byte
  /-- `slot_data[p][k]`, 251 bytes -/
  data : Memory
deriving DecidableEq, Repr

/-- The state of one serial frame decoder and its pool (R21 to R27, R130). -/
structure SerialPort where
  /-- `fd_state[p]` (R21) -/
  fdState : FdState
  /-- `fd_len[p]` (R22) -/
  fdLen : Byte
  /-- `fd_off[p]` (R23) -/
  fdOff : Byte
  /-- `fd_slot[p]` (R24) -/
  fdSlot : Nat
  /-- the pool, slot k at index k (R25, R26) -/
  slots : List Slot
  /-- `uart_rx_frames[p]` (R27) -/
  rxFrames : U32
deriving DecidableEq, Repr

/-- What ML does next (log 4). The steps of ML are the ones R8 lists. -/
inductive MlPhase where
  /-- no service in progress: any enabled service may be taken (R317, R343) -/
  | idle
  /-- `msg` holds a Message to dispatch (R139, R162) -/
  | dispatch
  /-- the Message is addressed here: its handler runs next (R204) -/
  | deliver
  /-- the handler has left a reply: it is sent next (R207) -/
  | reply
  /-- the Message is forwarded next (R208) -/
  | forward
  /-- ML is blocked in a radio send until `rf_tx_done` (R173) -/
  | txWait
  /-- the erase handler is blocked in `erase_app`, and the erase of page `page` is triggered next (R270, R357) -/
  | erasing (page : Nat)
  /-- the write-page handler is blocked in `write_page`, and the programming ends next (R271, R357) -/
  | programming
  /-- the ranging handler is blocked in `ranging_tx`, and the transmission ends next (R287) -/
  | ranging
  /-- the dispatch of a radio Message is over, and the receive slot is drained next (R162, R167) -/
  | drain
deriving DecidableEq, Repr

/-- What may move the block next, in the order it happens: an input of R105, a turn given to ML, or the bootloader
controller's write of `keepalive` (R39). The queue's order stands for the order of agents the spec leaves open
(R317, I11; log 3). -/
inductive Stim where
  /-- `ser_rx(p, b)` -/
  | serRx (p : Port) (b : Byte)
  /-- `rf_rx(pkt)` -/
  | rfRx (pkt : List Byte)
  /-- `rf_tx_done` -/
  | txDone
  /-- `tick` -/
  | tick
  /-- `rst` -/
  | rst (cause : ResetCause)
  /-- ML takes the service of serial port p next (R139) -/
  | poll (p : Port)
  /-- ML takes the radio service next (R162) -/
  | radio
  /-- ML takes its next step -/
  | ml
  /-- the bootloader controller, outside the block, sets `keepalive` (R39, R346; log 16) -/
  | controller (v : Nat)
deriving DecidableEq, Repr

/-- The outputs of R106. -/
inductive Output where
  | serTx (p : Port) (frame : List Byte)
  | rfTx (pkt : List Byte)
  | rngTx (pkt : List Byte)
  | rebootReq
  | wdtKick
  | cmdRecognized
  | rxReset
deriving DecidableEq, Repr

/-- The results of `write_page` (R271). -/
inductive PageResult where
  | ok | errProtected | errBadAddr
deriving DecidableEq, Repr

/-- The block events of R300, with the information each records. -/
inductive Event where
  | frameDesync (p : Port) (b : Byte)
  | badLength (p : Port) (b : Byte)
  | noFreeSlot (p : Port) (b : Byte)
  | radioShort (l : Byte)
  | radioCrc (computed received : U16)
  | radioLost
  | sendOversize (m : Nat)
  | serialTxRange (p : Port) (m : Nat)
  | msgShort (t : Transport) (m : Byte)
  | notForwarded (t : Transport) (id : U16)
  | unknownOpcode (op : Byte)
  | missingArgument (op : Byte)
  | flashRejected (page : Byte) (r : PageResult)
  | authFailed
  | watchdogReset
deriving DecidableEq, Repr

/-- The synchronous collaborator calls (R106, 44_collaborators.md), with their results. -/
inductive Call where
  | eraseApp
  | writePage (i : Byte) (data : List Byte) (r : PageResult)
  | verify (r : Bool)
  | postpone (x : U32) (accepted : Bool)
  | ext (m : List Byte) (r : Option ExtReply)
  | rangingTx (m : List Byte) (fbit : Bool)
  | telemetrySnapshot (s : List Byte)
deriving DecidableEq, Repr

/-- The whole machine. -/
@[ext]
structure State where
  /-- the static configuration inputs (R36); no step writes them -/
  cfg : Config
  /-- serial port 0 -/
  port0 : SerialPort
  /-- serial port 1 -/
  port1 : SerialPort
  /-- `rx_armed` (R28) -/
  rxArmed : Bool
  /-- `rx_full` (R29) -/
  rxFull : Bool
  /-- `rx_buf`, 256 bytes (R30) -/
  rxBuf : Memory
  /-- `tx_busy` (R31) -/
  txBusy : Bool
  /-- `tx_buf`, 256 bytes (R31) -/
  txBuf : Memory
  /-- `radio_good` (R32) -/
  radioGood : U32
  /-- `radio_rej_crc` (R32) -/
  radioRejCrc : U32
  /-- `radio_rej_other` (R32) -/
  radioRejOther : U32
  /-- `radio_sent` (R32) -/
  radioSent : U32
  /-- `msg`, 253 bytes (R33) -/
  msg : Memory
  /-- `msg_len` (R33) -/
  msgLen : Byte
  /-- `msg_src` (R33) -/
  msgSrc : Transport
  /-- `msg_fbit` (R33) -/
  msgFbit : Bool
  /-- `reply`, 253 bytes (R34) -/
  reply : Memory
  /-- `reply_len` (R34) -/
  replyLen : Byte
  /-- `cmd_recognized` (R35), a strobe that lasts one step (log 20) -/
  cmdRecognized : Bool
  /-- `callsign` (R37) -/
  callsign : Memory
  /-- `callsign_len` (R37) -/
  callsignLen : Nat
  /-- `time_set` (R38) -/
  timeSet : Bool
  /-- `time_val`, TIME_BYTES bytes (R38) -/
  timeVal : Memory
  /-- `keepalive` (R39) -/
  keepalive : Nat
  /-- `uptime` (R40) -/
  uptime : U32
  /-- `deadline` (R40) -/
  deadline : U32
  /-- `idle_ticks` (R40) -/
  idleTicks : U32
  /-- the flash memory the collaborators act on (R62) -/
  flash : Memory
  /-- the model's own: what ML does next (log 4) -/
  ml : MlPhase
  /-- the model's own: a `reboot_req` has been emitted, and the next step is the reset (R286; log 17) -/
  rebootLine : Bool
  /-- the model's own: the stimuli that have not happened yet (log 3) -/
  stim : List Stim
  /-- the model's own: what has been emitted, oldest first (log 19) -/
  outs : List Output
  /-- the model's own: the events raised, oldest first (log 19) -/
  events : List Event
  /-- the model's own: the collaborator calls made, oldest first (log 19) -/
  calls : List Call
  /-- the model's own: CBC_MAC evaluations made (R276; log 19) -/
  macEvals : Nat
  /-- the model's own: snapshots drawn, which the free telemetry value is applied to (log 12) -/
  draws : Nat
  /-- the model's own: whether each coming flash programming succeeds; none listed succeeds (R279; log 15) -/
  flashAnswers : List Bool
deriving DecidableEq, Repr

/-- Why the machine stops with a fault. The block has no traps (R300): this is the model's own. -/
inductive Fault where
  /-- Raised by a handler whose reply payload, from `EXT` or from a telemetry size or callsign length that no
  legal configuration allows, would pass the end of the 253-byte `reply` buffer, an index that exists in no
  buffer (R61, R206). Safe: no run within the contracts of R256 and R345 reaches it (log 24). -/
  | replyOverflow (op : Byte)
deriving DecidableEq, Repr

/-- Why a step has no meaning. -/
inductive Refusal where
  /-- An instruction with no meaning in this model; no arm of `exec` answers it. Safe. -/
  | notModelled (mnemonic : String)
  /-- Raised by `step`: the configuration breaks R344 or R345, and "a model refuses it" (I10). Safe. -/
  | illegalConfig
  /-- Raised by `rf_tx_done` with no transmission in flight: "a model refuses it" (R178, I8). Safe. -/
  | txDoneIdle
  /-- Raised by `step` on a unit that stands for no instruction, such as a packet whose length is not the one
  its length byte announces, which R105 rules out (log 23). Safe. -/
  | undecodable (why : Reject)
deriving DecidableEq, Repr

/-- A slot at reset (R25, R26). -/
def Slot.reset : Slot where
  status := .free
  len := 0
  data := []

/-- A serial port with `n` slots at reset (R341). -/
def SerialPort.reset (n : Nat) : SerialPort where
  fdState := .waitStart0
  fdLen := 0
  fdOff := 0
  fdSlot := 0
  slots := List.replicate n Slot.reset
  rxFrames := 0

/-- `keepalive` at reset: `KEEPALIVE_INIT` in the Bootloader variant (R341); the Application has none (log 16). -/
def keepaliveAtReset (c : Config) : Nat :=
  match c.variant with
  | .bootloader => c.keepaliveInit
  | .application => 0

/-- Every element at the value R341 gives it, under configuration `c`, with nothing in flash, no stimulus and
nothing observed yet. -/
def State.atReset (c : Config) : State where
  cfg := c
  port0 := SerialPort.reset c.nSlots0
  port1 := SerialPort.reset c.nSlots1
  rxArmed := true
  rxFull := false
  rxBuf := []
  txBusy := false
  txBuf := []
  radioGood := 0
  radioRejCrc := 0
  radioRejOther := 0
  radioSent := 0
  msg := []
  msgLen := 0
  msgSrc := .s0
  msgFbit := false
  reply := []
  replyLen := 0
  cmdRecognized := false
  callsign := []
  callsignLen := 0
  timeSet := false
  timeVal := []
  keepalive := keepaliveAtReset c
  uptime := 0
  deadline := c.rebootDeadlineInit
  idleTicks := 0
  flash := []
  ml := .idle
  rebootLine := false
  stim := []
  outs := []
  events := []
  calls := []
  macEvals := 0
  draws := 0
  flashAnswers := []

/-- The machine right after reset (R341), under the configuration the log names (log 8). -/
def State.reset : State := State.atReset Config.cfgA

end Sys2Proof.Machine
end

