-- ==== Sys2Proof/Machine/Memory.lean ====
section
/-! DEFINITION. Reading and writing a byte buffer or the flash (R14 `MemRead`, `MemWrite`; R60 to R62). A write keeps
the canonical form of `Memory.wf`. -/

namespace Sys2Proof.Machine

/-- The byte at index `k`. -/
def Memory.byteAt : Memory → Nat → Byte
  | [], _ => Memory.unlisted
  | c :: m, k => if c.1 = k then c.2 else Memory.byteAt m k

/-- `MemRead(buf, a, n)`: the `n` bytes of `buf` from index `a` (R14). -/
def Memory.readBytes (m : Memory) (a n : Nat) : List Byte :=
  (List.range n).map (fun i => m.byteAt (a + i))

/-- The cells that hold the byte string `bs` from index `a`, in canonical form. -/
def Memory.cellsOf : Nat → List Byte → Memory
  | _, [] => []
  | a, b :: bs => if b = Memory.unlisted then Memory.cellsOf (a + 1) bs else (a, b) :: Memory.cellsOf (a + 1) bs

/-- The cells below index `a`. -/
def Memory.below (m : Memory) (a : Nat) : Memory := m.filter (fun c => decide (c.1 < a))

/-- The cells from index `a` on. -/
def Memory.from (m : Memory) (a : Nat) : Memory := m.filter (fun c => decide (a ≤ c.1))

/-- `MemWrite(buf, a, |bs|, bs)`: the byte string `bs` into `buf` from index `a` (R14). -/
def Memory.writeBytes (m : Memory) (a : Nat) (bs : List Byte) : Memory :=
  m.below a ++ Memory.cellsOf a bs ++ m.from (a + bs.length)

/-- The `n` bytes from index `a` all become `v` (R270). -/
def Memory.fill (m : Memory) (a n : Nat) (v : Byte) : Memory :=
  m.below a ++ (if v = Memory.unlisted then [] else Memory.cellsOf a (List.replicate n v)) ++ m.from (a + n)

end Sys2Proof.Machine
end

