-- ==== Sys2Proof/Machine/Ops.lean ====
section
/-! DEFINITION. The named operations over State: the ports, outputs, events and collaborator calls (R14), the
configuration (R36, R345), the end of a service of ML and the receive slot's drain (R162, R167). The block takes no
exception and returns from none (R300, R315): `raiseEvent` is the whole of `raise Event(info)`. -/

namespace Sys2Proof.Machine

/-- The decoder and pool of serial port `p` (R130). -/
def State.port (s : State) : Port → SerialPort
  | .p0 => s.port0
  | .p1 => s.port1

/-- Serial port `p` becomes `v`. -/
def State.setPort (s : State) (p : Port) (v : SerialPort) : State :=
  match p with
  | .p0 => { s with port0 := v }
  | .p1 => { s with port1 := v }

/-- `emit` (R14, R106). -/
def State.emit (s : State) (o : Output) : State := { s with outs := s.outs ++ [o] }

/-- `raise Event(info)` (R14, R300): the event is recorded; nothing is saved and control goes nowhere (R315). -/
def State.raiseEvent (s : State) (e : Event) : State := { s with events := s.events ++ [e] }

/-- A collaborator call, with its result, is recorded (log 19). -/
def State.logCall (s : State) (c : Call) : State := { s with calls := s.calls ++ [c] }

/-- The transport of serial port `p` (R16). -/
def transportOf : Port → Transport
  | .p0 => .s0
  | .p1 => .s1

/-- The code of an event (R300). -/
def eventCode : Event → Nat
  | .frameDesync _ _ => 1
  | .badLength _ _ => 2
  | .noFreeSlot _ _ => 3
  | .radioShort _ => 4
  | .radioCrc _ _ => 5
  | .radioLost => 6
  | .sendOversize _ => 7
  | .serialTxRange _ _ => 8
  | .msgShort _ _ => 9
  | .notForwarded _ _ => 10
  | .unknownOpcode _ => 11
  | .missingArgument _ => 11
  | .flashRejected _ _ => 12
  | .authFailed => 13
  | .watchdogReset => 14

/-- `FWD_EN[t]` (R36, D11). -/
def forwardEnabled (c : Config) : Transport → Bool
  | .s0 => c.fwdS0
  | .s1 => c.fwdS1
  | .r => c.fwdR

/-- `FWD_PORT_MAP` (R10, D9). -/
def forwardPort (c : Config) (fbit : Bool) : Port := if fbit then c.fwdPort1 else c.fwdPort0

/-- The fixed snapshot of a test binding has the size the configuration gives (log 12). -/
def telemLegal (c : Config) : Bool :=
  match c.telem with
  | .board => true
  | .fixed bs => bs.length == c.telemBytes

/-- The flash region map of R345. -/
def flashMapLegal (c : Config) : Bool :=
  c.appStart % 128 == 0 && (c.appEnd + 1) % 128 == 0 && decide (c.appStart ≤ c.appEnd) &&
    decide (c.appEnd < c.flashSize) && c.sigOffset % 16 == 0 && decide (c.appStart ≤ c.sigOffset) &&
    decide (c.sigOffset + 16 ≤ c.appEnd + 1)

/-- The configurations of the block (R344, R345, I10): a pool on each port, the flash map, keys of 16 bytes, a
time of at least one byte; and, so that no length byte or buffer index overflows, a radio budget of at most 255, a
snapshot of at most 247 bytes and a ranging payload of at most 246 (log 21). -/
def configLegal (c : Config) : Bool :=
  decide (1 ≤ c.nSlots0) && decide (1 ≤ c.nSlots1) && flashMapLegal c &&
    c.key0.length == 16 && c.key1.length == 16 && c.key2.length == 16 &&
    decide (1 ≤ c.timeBytes) && decide (c.radioLenMax ≤ 255) && decide (c.telemBytes ≤ 247) &&
    telemLegal c && decide (c.rangingPayload.length ≤ 246)

/-- `drain()` (R162, R167). -/
def State.drain (s : State) : State := { s with rxFull := false, rxArmed := true }

/-- What is left of the service of ML in progress when its dispatch is over: after a radio Message the drain, which
is a step of ML's own (R162, R167; log 5); else nothing, and ML is free to take any enabled service (R139, R317). -/
def State.endPhase (s : State) : MlPhase :=
  match s.ml with
  | .idle => .idle
  | _ =>
    match s.msgSrc with
    | .r => .drain
    | _ => .idle

/-- The dispatch of the service in progress is over. -/
def State.endService (s : State) : State := { s with ml := s.endPhase }

/-- A Message `d` is handed to the dispatcher (R139, R166). -/
def State.takeMessage (s : State) (d : List Byte) (src : Transport) (fbit : Bool) : State :=
  { s with
    msg := s.msg.writeBytes 0 d, msgLen := BitVec.ofNat 8 d.length, msgSrc := src, msgFbit := fbit, ml := .dispatch }

/-- `msg[0..M)`. -/
def State.msgBytes (s : State) : List Byte := s.msg.readBytes 0 s.msgLen.toNat

/-- `reply[0..reply_len)`. -/
def State.replyBytes (s : State) : List Byte := s.reply.readBytes 0 s.replyLen.toNat

/-- A `reboot_req` is emitted; it resets the device (R248, R283, R286; log 17). -/
def State.requestReboot (s : State) : State := { s.emit .rebootReq with rebootLine := true }

end Sys2Proof.Machine
end

