-- ==== Sys2Proof/Machine/Operands.lean ====
section
/-! DEFINITION. How an operand is read out of its bytes (R63, R202, R241, R249): the fields of a Message, of a radio
packet and of a handler's payload. -/

namespace Sys2Proof.Machine

/-- `u32le(b0, b1, b2, b3)` (R13, R63). -/
def u32le (b0 b1 b2 b3 : Byte) : U32 := b3 ++ b2 ++ b1 ++ b0

/-- Byte `i` of a payload; every rule reads only indices the payload has. -/
def payloadByte (pl : List Byte) (i : Nat) : Byte := pl.getD i 0

/-- The postpone argument `X` (R249). -/
def postponeArgument (pl : List Byte) : U32 :=
  u32le (payloadByte pl 0) (payloadByte pl 1) (payloadByte pl 2) (payloadByte pl 3)

/-- The page index of write-page (R241). -/
def pageIndex (pl : List Byte) : Byte := payloadByte pl 0

/-- The 128 data bytes of write-page; bytes beyond them are ignored (R241). -/
def pageData (pl : List Byte) : List Byte := (pl.drop 1).take 128

/-- The device-id of the Message in `msg` (R202). -/
def State.msgId (s : State) : U16 := u16le (s.msg.byteAt 0) (s.msg.byteAt 1)

/-- The subsystem tag of the Message in `msg` (R202). -/
def State.msgSubsystem (s : State) : Byte := s.msg.byteAt 4

/-- The length byte `L` of the deposited packet (R30, R162). -/
def State.rxLen (s : State) : Nat := (s.rxBuf.byteAt 0).toNat

/-- The footer checksum of the deposited packet of length byte `L` (R100, R164). -/
def State.rxChecksum (s : State) (L : Nat) : U16 := u16le (s.rxBuf.byteAt (L - 1)) (s.rxBuf.byteAt L)

/-- The forwarding-target bit of a flags byte: bit 6 (R11, R99). -/
def flagsFbit (flags : Byte) : Bool := flags.getLsbD 6

/-- The flags byte of a sent packet: bit 6 only (R99, R172). -/
def flagsOf (fbit : Bool) : Byte := if fbit then 0x40 else 0x00

/-- The Message of a packet of length byte `L` (R166): the device-id spliced back from the footer, then seqnum,
subsystem, opcode and payload. -/
def State.rxMessage (s : State) (L : Nat) : List Byte :=
  s.rxBuf.readBytes (L - 3) 2 ++ s.rxBuf.readBytes 2 (L - 5)

end Sys2Proof.Machine
end

