-- ==== Sys2Proof/Machine/Dispatcher.lean ====
section
/-! DEFINITION. The dispatcher (42_dispatcher.md). -/

namespace Sys2Proof.Machine

/-- R203: the Message is addressed to this node. The arrival transport takes no part. -/
def State.addressedHere (s : State) : Bool :=
  s.msgSubsystem == s.cfg.subsysRadio && (s.msgId == s.cfg.selfId || s.msgId == 0xFFFF)

/-- R200: drop a short Message (R201), deliver locally (R203), forward (R208) or drop (R209). Delivery and
forwarding are ML's next step (R8; log 4). -/
def execDispatch (s : State) : Host.Outcome State Fault Refusal :=
  if s.msgLen.toNat < 6 then .next (s.raiseEvent (.msgShort s.msgSrc s.msgLen)).endService
  else if s.addressedHere then .next { s with ml := .deliver }
  else if forwardEnabled s.cfg s.msgSrc then .next { s with ml := .forward }
  else .next (s.raiseEvent (.notForwarded s.msgSrc s.msgId)).endService

/-- `reply_init()` (R205): own device-id, the request's seqnum, `SUBSYS_REPLY`, opcode NACK 0xFF, header only. -/
def State.replyInit (s : State) (h : Header) : State :=
  { s with
    reply := s.reply.writeBytes 0 (le16 s.cfg.selfId ++ le16 h.seqnum ++ [s.cfg.subsysReply, 0xFF]), replyLen := 6 }

/-- A handler's reply (R206): opcode at `reply[5]`, payload from `reply[6]`. -/
def State.setReply (s : State) (op : Byte) (pl : List Byte) : State :=
  { s with reply := s.reply.writeBytes 5 (op :: pl), replyLen := BitVec.ofNat 8 (6 + pl.length) }

/-- A handler suppresses the reply (R206). -/
def State.noReply (s : State) : State := { s with replyLen := 0 }

/-- After the handler (R204, R207): with no reply the service ends, else the reply is ML's next step. -/
def State.handlerDone (s : State) : State :=
  if s.replyLen = 0 then s.endService else { s with ml := .reply }

/-- The unit of the reply send (R207): by the originating transport, to the radio with the request's bit. -/
def State.replyUnit (s : State) : WireUnit :=
  match s.msgSrc with
  | .s0 => ⟨.serialOut .p0, s.replyBytes⟩
  | .s1 => ⟨.serialOut .p1, s.replyBytes⟩
  | .r => ⟨.radioOut s.msgFbit, s.replyBytes⟩

/-- The unit of a forward (R208): serial to radio with the port as the bit, radio to the serial port the bit
selects; the Message unmodified. -/
def State.forwardUnit (s : State) : WireUnit :=
  match s.msgSrc with
  | .s0 => ⟨.radioOut false, s.msgBytes⟩
  | .s1 => ⟨.radioOut true, s.msgBytes⟩
  | .r => ⟨.serialOut (forwardPort s.cfg s.msgFbit), s.msgBytes⟩

end Sys2Proof.Machine
end

