-- ==== Sys2Proof/Machine/Flags.lean ====
section
/-! DEFINITION. The flags of R41: the block has no condition codes; its flags are the slot statuses, `rx_armed`,
`rx_full`, `tx_busy`, `msg_fbit`, `time_set` and the strobe `cmd_recognized`. Here are the tests on the slot
statuses, the wrapping counters and the strobe. -/

namespace Sys2Proof.Machine

/-- The least index at or after `k` of a slot with status `st`, slot `k` being the head of the list. -/
def firstSlotFrom (st : SlotStatus) : Nat → List Slot → Option Nat
  | _, [] => none
  | k, sl :: rest => if sl.status = st then some k else firstSlotFrom st (k + 1) rest

/-- The least index of a slot of the port with status `st`: Free at `WaitLength` (R135), Ready at poll (R138). -/
def SerialPort.firstSlot (q : SerialPort) (st : SlotStatus) : Option Nat := firstSlotFrom st 0 q.slots

/-- Whether some slot of the port is Free (R134, R135). -/
def SerialPort.hasFree (q : SerialPort) : Bool := (q.firstSlot .free).isSome

/-- Slot `k` of the port becomes `f` of itself. -/
def SerialPort.updateSlot (q : SerialPort) (k : Nat) (f : Slot → Slot) : SerialPort :=
  { q with slots := q.slots.modify k f }

/-- `+ 1 mod 2^32` on a counter (R12, R27, R32). -/
def bump (c : U32) : U32 := c + 1

/-- `cmd_recognized` is asserted (R35, R238); in the Bootloader variant it refreshes the keep-alive, before any
write of the handler's own (R280). Where the strobe stands among the other outputs of its step the spec leaves open:
R239 writes it after `emit wdt_kick`, R280 has its refresh first. DESIGN CHOICE: it is emitted first (log 20). -/
def State.recognize (s : State) : State :=
  match s.cfg.variant with
  | .bootloader => { s.emit .cmdRecognized with cmdRecognized := true, keepalive := s.cfg.keepaliveInit }
  | .application => { s.emit .cmdRecognized with cmdRecognized := true }

end Sys2Proof.Machine
end

