-- ==== Sys2Proof/Machine/Collaborators.lean ====
section
/-! DEFINITION. The extension point (R256), the telemetry snapshot (R288) and the handler shapes that every opcode row
is written over (R231, R237). -/

namespace Sys2Proof.Machine

/-- The answer of an extension table: the first row of the opcode, if there is one. -/
def extTableAnswer (rows : List ExtRow) (op : Byte) : Option ExtReply :=
  (rows.find? (fun r => r.op == op)).map ExtRow.answer

/-- `EXT(m)` as the configuration binds it (R256; log 11). -/
def extAnswer (binding : ExtBinding) (op : Byte) (m : List Byte) : Option ExtReply :=
  match binding with
  | .never => none
  | .table rows => extTableAnswer rows op
  | .board => Config.extBoard m

/-- What the block contributes to the snapshot (R288). -/
def State.telemView (s : State) : TelemView :=
  ⟨s.port0.rxFrames, s.port1.rxFrames, s.radioGood, s.radioRejCrc, s.radioRejOther, s.radioSent, s.uptime⟩

/-- `telemetry_snapshot()` (R288): `TELEM_BYTES` bytes of an open layout (log 12). -/
def State.telemetry (s : State) : List Byte :=
  match s.cfg.telem with
  | .board => (List.range s.cfg.telemBytes).map (Config.telemByte s.telemView s.draws)
  | .fixed bs => bs

/-- The call of `telemetry_snapshot()`: one draw (log 12). -/
def State.drawTelemetry (s : State) : State :=
  { s.logCall (.telemetrySnapshot s.telemetry) with draws := s.draws + 1 }

/-- A handler ends with a reply whose payload length its rule does not bound: it must fit the buffer (R206;
log 24). -/
def replyWith (op : Byte) (pl : List Byte) (s : State) : Host.Outcome State Fault Refusal :=
  if pl.length ≤ 247 then .next (s.setReply op pl).handlerDone else .fault (.replyOverflow op)

/-- R237, after `reply_init`: in the Bootloader the default NACK stays; in the Application `EXT` is asked, and
what it does not take is a NACK too. -/
def unmatched (op : Byte) (h : Header) (pl : List Byte) (s : State) : Host.Outcome State Fault Refusal :=
  match s.cfg.variant with
  | .bootloader => .next (s.raiseEvent (.unknownOpcode op)).handlerDone
  | .application =>
    let m := messageBytes h op pl
    match extAnswer s.cfg.ext op m with
    | none => .next ((s.logCall (.ext m none)).raiseEvent (.unknownOpcode op)).handlerDone
    | some .silent => .next (s.logCall (.ext m (some .silent))).recognize.noReply.handlerDone
    | some (.reply rop rpl) => replyWith rop rpl (s.logCall (.ext m (some (.reply rop rpl)))).recognize

/-- Local delivery of an opcode with no entry in either table (R204, R237). -/
def deliverUnmatched (op : Byte) (h : Header) (pl : List Byte) (s : State) : Host.Outcome State Fault Refusal :=
  unmatched op h pl (s.replyInit h)

/-- Local delivery of an opcode whose only entry is in variant `v`'s table and whose handler blocks in a collaborator
(R230, R236, R357): its first step, which `handler` takes after `reply_init`. The handler asserts `cmd_recognized`. -/
def deliverBlocking (v : Variant) (op : Byte) (h : Header) (pl : List Byte)
    (handler : State → Host.Outcome State Fault Refusal) (s : State) : Host.Outcome State Fault Refusal :=
  if s.cfg.variant = v then handler (s.replyInit h) else unmatched op h pl (s.replyInit h)

/-- Local delivery of an opcode whose only entry is in the Bootloader's table (R230, R236). -/
def deliverBootloader (op : Byte) (h : Header) (pl : List Byte)
    (handler : State → Host.Outcome State Fault Refusal) (s : State) : Host.Outcome State Fault Refusal :=
  match s.cfg.variant with
  | .bootloader => handler (s.replyInit h).recognize
  | .application => unmatched op h pl (s.replyInit h)

/-- Local delivery of an opcode whose only entry is in the Application's table (R230, R236). -/
def deliverApplication (op : Byte) (h : Header) (pl : List Byte)
    (handler : State → Host.Outcome State Fault Refusal) (s : State) : Host.Outcome State Fault Refusal :=
  match s.cfg.variant with
  | .bootloader => unmatched op h pl (s.replyInit h)
  | .application => handler (s.replyInit h).recognize

/-- The common inbound handler (R231): no reply, or the default NACK where `COMMON_INBOUND_REPLY` asks for it. -/
def commonInbound (h : Header) (s : State) : Host.Outcome State Fault Refusal :=
  match s.cfg.inboundReply with
  | .none => .next (s.replyInit h).recognize.noReply.handlerDone
  | .nack => .next (s.replyInit h).recognize.handlerDone

end Sys2Proof.Machine
end

