-- ==== Sys2Proof/Machine/Crc.lean ====
section
/-! DEFINITION. The checksum primitive (R168 to R170). -/

namespace Sys2Proof.Machine

/-- One shift of `CRC16_8005`, most significant bit first, no reflection (R169). -/
def crcShift (c : U16) : U16 := if c.msb then (c <<< 1) ^^^ 0x8005 else c <<< 1

/-- `CRC16_8005(c, b)` (R169): eight shifts of `c XOR (b << 8)`. -/
def crc16x8005 (c : U16) (b : Byte) : U16 :=
  (List.range 8).foldl (fun x _ => crcShift x) (c ^^^ (b.zeroExtend 16 <<< 8))

/-- `CRC_STEP` as the configuration binds it (R168; log 9). -/
def crcStep (binding : CrcBinding) (c : U16) (b : Byte) : U16 :=
  match binding with
  | .crc16x8005 => crc16x8005 c b
  | .golden => Config.goldenCrcStep c b

/-- `CRC(s)`: seed all ones, a byte at a time, no final inversion (R168). -/
def crcOf (binding : CrcBinding) (bs : List Byte) : U16 := bs.foldl (crcStep binding) 0xFFFF

end Sys2Proof.Machine
end

