-- ==== Sys2Proof/Machine/Radio.lean ====
section
/-! DEFINITION. The radio packet codec (41_radio_codec.md). -/

namespace Sys2Proof.Machine

/-- R160: a packet is deposited when the receiver is armed and the slot empty; otherwise it is lost. -/
def execRfRx (pkt : List Byte) (s : State) : Host.Outcome State Fault Refusal :=
  if s.rxArmed && !s.rxFull then .next { s with rxBuf := s.rxBuf.writeBytes 0 pkt, rxFull := true }
  else .next (s.raiseEvent .radioLost)

/-- Whether ML may take the radio service: `rx_full`, not `tx_busy` (R162), and no service in progress (R139). -/
def State.radioEnabled (s : State) : Bool := s.rxFull && !s.txBusy && decide (s.ml = .idle)

/-- R163: an undersized packet is rejected and listening resumes. -/
def State.rejectShort (s : State) : State :=
  ({ s with radioRejOther := bump s.radioRejOther }.raiseEvent (.radioShort (s.rxBuf.byteAt 0))).drain

/-- R165: a packet whose checksum `c` is not the received `f` is rejected and listening resumes. -/
def State.rejectCrc (s : State) (c f : U16) : State :=
  ({ s with radioRejCrc := bump s.radioRejCrc }.raiseEvent (.radioCrc c f)).drain

/-- R166, R284: the packet's Message is reconstructed, the packet counted and the idle count cleared. -/
def State.acceptPacket (s : State) (L : Nat) : State :=
  { s.takeMessage (s.rxMessage L) .r (flagsFbit (s.rxBuf.byteAt 1)) with
    radioGood := bump s.radioGood, idleTicks := 0 }

/-- R162: size, then checksum over `rx_buf[0 .. L-3)`, then the Message goes to dispatch. A service that is not
enabled is not taken (log 6). -/
def execMlRadio (s : State) : Host.Outcome State Fault Refusal :=
  if s.radioEnabled then
    let L := s.rxLen
    if L < 9 then .next s.rejectShort
    else
      let c := crcOf s.cfg.crc (s.rxBuf.readBytes 0 (L - 3))
      let f := s.rxChecksum L
      if c = f then .next (s.acceptPacket L) else .next (s.rejectCrc c f)
  else .next s

/-- The packet up to its checksum (R97, R172): length, flags, body, footer device-id. -/
def packetPrefix (m : List Byte) (fbit : Bool) : List Byte :=
  [BitVec.ofNat 8 (m.length + 3), flagsOf fbit] ++ m.drop 2 ++ m.take 2

/-- The packet that carries the Message `m` (R97, R172): the checksum covers `packet[0..M)`. -/
def buildPacket (binding : CrcBinding) (m : List Byte) (fbit : Bool) : List Byte :=
  let pre := packetPrefix m fbit
  pre ++ le16 (crcOf binding (pre.take m.length))

/-- R171 to R173: an oversize Message is rejected silently and the service ends; otherwise the packet is built in
`tx_buf`, the receiver disarmed, the packet emitted, and ML waits for `rf_tx_done`. -/
def execRadioSend (m : List Byte) (fbit : Bool) (s : State) : Host.Outcome State Fault Refusal :=
  if s.cfg.radioLenMax < m.length + 3 then .next (s.raiseEvent (.sendOversize m.length)).endService
  else
    let pkt := buildPacket s.cfg.crc m fbit
    .next ({ s with txBuf := s.txBuf.writeBytes 0 pkt, rxArmed := false, txBusy := true, ml := .txWait }.emit
      (.rfTx pkt))

/-- R178: the transmission ends, is counted, and the receiver re-armed; ML resumes after the send that blocked, and
what is left of its service is ML's next step (R167; log 5). With no transmission in flight the model refuses it
(I8; log 22). -/
def execRfTxDone (s : State) : Host.Outcome State Fault Refusal :=
  if s.txBusy then
    .next { s with txBusy := false, radioSent := bump s.radioSent, rxArmed := true }.endService
  else .refused .txDoneIdle

/-- The call of `ranging_tx(m, fbit)` (R287): a packet on the ranging profile, without `tx_buf` and without counters.
The receiver is disarmed during the transmission (R28, R357) and armed when it returns. DEDUCED: R287 states only the
second (log 37). DESIGN CHOICE: the packet is sent whatever its length, also past `RADIO_LEN_MAX`, for R287 gives no size
check (log 38). -/
def State.rangingTx (s : State) (m : List Byte) (fbit : Bool) : State :=
  { (s.logCall (.rangingTx m fbit)).emit (.rngTx (buildPacket s.cfg.crc m fbit)) with rxArmed := false }

end Sys2Proof.Machine
end

