-- ==== Sys2Proof/Machine/Scheduler.lean ====
section
/-! DEFINITION. The scheduler: postpone, tick and receiver reset (44_collaborators.md section 4). -/

namespace Sys2Proof.Machine

/-- Whether `postpone(X)` accepts (R282). -/
def postponeAccepted (c : Config) (x : U32) : Bool := decide (x.toNat ≤ c.postponeMax)

/-- `postpone(X)` (R282): the deadline becomes `uptime + X`, modulo 2^32 (R283), or stays. -/
def State.postpone (s : State) (x : U32) : State :=
  if postponeAccepted s.cfg x then { s.logCall (.postpone x true) with deadline := s.uptime + x }
  else s.logCall (.postpone x false)

/-- A transmission is in flight: a radio send (R31, R173), or the ranging transmission, which does not set `tx_busy`
(R287, R357; log 37). -/
def State.transmitting (s : State) : Bool := s.txBusy || decide (s.ml = .ranging)

/-- `rx_reset()` (R285, D50): a deposited packet is discarded and listening re-armed, unless a transmission is in
flight. The request itself is emitted in both cases (R106; log 29). -/
def State.rxReset (s : State) : State :=
  if s.transmitting then s.emit .rxReset
  else { s.emit .rxReset with rxFull := false, rxArmed := true }

/-- The two clocks advance (R283). -/
def State.countTick (s : State) : State := { s with uptime := bump s.uptime, idleTicks := bump s.idleTicks }

/-- After too many idle ticks the receiver is reset (R283, R285). -/
def State.tickIdle (s : State) : State :=
  if s.cfg.rxIdleMax < s.idleTicks.toNat then { s.rxReset with idleTicks := 0 } else s

/-- Once uptime passes the deadline the device reboots (R283, R286). -/
def State.tickDeadline (s : State) : State :=
  if s.deadline.toNat < s.uptime.toNat then s.requestReboot else s

/-- R283, in its order. -/
def execTick (s : State) : Host.Outcome State Fault Refusal := .next s.countTick.tickIdle.tickDeadline

end Sys2Proof.Machine
end

