-- ==== Sys2Proof/Machine/Application.lean ====
section
/-! DEFINITION. The Application's own opcodes (43_match_table.md section 4). In the Bootloader variant each is
unmatched (R236, R237). -/

namespace Sys2Proof.Machine

/-- The header-only ACK of the Application (R235). -/
def appAck : Byte := 0x10

/-- R248 after `cmd_recognized`: no reply, and a reboot is requested. -/
def rebootHandler (s : State) : Host.Outcome State Fault Refusal := .next s.noReply.handlerDone.requestReboot

/-- R248: reboot without an argument. -/
def execReboot (h : Header) (s : State) : Host.Outcome State Fault Refusal :=
  deliverApplication 0x12 h [] rebootHandler s

/-- R249 after `cmd_recognized`: a short argument leaves the default NACK; otherwise the reboot is postponed and
acknowledged, or left as it is with the default NACK. -/
def postponeHandler (pl : List Byte) (s : State) : Host.Outcome State Fault Refusal :=
  if pl.length < 4 then .next (s.raiseEvent (.missingArgument 0x12)).handlerDone
  else
    let x := postponeArgument pl
    if postponeAccepted s.cfg x then .next ((s.postpone x).setReply appAck []).handlerDone
    else .next ((s.postpone x).setReply 0xFF []).handlerDone

/-- R249: reboot with a postpone argument. -/
def execRebootPostpone (h : Header) (pl : List Byte) (s : State) : Host.Outcome State Fault Refusal :=
  deliverApplication 0x12 h pl (postponeHandler pl) s

/-- R250 after `cmd_recognized`: the time, or the default NACK where it was never set. -/
def getTimeHandler (s : State) : Host.Outcome State Fault Refusal :=
  if s.timeSet then replyWith 0x14 (s.timeVal.readBytes 0 s.cfg.timeBytes) s else .next s.handlerDone

/-- R250: get-time. -/
def execGetTime (h : Header) (pl : List Byte) (s : State) : Host.Outcome State Fault Refusal :=
  deliverApplication 0x13 h pl getTimeHandler s

/-- R251 after `cmd_recognized`: the time is stored and acknowledged; a short payload leaves the default NACK. -/
def setTimeHandler (pl : List Byte) (s : State) : Host.Outcome State Fault Refusal :=
  if pl.length < s.cfg.timeBytes then .next (s.raiseEvent (.missingArgument 0x14)).handlerDone
  else
    .next ({ s with timeVal := s.timeVal.writeBytes 0 (pl.take s.cfg.timeBytes), timeSet := true }.setReply
      appAck []).handlerDone

/-- R251: set-time. -/
def execSetTime (h : Header) (pl : List Byte) (s : State) : Host.Outcome State Fault Refusal :=
  deliverApplication 0x14 h pl (setTimeHandler pl) s

/-- R252 after `cmd_recognized`: a snapshot is replied. -/
def getTelemHandler (s : State) : Host.Outcome State Fault Refusal := replyWith 0x18 s.telemetry s.drawTelemetry

/-- R252: get-telem. -/
def execGetTelem (h : Header) (pl : List Byte) (s : State) : Host.Outcome State Fault Refusal :=
  deliverApplication 0x17 h pl getTelemHandler s

/-- R253 after `cmd_recognized`: the stored callsign is replied. -/
def getCallsignHandler (s : State) : Host.Outcome State Fault Refusal :=
  replyWith 0x1B (s.callsign.readBytes 0 s.callsignLen) s

/-- R253: get-callsign. -/
def execGetCallsign (h : Header) (pl : List Byte) (s : State) : Host.Outcome State Fault Refusal :=
  deliverApplication 0x19 h pl getCallsignHandler s

/-- R254 after `cmd_recognized`: the whole payload is stored and acknowledged; one that is too long leaves the
callsign and the default NACK (R311; log 32). -/
def setCallsignHandler (pl : List Byte) (s : State) : Host.Outcome State Fault Refusal :=
  if s.cfg.callsignMax < pl.length then .next (s.raiseEvent (.missingArgument 0x1A)).handlerDone
  else
    .next ({ s with callsign := s.callsign.writeBytes 0 pl, callsignLen := pl.length }.setReply appAck []).handlerDone

/-- R254: set-callsign. -/
def execSetCallsign (h : Header) (pl : List Byte) (s : State) : Host.Outcome State Fault Refusal :=
  deliverApplication 0x1A h pl (setCallsignHandler pl) s

/-- The ranging reply (R255): the reply header with opcode 0x16 and `RANGING_PAYLOAD`. -/
def State.rangingReply (s : State) : State :=
  { s with reply := s.reply.writeBytes 5 (0x16 :: s.cfg.rangingPayload) }

/-- R255 up to `ranging_tx`: `cmd_recognized`, and the ranging reply goes out by the ranging path, which blocks ML
until the transmission ends (R287). -/
def rangingStart (s : State) : Host.Outcome State Fault Refusal :=
  let r := s.recognize.rangingReply
  .next { r.rangingTx (r.reply.readBytes 0 (6 + s.cfg.rangingPayload.length)) s.msgFbit with ml := .ranging }

/-- R255 after `ranging_tx` has returned, with the receiver armed (R287): the normal reply is silenced. -/
def rangingDone (s : State) : Host.Outcome State Fault Refusal :=
  .next ({ s with rxArmed := true } : State).noReply.handlerDone

/-- R255: ranging, in two steps (log 4, log 37). -/
def execRanging (h : Header) (pl : List Byte) (s : State) : Host.Outcome State Fault Refusal :=
  match s.cfg.variant, s.ml with
  | .application, .ranging => rangingDone s
  | _, _ => deliverBlocking .application 0x15 h pl rangingStart s

end Sys2Proof.Machine
end

