-- ==== Sys2Proof/Machine/Flash.lean ====
section
/-! DEFINITION. The flash updater and the signature verifier (44_collaborators.md sections 1 and 2). -/

namespace Sys2Proof.Machine

/-- The first and the last page of the application region (R270). -/
def firstPage (c : Config) : Nat := c.appStart / 128
def lastPage (c : Config) : Nat := c.appEnd / 128

/-- The call of `erase_app()` (R270): ML is blocked until every page is erased (R357). -/
def State.beginErase (s : State) : State := { s.logCall .eraseApp with ml := .erasing (firstPage s.cfg) }

/-- One erase trigger of `erase_app()` (R270), a step into which no producer falls: every byte of page `p`, which is
one of the application region, reads as the erased value. DESIGN CHOICE: an erase never fails, which N19 and I7 leave
open (log 35). -/
def State.erasePage (s : State) (p : Nat) : State :=
  if firstPage s.cfg ≤ p ∧ p ≤ lastPage s.cfg then { s with flash := s.flash.fill (p * 128) 128 s.cfg.erasedByte } else s

/-- The address check of `write_page` (R271), in its order, on integers. -/
def pageCheck (c : Config) (i : Byte) : PageResult :=
  let a := i.toNat * 128
  if a < c.appStart then .errProtected
  else if a + 128 ≤ c.appEnd + 1 then .ok
  else if a + 128 ≤ c.flashSize then .errProtected
  else .errBadAddr

/-- The result of `write_page(i, data)`: the address check, and, where it passes, what the flash answers; a
programming failure is `ErrProtected` (R279, D53; log 15). -/
def State.pageResult (s : State) (i : Byte) : PageResult :=
  match pageCheck s.cfg i with
  | .ok => if s.flashAnswers.headD true then .ok else .errProtected
  | r => r

/-- Whether `write_page(i, data)` reaches the flash, and so uses up one of its answers. -/
def State.answersLeft (s : State) (i : Byte) : List Bool :=
  match pageCheck s.cfg i with
  | .ok => s.flashAnswers.tail
  | _ => s.flashAnswers

/-- `write_page(i, data)` (R271): only the `Ok` path changes flash. -/
def State.writePage (s : State) (i : Byte) (data : List Byte) : State :=
  let r := s.pageResult i
  { s.logCall (.writePage i data r) with
    flash := (match r with
      | .ok => s.flash.writeBytes (i.toNat * 128) data
      | _ => s.flash)
    flashAnswers := s.answersLeft i }

/-- Byte-wise XOR of two blocks. -/
def xorBlock (x y : List Byte) : List Byte := List.zipWith (fun a b => a ^^^ b) x y

/-- `E(K, B)` as the configuration binds it (R274; log 10). -/
def blockCipher (binding : CipherBinding) (key block : List Byte) : List Byte :=
  match binding with
  | .aes => (List.range 16).map (Config.aesByte key block)
  | .toyAdd => List.zipWith (fun x k => x + k) block key

/-- The CBC chain over `n` blocks of 16 bytes from `x` (R274). -/
def cbcChain (binding : CipherBinding) (key : List Byte) : Nat → List Byte → List Byte → List Byte
  | 0, x, _ => x
  | n + 1, x, d => cbcChain binding key n (blockCipher binding key (xorBlock x (d.take 16))) (d.drop 16)

/-- `CBC_MAC(K, D)` (R274): an all-zero initialisation vector, the last block's ciphertext. -/
def cbcMac (binding : CipherBinding) (key d : List Byte) : List Byte :=
  cbcChain binding key (d.length / 16) (List.replicate 16 0) d

/-- The comparison of R275: the OR of the XOR of all byte pairs is zero. -/
def macEqual (t sig : List Byte) : Bool :=
  (List.zipWith (fun a b => a ^^^ b) t sig).foldl (fun acc x => acc ||| x) 0 == 0

/-- The image that is signed: `flash[APP_START .. SIG_OFFSET)` (R273). -/
def State.signedImage (s : State) : List Byte := s.flash.readBytes s.cfg.appStart (s.cfg.sigOffset - s.cfg.appStart)

/-- The stored signature: `flash[SIG_OFFSET .. SIG_OFFSET + 16)` (R273). -/
def State.signature (s : State) : List Byte := s.flash.readBytes s.cfg.sigOffset 16

/-- The key ring, always three keys (R276, R277). -/
def keyRing (c : Config) : List (List Byte) := [c.key0, c.key1, c.key2]

/-- What `verify()` finds for each key, with no early exit (R273, R276). -/
def State.verifyEach (s : State) : List Bool :=
  (keyRing s.cfg).map (fun k => macEqual (cbcMac s.cfg.cipher k s.signedImage) s.signature)

/-- The result of `verify()` (R273): authentic under at least one of the three keys. -/
def State.verifies (s : State) : Bool := s.verifyEach.foldl (fun ok b => ok || b) false

/-- `verify()` as a call: one CBC_MAC evaluation for each key (R276). -/
def State.verify (s : State) : State :=
  { s.logCall (.verify s.verifies) with macEvals := s.macEvals + s.verifyEach.length }

/-- A value of `keepalive` in the width the configuration gives it, which R280 leaves open (log 16). -/
def narrowKeepalive (form : KeepaliveForm) (v : Nat) : Nat :=
  match form with
  | .exact => v
  | .wraps bits => v % 2 ^ bits
  | .saturates max => min v max

end Sys2Proof.Machine
end

