-- ==== Sys2Proof/Machine/Bootloader.lean ====
section
/-! DEFINITION. The Bootloader's own opcodes (43_match_table.md section 3). In the Application variant each is
unmatched (R236, R237). -/

namespace Sys2Proof.Machine

/-- `BL_ACK` and `BL_NACK` (R10, R235). -/
def blAck : Byte := 0x01
def blNack : Byte := 0x0F

/-- The reply payloads of ping and erase, ASCII with no terminator (R239, R240). -/
def pongText : List Byte := [0x70, 0x6F, 0x6E, 0x67]
def erasedText : List Byte := [0x65, 0x72, 0x61, 0x73, 0x65, 0x64]

/-- R239 after `cmd_recognized`: the watchdog is kicked, the keep-alive set, "pong" replied. -/
def pingHandler (s : State) : Host.Outcome State Fault Refusal :=
  .next ({ s.emit .wdtKick with keepalive := s.cfg.keepaliveInit }.setReply blAck pongText).handlerDone

/-- R239: ping. -/
def execPing (h : Header) (pl : List Byte) (s : State) : Host.Outcome State Fault Refusal :=
  deliverBootloader 0x00 h pl pingHandler s

/-- R240 inside `erase_app`, page `p`: the page is erased; after the last page the call returns, "erased" is replied
and `cmd_recognized` asserted, which R240 does last (log 36). -/
def eraseNext (p : Nat) (s : State) : Host.Outcome State Fault Refusal :=
  if p < lastPage s.cfg then .next { s.erasePage p with ml := .erasing (p + 1) }
  else .next ((s.erasePage p).recognize.setReply blAck erasedText).handlerDone

/-- R240: erase. ML is blocked in `erase_app`, a step for each page, and every other step of it is the handler's
next (R357; log 4). -/
def execErase (h : Header) (pl : List Byte) (s : State) : Host.Outcome State Fault Refusal :=
  match s.cfg.variant, s.ml with
  | .bootloader, .erasing p => eraseNext p s
  | _, _ => deliverBlocking .bootloader 0x0C h pl (fun r => .next r.beginErase) s

/-- R242: after page 255 is written, the image is verified; if it is authentic the keep-alive is extended, else
`AuthFailed` is raised and nothing is reported. -/
def State.page255Tail (s : State) : State :=
  if s.verifies then
    { s.verify with keepalive := narrowKeepalive s.cfg.keepaliveForm (s.keepalive + s.cfg.keepaliveExtend) }
  else s.verify.raiseEvent .authFailed

/-- R242: the tail runs for page 255 only. -/
def State.pageTail (s : State) (i : Byte) : State := if i = 0xFF then s.page255Tail else s

/-- R241 after `write_page` has answered: the page is acknowledged with its index, after the tail of R242, or refused
with a header-only `BL_NACK`. -/
def writePageDone (pl : List Byte) (s : State) : Host.Outcome State Fault Refusal :=
  let i := pageIndex pl
  let w := s.writePage i (pageData pl)
  match s.pageResult i with
  | .ok => .next ((w.pageTail i).setReply blAck [i]).handlerDone
  | r => .next ((w.raiseEvent (.flashRejected i r)).setReply blNack []).handlerDone

/-- R241 up to the flash operation: `cmd_recognized` first; a short payload is a missing argument; a page outside the
application region is refused at once (R271); for any other ML is blocked in the programming (R357). -/
def writePageStart (pl : List Byte) (s : State) : Host.Outcome State Fault Refusal :=
  if pl.length < 129 then .next ((s.raiseEvent (.missingArgument 0x02)).setReply blNack []).handlerDone
  else
    match pageCheck s.cfg (pageIndex pl) with
    | .ok => .next { s with ml := .programming }
    | _ => writePageDone pl s

/-- R241: write-page, in two steps where the flash is programmed (R357; log 4). -/
def execWritePage (h : Header) (pl : List Byte) (s : State) : Host.Outcome State Fault Refusal :=
  match s.cfg.variant, s.ml with
  | .bootloader, .programming => writePageDone pl s
  | _, _ => deliverBlocking .bootloader 0x02 h pl (fun r => writePageStart pl r.recognize) s

end Sys2Proof.Machine
end

