-- ==== Sys2Proof/Machine/Common.lean ====
section
/-! DEFINITION. The opcodes both tables hold, the reply codes neither holds, and the unassigned opcodes
(43_match_table.md sections 1, 2 and the reply codes of sections 3 and 4). -/

namespace Sys2Proof.Machine

/-- R232: an ack addressed here; R231. -/
def execAck (h : Header) (_pl : List Byte) (s : State) : Host.Outcome State Fault Refusal := commonInbound h s

/-- R234: ascii/log; the text is not examined; R231. -/
def execAscii (h : Header) (_pl : List Byte) (s : State) : Host.Outcome State Fault Refusal := commonInbound h s

/-- R233: a nack addressed here; R231. -/
def execNack (h : Header) (_pl : List Byte) (s : State) : Host.Outcome State Fault Refusal := commonInbound h s

/-- R243: bootloader-ack inbound, a reply code with no entry. -/
def execBootloaderAck (h : Header) (pl : List Byte) (s : State) : Host.Outcome State Fault Refusal :=
  deliverUnmatched 0x01 h pl s

/-- R244: bootloader-nack inbound, a reply code with no entry. -/
def execBootloaderNack (h : Header) (pl : List Byte) (s : State) : Host.Outcome State Fault Refusal :=
  deliverUnmatched 0x0F h pl s

/-- R245: ranging-ack inbound, a reply code with no entry. -/
def execRangingAck (h : Header) (pl : List Byte) (s : State) : Host.Outcome State Fault Refusal :=
  deliverUnmatched 0x16 h pl s

/-- R246: telem inbound, a reply code with no entry. -/
def execTelem (h : Header) (pl : List Byte) (s : State) : Host.Outcome State Fault Refusal :=
  deliverUnmatched 0x18 h pl s

/-- R247: callsign inbound, a reply code with no entry. -/
def execCallsign (h : Header) (pl : List Byte) (s : State) : Host.Outcome State Fault Refusal :=
  deliverUnmatched 0x1B h pl s

/-- R237: an opcode R101 does not assign. -/
def execUnassigned (op : Byte) (h : Header) (pl : List Byte) (s : State) : Host.Outcome State Fault Refusal :=
  deliverUnmatched op h pl s

end Sys2Proof.Machine
end

