-- ==== Sys2Proof/Machine/Reset.lean ====
section
/-! DEFINITION. Reset (R340 to R342). -/

namespace Sys2Proof.Machine

/-- R341, R342: every element takes its reset value; the configuration and the flash survive, and so do the
model's own record of what was observed, what is still to come and what the flash will answer (log 19). -/
def State.resetBlock (s : State) : State :=
  { State.atReset s.cfg with
    flash := s.flash, stim := s.stim, outs := s.outs, events := s.events, calls := s.calls,
    macEvals := s.macEvals, draws := s.draws, flashAnswers := s.flashAnswers }

/-- The event a cause is recorded by: the watchdog's (R300 code 14, R314; log 18). The cause is not readable by
the block (R340). -/
def State.recordCause (s : State) (cause : ResetCause) : State :=
  match cause with
  | .watchdog => s.raiseEvent .watchdogReset
  | .powerOn | .rebootReq | .rstInput => s

/-- R340: every cause has the same effect on the block. -/
def execRst (cause : ResetCause) (s : State) : Host.Outcome State Fault Refusal := .next (s.recordCause cause).resetBlock

end Sys2Proof.Machine
end

