-- ==== Sys2Proof/Machine/Serial.lean ====
section
/-! DEFINITION. The serial frame decoder, poll and the serial send (40_serial_framer.md). A byte's row is chosen by the
decoder's state (R130); a row applied in another state does nothing (log 25). -/

namespace Sys2Proof.Machine

/-- The two markers (R10, R90). -/
def marker0 : Byte := 0x22
def marker1 : Byte := 0x69

/-- R131: 0x22 advances, any other byte is discarded. -/
def execSerRxWaitStart0 (p : Port) (b : Byte) (s : State) : Host.Outcome State Fault Refusal :=
  let q := s.port p
  match q.fdState with
  | .waitStart0 => .next (s.setPort p { q with fdState := if b = marker0 then .waitStart1 else .waitStart0 })
  | _ => .next s

/-- R132: 0x69 advances, 0x22 stays, any other byte stays and raises `FrameDesync`. -/
def execSerRxWaitStart1 (p : Port) (b : Byte) (s : State) : Host.Outcome State Fault Refusal :=
  let q := s.port p
  match q.fdState with
  | .waitStart1 =>
    if b = marker1 then .next (s.setPort p { q with fdState := .waitLength })
    else if b = marker0 then .next s
    else .next (s.raiseEvent (.frameDesync p b))
  | _ => .next s

/-- R133: a length out of range sends the decoder to `WaitStart1`, not `WaitStart0`. -/
def execSerRxWaitLengthBad (p : Port) (b : Byte) (s : State) : Host.Outcome State Fault Refusal :=
  let q := s.port p
  match q.fdState with
  | .waitLength =>
    if frameLengthOk b then .next s
    else .next ((s.setPort p { q with fdState := .waitStart1 }).raiseEvent (.badLength p b))
  | _ => .next s

/-- R134: no free slot; the frame is dropped before accumulation. -/
def execSerRxWaitLengthNofree (p : Port) (b : Byte) (s : State) : Host.Outcome State Fault Refusal :=
  let q := s.port p
  match q.fdState with
  | .waitLength =>
    if frameLengthOk b && !q.hasFree then
      .next ((s.setPort p { q with fdState := .waitStart0 }).raiseEvent (.noFreeSlot p b))
    else .next s
  | _ => .next s

/-- R135: the lowest free slot is selected. -/
def execSerRxWaitLengthOk (p : Port) (b : Byte) (s : State) : Host.Outcome State Fault Refusal :=
  let q := s.port p
  match q.fdState with
  | .waitLength =>
    match q.firstSlot .free with
    | some k =>
      if frameLengthOk b then
        .next (s.setPort p
          { q.updateSlot k (fun sl => { sl with status := .filling }) with
            fdSlot := k, fdLen := b, fdOff := 0, fdState := .receiveData })
      else .next s
    | none => .next s
  | _ => .next s

/-- The port after a payload byte that does not complete the frame (R136). -/
def SerialPort.storeByte (q : SerialPort) (b : Byte) : SerialPort :=
  { q.updateSlot q.fdSlot (fun sl => { sl with data := sl.data.writeBytes q.fdOff.toNat [b] }) with
    fdOff := q.fdOff + 1 }

/-- The port after the payload byte that completes the frame (R136). -/
def SerialPort.completeFrame (q : SerialPort) (b : Byte) : SerialPort :=
  { (q.storeByte b).updateSlot q.fdSlot (fun sl => { sl with len := q.fdLen, status := .ready }) with
    rxFrames := bump q.rxFrames, fdState := .waitStart0 }

/-- R136: the byte is appended whatever its value; the last one makes the slot Ready. -/
def execSerRxReceiveData (p : Port) (b : Byte) (s : State) : Host.Outcome State Fault Refusal :=
  let q := s.port p
  match q.fdState with
  | .receiveData =>
    if q.fdOff.toNat + 1 = q.fdLen.toNat then .next (s.setPort p (q.completeFrame b))
    else .next (s.setPort p (q.storeByte b))
  | _ => .next s

/-- The frame in slot `k` (R138). -/
def SerialPort.frameOf (q : SerialPort) (k : Nat) : List Byte :=
  match q.slots[k]? with
  | some sl => sl.data.readBytes 0 sl.len.toNat
  | none => []

/-- R138, R139: ML, with no service in progress, takes the lowest Ready slot's frame as its Message and frees the
slot, in one step; with none Ready, or while a service is in progress, it does nothing (log 6). -/
def execPoll (p : Port) (s : State) : Host.Outcome State Fault Refusal :=
  match s.ml with
  | .idle =>
    let q := s.port p
    match q.firstSlot .ready with
    | none => .next s
    | some k =>
      .next ((s.setPort p (q.updateSlot k (fun sl => { sl with status := .free }))).takeMessage
        (q.frameOf k) (transportOf p) false)
  | _ => .next s

/-- The serial frame that carries `m` (R90). -/
def serialFrame (m : List Byte) : List Byte := [marker0, marker1, BitVec.ofNat 8 m.length] ++ m

/-- R140, R141: one frame is emitted, or a Message of no legal frame length is dropped; the service ends. -/
def execSerSend (p : Port) (m : List Byte) (s : State) : Host.Outcome State Fault Refusal :=
  if m.length < 1 ∨ 251 < m.length then .next (s.raiseEvent (.serialTxRange p m.length)).endService
  else .next (s.emit (.serTx p (serialFrame m))).endService

end Sys2Proof.Machine
end

