-- ==== Sys2Proof/Machine/Dispatch.lean ====
section
/-! DEFINITION. The meaning of every row of spec/opcode_table.json. -/

namespace Sys2Proof.Machine

def exec (i : Instr) (s : State) : Host.Outcome State Fault Refusal :=
  match i with
  | .ping h pl => Sys2Proof.Machine.execPing h pl s
  | .bootloaderAck h pl => Sys2Proof.Machine.execBootloaderAck h pl s
  | .writePage h pl => Sys2Proof.Machine.execWritePage h pl s
  | .erase h pl => Sys2Proof.Machine.execErase h pl s
  | .bootloaderNack h pl => Sys2Proof.Machine.execBootloaderNack h pl s
  | .ack h pl => Sys2Proof.Machine.execAck h pl s
  | .ascii h pl => Sys2Proof.Machine.execAscii h pl s
  | .reboot h => Sys2Proof.Machine.execReboot h s
  | .rebootPostpone h pl => Sys2Proof.Machine.execRebootPostpone h pl s
  | .getTime h pl => Sys2Proof.Machine.execGetTime h pl s
  | .setTime h pl => Sys2Proof.Machine.execSetTime h pl s
  | .ranging h pl => Sys2Proof.Machine.execRanging h pl s
  | .rangingAck h pl => Sys2Proof.Machine.execRangingAck h pl s
  | .getTelem h pl => Sys2Proof.Machine.execGetTelem h pl s
  | .telem h pl => Sys2Proof.Machine.execTelem h pl s
  | .getCallsign h pl => Sys2Proof.Machine.execGetCallsign h pl s
  | .setCallsign h pl => Sys2Proof.Machine.execSetCallsign h pl s
  | .callsign h pl => Sys2Proof.Machine.execCallsign h pl s
  | .nack h pl => Sys2Proof.Machine.execNack h pl s
  | .unassigned op h pl => Sys2Proof.Machine.execUnassigned op h pl s
  | .serRxWaitStart0 p b => Sys2Proof.Machine.execSerRxWaitStart0 p b s
  | .serRxWaitStart1 p b => Sys2Proof.Machine.execSerRxWaitStart1 p b s
  | .serRxWaitLengthBad p b => Sys2Proof.Machine.execSerRxWaitLengthBad p b s
  | .serRxWaitLengthNofree p b => Sys2Proof.Machine.execSerRxWaitLengthNofree p b s
  | .serRxWaitLengthOk p b => Sys2Proof.Machine.execSerRxWaitLengthOk p b s
  | .serRxReceiveData p b => Sys2Proof.Machine.execSerRxReceiveData p b s
  | .poll p => Sys2Proof.Machine.execPoll p s
  | .serSend p m => Sys2Proof.Machine.execSerSend p m s
  | .rfRx pkt => Sys2Proof.Machine.execRfRx pkt s
  | .mlRadio => Sys2Proof.Machine.execMlRadio s
  | .radioSend m fbit => Sys2Proof.Machine.execRadioSend m fbit s
  | .rfTxDone => Sys2Proof.Machine.execRfTxDone s
  | .dispatch => Sys2Proof.Machine.execDispatch s
  | .tick => Sys2Proof.Machine.execTick s
  | .rst cause => Sys2Proof.Machine.execRst cause s

end Sys2Proof.Machine
end

