-- ==== Sys2Proof/Machine/Fetch.lean ====
section
/-! DEFINITION. What the next step is presented with (R8, R9, R317; log 3, log 4). The block has no program counter;
its sequencing is the reset line, the stimulus queue and ML's phase. -/

namespace Sys2Proof.Machine

/-- The instruction of ML's next step in the service in progress. A handler that is blocked in a collaborator goes on
with its own Message (R357). None while ML is idle or blocked in a radio send (R173), or where its step is the
drain, which is no row of the table. -/
def State.mlUnit (s : State) : Option WireUnit :=
  match s.ml with
  | .idle => none
  | .txWait => none
  | .drain => none
  | .dispatch => some ⟨.mlDispatch, []⟩
  | .deliver | .erasing _ | .programming | .ranging => some ⟨.message, s.msgBytes⟩
  | .reply => some s.replyUnit
  | .forward => some s.forwardUnit

/-- Whether ML has a step left in the service in progress. -/
def State.mlBusy (s : State) : Bool := s.mlUnit.isSome || decide (s.ml = .drain)

/-- A turn for a new service: a service in progress goes on first (R139); else the service is presented. -/
def State.serviceUnit (s : State) (u : WireUnit) : Option WireUnit := if s.mlBusy then s.mlUnit else some u

/-- The unit a stimulus presents. -/
def State.stimUnit (s : State) : Stim → Option WireUnit
  | .serRx p b => some ⟨.serialIn p (s.port p).fdState (s.port p).hasFree, [b]⟩
  | .rfRx pkt => some ⟨.radioIn, pkt⟩
  | .txDone => some ⟨.txDone, []⟩
  | .tick => some ⟨.tick, []⟩
  | .rst cause => some ⟨.rst cause, []⟩
  | .poll p => s.serviceUnit ⟨.mlPoll p, []⟩
  | .radio => s.serviceUnit ⟨.mlRadio, []⟩
  | .ml => s.mlUnit
  | .controller _ => none

/-- The unit the next step runs: the reset a `reboot_req` asked for (R286); else what the first stimulus presents;
with no stimulus, ML goes on. None: nothing is left to do. -/
def State.fetch (s : State) : Option WireUnit :=
  if s.rebootLine then some ⟨.rst .rebootReq, []⟩
  else
    match s.stim with
    | [] => s.mlUnit
    | e :: _ => s.stimUnit e

/-- Whether a stimulus has happened once the step is taken: a turn for a new service waits for the service in
progress (R139). -/
def State.consumes (s : State) : Stim → Bool
  | .poll _ | .radio => !s.mlBusy
  | _ => true

/-- The bootloader controller's write of `keepalive` (R39; log 16). -/
def State.controllerWrites (s : State) : Stim → State
  | .controller v => { s with keepalive := v }
  | _ => s

/-- The strobe of the step before is over (R35; log 20). -/
def State.dropStrobe (s : State) : State := { s with cmdRecognized := false }

/-- The state a step's instruction runs in: the stimulus is taken off the queue and the strobe dropped. -/
def State.advance (s : State) : State :=
  if s.rebootLine then s.dropStrobe
  else
    match s.stim with
    | [] => s.dropStrobe
    | e :: rest => if s.consumes e then { s.controllerWrites e with stim := rest }.dropStrobe else s.dropStrobe

/-- Whether the step is a turn of ML: one that the queue gives it, or any once the queue is empty. -/
def State.mlTurn (s : State) : Bool :=
  match s.stim with
  | [] | .ml :: _ | .poll _ :: _ | .radio :: _ => true
  | _ => false

/-- ML's own step after the dispatch of a radio Message: the receive slot is drained, listening re-armed, and the
service over (R162, R167; log 5). -/
def State.mlDrain (s : State) : State :=
  match s.ml with
  | .drain => { s.drain with ml := .idle }
  | _ => s

/-- A step that runs no instruction: on a turn of ML the drain, where it is due; else the stimulus just passes. -/
def State.pass (s : State) : State := if s.mlTurn then s.advance.mlDrain else s.advance

end Sys2Proof.Machine
end

