-- ==== Sys2Proof/Machine/Step.lean ====
section
/-! DEFINITION. One step of the machine (R8, R69): one agent takes one atomic step. -/

namespace Sys2Proof.Machine

/-- One step: a configuration that is none of the block's is refused (I10); else the next unit is decoded and its
instruction run; where there is none, the step is the one of `State.pass`. -/
def step (s : State) : Host.Outcome State Fault Refusal :=
  if configLegal s.cfg then
    match s.fetch with
    | none => .next s.pass
    | some u =>
      match decode u with
      | .ok i => exec i s.advance
      | .error r => .refused (.undecodable r)
  else .refused .illegalConfig

/-- `s` with a word of spec/opcode_table.json where the next step finds its instruction: the Message is in `msg`,
addressed and dispatched (ML's next step is its handler), and ML has the next turn (log 2). -/
def State.withFetchWord (s : State) (nbits w : Nat) : State :=
  { s with
    msg := s.msg.writeBytes 0 (tableMessage nbits w), msgLen := BitVec.ofNat 8 (tableMessage nbits w).length,
    ml := .deliver, rebootLine := false, stim := .ml :: s.stim }

end Sys2Proof.Machine
end

