-- ==== Sys2Proof/Safety.lean ====
section
/-! DEFINITION. The terms the claims are stated in: what a reply holds, feeding bytes to a decoder, the invariant of the
machine, and what its surroundings must keep for every step to go on. -/

namespace Sys2Proof.Machine

/-! ### Replies -/

/-- The first five bytes of every reply (R205): own device-id, the request's seqnum, `SUBSYS_REPLY`. -/
def replyHeader (c : Config) (h : Header) : List Byte := le16 c.selfId ++ le16 h.seqnum ++ [c.subsysReply]

/-- `t` holds a reply to a request with header `h`: opcode `op`, payload `pl`; the bytes of the buffer past it are
those of `s`. -/
def RepliesWith (s t : State) (h : Header) (op : Byte) (pl : List Byte) : Prop :=
  t.replyBytes = replyHeader s.cfg h ++ op :: pl ∧ t.replyLen.toNat = 6 + pl.length ∧
    ∀ k, 6 + pl.length ≤ k → t.reply.byteAt k = s.reply.byteAt k

/-- `t` is `s` after a handler that left the reply `op`, `pl`: nothing differs but the reply, ML's phase and what
the update `f` says. -/
def HandledWith (s t : State) (h : Header) (op : Byte) (pl : List Byte) (f : State → State) : Prop :=
  RepliesWith s t h op pl ∧ t = { f s with reply := t.reply, replyLen := t.replyLen, ml := .reply }

/-- What is left of the service in progress when its dispatch is over, said for the claims: after a radio Message the
drain of its slot, else nothing (R162, R167). -/
def serviceLeft (s : State) : MlPhase := if s.ml = .idle then .idle else if s.msgSrc = .r then .drain else .idle

/-- `t` is `s` after a handler that left no reply: the dispatch is over (R207, R167); nothing differs but the reply
buffer's header bytes, ML's phase and what the update `f` says. -/
def HandledSilently (s t : State) (h : Header) (f : State → State) : Prop :=
  t.replyLen = 0 ∧ t.reply = (s.replyInit h).reply ∧
    t = { f s with reply := t.reply, replyLen := 0, ml := serviceLeft s }

/-- The strobe `cmd_recognized` and what it does (R35, R238, R280), as an update of the fields it names. -/
def withRecognized (s : State) : State :=
  { s with
    cmdRecognized := true, outs := s.outs ++ [.cmdRecognized],
    keepalive := if s.cfg.variant = .bootloader then s.cfg.keepaliveInit else s.keepalive }

/-- The opcodes with an entry in the match table of a variant (R236). -/
def hasEntry : Variant → Byte → Bool
  | .bootloader, op => [0x00, 0x02, 0x0C, 0x10, 0x11, 0xFF].contains op
  | .application, op => [0x10, 0x11, 0xFF, 0x12, 0x13, 0x14, 0x15, 0x17, 0x19, 0x1A].contains op

/-- ML is inside a handler: it runs next, or it is blocked in a collaborator (R204, R357). -/
def handling : MlPhase → Bool
  | .deliver | .erasing _ | .programming | .ranging => true
  | _ => false

/-- The step is a turn of ML that goes on with the service in progress, and `left` is the queue after it: with an empty
queue, on a turn given to ML, which is taken off, and on a turn for a new service, which waits (R139; log 3). -/
def turnOfMl (s : State) (left : List Stim) : Prop :=
  s.stim = .ml :: left ∨ (s.stim = left ∧ (left = [] ∨ ∃ rest, left = .radio :: rest ∨ ∃ p, left = .poll p :: rest))

/-- `n` steps of instruction `i` with no step between them: a handler that blocks, run on (R357). -/
def execTimes (i : Instr) : Nat → State → Option State
  | 0, s => some s
  | n + 1, s =>
    match exec i s with
    | .next t => execTimes i n t
    | _ => none

/-! ### Bytes on a serial line -/

/-- Port `p` receives byte `b`: the row its decoder's state selects is run (R130). -/
def feedByte (p : Port) (b : Byte) (s : State) : Option State :=
  match exec (decodeSerialByte p (s.port p).fdState (s.port p).hasFree b) s with
  | .next t => some t
  | _ => none

/-- Port `p` receives the bytes `bs`, in order (R130). -/
def feedBytes (p : Port) : List Byte → State → Option State
  | [], s => some s
  | b :: bs, s => (feedByte p b s).bind (feedBytes p bs)

/-! ### The invariant -/

/-- A slot: its data in canonical form, and a legal length once it is Ready (R26). -/
def slotOk (sl : Slot) : Prop :=
  sl.data.wf ∧ (sl.status = .ready → 1 ≤ sl.len.toNat ∧ sl.len.toNat ≤ 251)

/-- A serial port with `n` slots (R21 to R26): each slot is sound; in `ReceiveData` the length is 1..251, the
offset below it and the selected slot Filling; a slot is Filling only there. -/
def portOk (n : Nat) (q : SerialPort) : Prop :=
  q.slots.length = n ∧ (∀ sl ∈ q.slots, slotOk sl) ∧
    (q.fdState = .receiveData →
      1 ≤ q.fdLen.toNat ∧ q.fdLen.toNat ≤ 251 ∧ q.fdOff.toNat < q.fdLen.toNat ∧
        ∃ sl, q.slots[q.fdSlot]? = some sl ∧ sl.status = .filling) ∧
    ∀ k sl, q.slots[k]? = some sl → sl.status = .filling → q.fdState = .receiveData ∧ k = q.fdSlot

/-- Every buffer and the flash are in canonical form. -/
def buffersOk (s : State) : Prop :=
  s.rxBuf.wf ∧ s.txBuf.wf ∧ s.msg.wf ∧ s.reply.wf ∧ s.callsign.wf ∧ s.timeVal.wf ∧ s.flash.wf

/-- What ML's phase promises: a Message or a reply of a length its buffer has (R33, R34, R206), all the while its
handler runs, and a transmission in flight exactly while ML waits for it; during it, and during a ranging transmission, the
receiver is disarmed (R173, R357). -/
def phaseOk (s : State) : Prop :=
  (s.ml = .dispatch → 1 ≤ s.msgLen.toNat ∧ s.msgLen.toNat ≤ 253) ∧
    (handling s.ml = true ∨ s.ml = .forward → 6 ≤ s.msgLen.toNat ∧ s.msgLen.toNat ≤ 253) ∧
    (s.ml = .reply → 6 ≤ s.replyLen.toNat ∧ s.replyLen.toNat ≤ 253) ∧
    (s.txBusy = true ↔ s.ml = .txWait) ∧ (s.txBusy = true ∨ s.ml = .ranging → s.rxArmed = false)

/-- What the handlers keep (R37, R38): a callsign within its bound, a time only of a size a payload can carry. -/
def handlersOk (s : State) : Prop :=
  s.callsignLen ≤ 247 ∧ s.callsignLen ≤ s.cfg.callsignMax ∧ (s.timeSet = true → s.cfg.timeBytes ≤ 247)

/-- The invariant of the machine. -/
def MachineInv (s : State) : Prop :=
  configLegal s.cfg = true ∧ portOk s.cfg.nSlots0 s.port0 ∧ portOk s.cfg.nSlots1 s.port1 ∧ buffersOk s ∧ phaseOk s ∧
    handlersOk s

/-! ### What the surroundings keep -/

/-- `EXT` answers payloads of 0..247 bytes (R256). -/
def extContract (c : Config) : Prop :=
  ∀ op m rop rpl, extAnswer c.ext op m = some (.reply rop rpl) → rpl.length ≤ 247

/-- The next stimulus is one R105 and R178 allow: the PHY delivers exactly the bytes its length byte announces,
and reports completion only of a transmission it was given. -/
def stimulusAllowed (s : State) : Prop :=
  match s.stim with
  | .rfRx pkt :: _ => (Instr.rfRx pkt).wf = true
  | .txDone :: _ => s.txBusy = true
  | _ => True

/-- A run is safe where no step of it stops. -/
def Safe (s : State) : Prop := ∃ t, step s = .next t

end Sys2Proof.Machine
end

