-- ==== Sys2Proof/Certificates/Slice0/Obligations.lean ====
section
/-! DEFINITION. The statements for the provers, in the order of OBLIGATIONS.json. -/

open Sys2Proof Sys2Proof.Machine

/-! ### Encoding -/

/-- Every well-formed instruction is what the decoder reads from its own encoding (R93, R97, R101, R105, R249). All
35 rows, every operand at every value the encoding admits. The carrier form of the unit is the model's (log 1). -/
def Obligations.DecodeOfEncodeIsTheInstruction : Prop :=
  ∀ i : Instr, i.wf = true → decode (encode i) = .ok i

/-- The decoder never answers an ill-formed instruction: each of its answers passes every check of `Instr.wf`. -/
def Obligations.DecodedInstructionsAreWellFormed : Prop :=
  ∀ (u : WireUnit) (i : Instr), decode u = .ok i → i.wf = true

/-- No bit of a Message is dropped: the bytes an instruction was decoded from are its encoding (R93). -/
def Obligations.EncodeOfDecodedMessageIsTheMessage : Prop :=
  ∀ (bs : List Byte) (i : Instr), decode ⟨.message, bs⟩ = .ok i → encode i = ⟨.message, bs⟩

/-- Exactly the byte strings of 6 to 253 bytes are Messages (R93, R94): those decode, the others are rejected by
name. That a decoder rejects them, and the names, are the model's (log 23): the spec has no such decoder, and drops a
short Message at dispatch (R201). -/
def Obligations.MessagesDecodeExactlyAtLegalLengths : Prop :=
  ∀ bs : List Byte,
    (6 ≤ bs.length ∧ bs.length ≤ 253 → ∃ i, decode ⟨.message, bs⟩ = .ok i) ∧
      (bs.length < 6 → decode ⟨.message, bs⟩ = .error .messageShort) ∧
      (253 < bs.length → decode ⟨.message, bs⟩ = .error .messageLength)

/-- Words written out from the spec's encodings: the header of the ping of vector E8.7, a write-page header, the
postpone of vector A3, every assigned opcode and an unassigned one (R101), the three parts of a length byte, and the
packet of vector C1. -/
def Obligations.WrittenWordsDecode : Prop :=
  decode ⟨.message, [0xFF, 0xFF, 0x07, 0x00, 0x01, 0x00]⟩ = .ok (.ping ⟨0xFFFF, 0x0007, 0x01⟩ []) ∧
    decode ⟨.message, [0x34, 0x12, 0x21, 0x00, 0x01, 0x02, 0x08]⟩ = .ok (.writePage ⟨0x1234, 0x0021, 0x01⟩ [0x08]) ∧
    decode ⟨.message, [0x34, 0x12, 0x21, 0x00, 0x01, 0x12]⟩ = .ok (.reboot ⟨0x1234, 0x0021, 0x01⟩) ∧
    decode ⟨.message, [0x34, 0x12, 0x21, 0x00, 0x01, 0x12, 0x0A, 0x00, 0x00, 0x00]⟩ =
      .ok (.rebootPostpone ⟨0x1234, 0x0021, 0x01⟩ [0x0A, 0x00, 0x00, 0x00]) ∧
    decode ⟨.message, [0x34, 0x12, 0x21, 0x00, 0x01, 0x00]⟩ = .ok (.ping ⟨0x1234, 0x0021, 0x01⟩ []) ∧
    decode ⟨.message, [0x34, 0x12, 0x21, 0x00, 0x01, 0x01]⟩ = .ok (.bootloaderAck ⟨0x1234, 0x0021, 0x01⟩ []) ∧
    decode ⟨.message, [0x34, 0x12, 0x21, 0x00, 0x01, 0x02]⟩ = .ok (.writePage ⟨0x1234, 0x0021, 0x01⟩ []) ∧
    decode ⟨.message, [0x34, 0x12, 0x21, 0x00, 0x01, 0x0C]⟩ = .ok (.erase ⟨0x1234, 0x0021, 0x01⟩ []) ∧
    decode ⟨.message, [0x34, 0x12, 0x21, 0x00, 0x01, 0x0F]⟩ = .ok (.bootloaderNack ⟨0x1234, 0x0021, 0x01⟩ []) ∧
    decode ⟨.message, [0x34, 0x12, 0x21, 0x00, 0x01, 0x10]⟩ = .ok (.ack ⟨0x1234, 0x0021, 0x01⟩ []) ∧
    decode ⟨.message, [0x34, 0x12, 0x21, 0x00, 0x01, 0x11]⟩ = .ok (.ascii ⟨0x1234, 0x0021, 0x01⟩ []) ∧
    decode ⟨.message, [0x34, 0x12, 0x21, 0x00, 0x01, 0x13]⟩ = .ok (.getTime ⟨0x1234, 0x0021, 0x01⟩ []) ∧
    decode ⟨.message, [0x34, 0x12, 0x21, 0x00, 0x01, 0x14]⟩ = .ok (.setTime ⟨0x1234, 0x0021, 0x01⟩ []) ∧
    decode ⟨.message, [0x34, 0x12, 0x21, 0x00, 0x01, 0x15]⟩ = .ok (.ranging ⟨0x1234, 0x0021, 0x01⟩ []) ∧
    decode ⟨.message, [0x34, 0x12, 0x21, 0x00, 0x01, 0x16]⟩ = .ok (.rangingAck ⟨0x1234, 0x0021, 0x01⟩ []) ∧
    decode ⟨.message, [0x34, 0x12, 0x21, 0x00, 0x01, 0x17]⟩ = .ok (.getTelem ⟨0x1234, 0x0021, 0x01⟩ []) ∧
    decode ⟨.message, [0x34, 0x12, 0x21, 0x00, 0x01, 0x18]⟩ = .ok (.telem ⟨0x1234, 0x0021, 0x01⟩ []) ∧
    decode ⟨.message, [0x34, 0x12, 0x21, 0x00, 0x01, 0x19]⟩ = .ok (.getCallsign ⟨0x1234, 0x0021, 0x01⟩ []) ∧
    decode ⟨.message, [0x34, 0x12, 0x21, 0x00, 0x01, 0x1A]⟩ = .ok (.setCallsign ⟨0x1234, 0x0021, 0x01⟩ []) ∧
    decode ⟨.message, [0x34, 0x12, 0x21, 0x00, 0x01, 0x1B]⟩ = .ok (.callsign ⟨0x1234, 0x0021, 0x01⟩ []) ∧
    decode ⟨.message, [0x34, 0x12, 0x21, 0x00, 0x01, 0xFF]⟩ = .ok (.nack ⟨0x1234, 0x0021, 0x01⟩ []) ∧
    decode ⟨.message, [0x34, 0x12, 0x21, 0x00, 0x01, 0x42]⟩ = .ok (.unassigned 0x42 ⟨0x1234, 0x0021, 0x01⟩ []) ∧
    decode ⟨.serialIn .p0 .waitLength true, [0xFC]⟩ = .ok (.serRxWaitLengthBad .p0 0xFC) ∧
    decode ⟨.serialIn .p0 .waitLength true, [0x22]⟩ = .ok (.serRxWaitLengthOk .p0 0x22) ∧
    decode ⟨.serialIn .p1 .waitLength false, [0xFB]⟩ = .ok (.serRxWaitLengthNofree .p1 0xFB) ∧
    decode ⟨.radioIn, [0x08, 0, 0, 0, 0, 0, 0, 0, 0]⟩ = .ok (.rfRx [0x08, 0, 0, 0, 0, 0, 0, 0, 0])

/-! ### Steps and reset -/

/-- A step runs the decoded instruction. Around it the step only takes the stimulus off the queue, unless it waits
for a service in progress, and drops the strobe of the step before (log 20). Which instruction that is: the reset
that was requested (R286; log 17); for a stimulus, its own row, a received byte that of the decoder's state (R130),
a turn for a service that of the service where ML is idle (R139, R162); and on any other turn of ML the step of
the service in progress, which is the dispatch of the Message in `msg` (R200), the handler of its opcode, also while
that is blocked (R204, R230, R357), or the drain (R167). The queue and ML's phases are the model's (log 3, log 4,
log 5), and so is the controller's write of `keepalive` (log 16). -/
def Obligations.StepRunsTheDecodedInstruction : Prop :=
  ∀ s : State, configLegal s.cfg = true →
    (∀ u i, s.fetch = some u → decode u = .ok i →
      step s = exec i s.advance ∧ s.advance = { s with cmdRecognized := false, stim := s.advance.stim } ∧
        (s.advance.stim = s.stim ∨ ∃ e, s.stim = e :: s.advance.stim)) ∧
    (s.rebootLine = true → step s = exec (.rst .rebootReq) { s with cmdRecognized := false }) ∧
    (s.rebootLine = false → ∀ rest,
      (∀ p b, s.stim = .serRx p b :: rest →
        step s = exec (decodeSerialByte p (s.port p).fdState (s.port p).hasFree b)
          { s with stim := rest, cmdRecognized := false }) ∧
      (∀ pkt, s.stim = .rfRx pkt :: rest → (Instr.rfRx pkt).wf = true →
        step s = exec (.rfRx pkt) { s with stim := rest, cmdRecognized := false }) ∧
      (s.stim = .txDone :: rest → step s = exec .rfTxDone { s with stim := rest, cmdRecognized := false }) ∧
      (s.stim = .tick :: rest → step s = exec .tick { s with stim := rest, cmdRecognized := false }) ∧
      (∀ c, s.stim = .rst c :: rest → step s = exec (.rst c) { s with stim := rest, cmdRecognized := false }) ∧
      (∀ v, s.stim = .controller v :: rest →
        step s = .next { s with keepalive := v, stim := rest, cmdRecognized := false }) ∧
      (∀ p, s.stim = .poll p :: rest → s.ml = .idle →
        step s = exec (.poll p) { s with stim := rest, cmdRecognized := false }) ∧
      (s.stim = .radio :: rest → s.ml = .idle →
        step s = exec .mlRadio { s with stim := rest, cmdRecognized := false })) ∧
    ∀ left, s.rebootLine = false → turnOfMl s left →
      (s.ml = .dispatch → step s = exec .dispatch { s with stim := left, cmdRecognized := false }) ∧
      (handling s.ml = true → 6 ≤ s.msgLen.toNat → s.msgLen.toNat ≤ 253 →
        step s = exec
          (instrOfOpcode (s.msg.byteAt 5)
            ⟨u16le (s.msg.byteAt 0) (s.msg.byteAt 1), u16le (s.msg.byteAt 2) (s.msg.byteAt 3), s.msg.byteAt 4⟩
            (s.msg.readBytes 6 (s.msgLen.toNat - 6)))
          { s with stim := left, cmdRecognized := false }) ∧
      (s.ml = .drain →
        step s = .next { s with
          rxFull := false, rxArmed := true, ml := .idle, stim := left, cmdRecognized := false })

/-- R341, R342: whatever the cause, every element takes its reset value, and the configuration and the flash survive.
The unread buffers' bytes, `msg_src`, `msg_fbit` and the Application's `keepalive` take the model's own values (log
13, log 16, log 27), of which nothing is said here. That `msg_len` is 0, where R341 says "empty", is the model's
choice (log 27). Recording WatchdogReset is the model's reading (log 18); that its own logs and queue survive is log
19. -/
def Obligations.ResetEstablishesTheResetState : Prop :=
  ∀ (cause : ResetCause) (s : State), ∃ t, exec (.rst cause) s = .next t ∧
    t.cfg = s.cfg ∧ t.flash = s.flash ∧
    (∀ p, (t.port p).fdState = .waitStart0 ∧ (t.port p).fdLen = 0 ∧ (t.port p).fdOff = 0 ∧ (t.port p).fdSlot = 0 ∧
      (t.port p).rxFrames = 0 ∧ ∀ sl ∈ (t.port p).slots, sl.status = .free ∧ sl.len = 0) ∧
    t.port0.slots.length = s.cfg.nSlots0 ∧ t.port1.slots.length = s.cfg.nSlots1 ∧
    t.rxArmed = true ∧ t.rxFull = false ∧ t.txBusy = false ∧
    t.radioGood = 0 ∧ t.radioRejCrc = 0 ∧ t.radioRejOther = 0 ∧ t.radioSent = 0 ∧ t.msgLen = 0 ∧ t.ml = .idle ∧
    t.cmdRecognized = false ∧ t.callsignLen = 0 ∧ t.timeSet = false ∧
    (s.cfg.variant = .bootloader → t.keepalive = s.cfg.keepaliveInit) ∧
    t.uptime = 0 ∧ t.idleTicks = 0 ∧ t.deadline = s.cfg.rebootDeadlineInit ∧ t.rebootLine = false ∧
    t.outs = s.outs ∧ t.stim = s.stim ∧
    t.events = (if cause = .watchdog then s.events ++ [.watchdogReset] else s.events)

/-- The machine right after reset: the values of R341 for the configuration the model chooses (log 8). -/
def Obligations.MachineStartsInTheResetState : Prop :=
  core.reset = State.reset ∧
    (∀ p, (State.reset.port p).fdState = .waitStart0 ∧ (State.reset.port p).slots.length = 2 ∧
      ∀ sl ∈ (State.reset.port p).slots, sl.status = .free) ∧
    State.reset.rxArmed = true ∧ State.reset.rxFull = false ∧ State.reset.txBusy = false ∧
    State.reset.timeSet = false ∧ State.reset.callsignLen = 0 ∧ State.reset.uptime = 0 ∧
    State.reset.deadline = 0xFFFFFFFF ∧ State.reset.keepalive = 100 ∧ State.reset.ml = .idle ∧
    State.reset.fetch = none

/-! ### Serial frame decoder, poll and serial send -/

/-- R131: in `WaitStart0` 0x22 advances and every other byte is discarded; nothing else changes. -/
def Obligations.WaitStart0AdvancesOnMarker0Only : Prop :=
  ∀ (p : Port) (b : Byte) (s : State), (s.port p).fdState = .waitStart0 →
    exec (.serRxWaitStart0 p b) s =
      .next (s.setPort p { s.port p with fdState := if b = 0x22 then .waitStart1 else .waitStart0 })

/-- R132: in `WaitStart1` 0x69 advances, 0x22 changes nothing, and any other byte stays and is recorded as
`FrameDesync`; nothing else changes. -/
def Obligations.WaitStart1LeavesOnMarker1Only : Prop :=
  ∀ (p : Port) (b : Byte) (s : State), (s.port p).fdState = .waitStart1 →
    exec (.serRxWaitStart1 p b) s =
      if b = 0x69 then .next (s.setPort p { s.port p with fdState := .waitLength })
      else if b = 0x22 then .next s
      else .next { s with events := s.events ++ [.frameDesync p b] }

/-- R133: a length of 0 or 252..255 sends the decoder to `WaitStart1` and raises `BadLength`; nothing else
changes. -/
def Obligations.BadLengthReturnsToWaitStart1 : Prop :=
  ∀ (p : Port) (b : Byte) (s : State), (s.port p).fdState = .waitLength → (b.toNat < 1 ∨ 251 < b.toNat) →
    exec (.serRxWaitLengthBad p b) s =
      .next { s.setPort p { s.port p with fdState := .waitStart1 } with events := s.events ++ [.badLength p b] }

/-- R134: a legal length with no Free slot sends the decoder to `WaitStart0` and raises `NoFreeSlot`; nothing
else changes. -/
def Obligations.NoFreeSlotDropsTheFrame : Prop :=
  ∀ (p : Port) (b : Byte) (s : State), (s.port p).fdState = .waitLength → 1 ≤ b.toNat → b.toNat ≤ 251 →
    (∀ sl ∈ (s.port p).slots, sl.status ≠ .free) →
    exec (.serRxWaitLengthNofree p b) s =
      .next { s.setPort p { s.port p with fdState := .waitStart0 } with events := s.events ++ [.noFreeSlot p b] }

/-- R135: a legal length selects the lowest Free slot, which becomes Filling; the length is recorded, the offset
cleared; nothing else changes. -/
def Obligations.LowestFreeSlotIsSelected : Prop :=
  ∀ (p : Port) (b : Byte) (s : State) (k : Nat) (sl : Slot), (s.port p).fdState = .waitLength → 1 ≤ b.toNat →
    b.toNat ≤ 251 → (s.port p).slots[k]? = some sl → sl.status = .free →
    (∀ j sl', j < k → (s.port p).slots[j]? = some sl' → sl'.status ≠ .free) →
    ∃ t, exec (.serRxWaitLengthOk p b) s = .next t ∧ t = s.setPort p (t.port p) ∧
      (t.port p).fdState = .receiveData ∧ (t.port p).fdSlot = k ∧ (t.port p).fdLen = b ∧ (t.port p).fdOff = 0 ∧
      (t.port p).rxFrames = (s.port p).rxFrames ∧
      (t.port p).slots[k]? = some { sl with status := .filling } ∧
      ∀ j, j ≠ k → (t.port p).slots[j]? = (s.port p).slots[j]?

/-- R136: in `ReceiveData` the byte, whatever its value, is written at the offset, which advances; the byte that
brings the offset to the length makes the slot Ready with that length, counts the frame and returns the decoder to
`WaitStart0`; every other byte of the slot, every other slot and all the rest is unchanged. -/
def Obligations.ReceiveDataAppendsAndCompletes : Prop :=
  ∀ (p : Port) (b : Byte) (s : State) (sl : Slot), (s.port p).fdState = .receiveData →
    (s.port p).slots[(s.port p).fdSlot]? = some sl →
    ∃ t sl', exec (.serRxReceiveData p b) s = .next t ∧ t = s.setPort p (t.port p) ∧
      (t.port p).fdOff = (s.port p).fdOff + 1 ∧ (t.port p).fdLen = (s.port p).fdLen ∧
      (t.port p).fdSlot = (s.port p).fdSlot ∧
      (∀ j, j ≠ (s.port p).fdSlot → (t.port p).slots[j]? = (s.port p).slots[j]?) ∧
      (t.port p).slots[(s.port p).fdSlot]? = some sl' ∧ sl'.data.byteAt (s.port p).fdOff.toNat = b ∧
      (∀ a, a ≠ (s.port p).fdOff.toNat → sl'.data.byteAt a = sl.data.byteAt a) ∧
      (if (s.port p).fdOff.toNat + 1 = (s.port p).fdLen.toNat then
        sl'.status = .ready ∧ sl'.len = (s.port p).fdLen ∧ (t.port p).rxFrames = (s.port p).rxFrames + 1 ∧
          (t.port p).fdState = .waitStart0
      else
        sl'.status = sl.status ∧ sl'.len = sl.len ∧ (t.port p).rxFrames = (s.port p).rxFrames ∧
          (t.port p).fdState = .receiveData)

/-- R90, R92, R131 to R136 together: from `WaitStart0`, with a Free slot, the markers, the length byte and a payload
of 1..251 bytes of any values leave exactly that payload in the lowest Free slot, Ready, the frame counted and the
decoder in `WaitStart0`; every other slot and all the rest of the machine is unchanged. -/
def Obligations.FramedPayloadIsReceivedWhole : Prop :=
  ∀ (p : Port) (pl : List Byte) (s : State) (k : Nat) (sl : Slot), 1 ≤ pl.length → pl.length ≤ 251 →
    (s.port p).fdState = .waitStart0 → (s.port p).slots[k]? = some sl → sl.status = .free →
    (∀ j sl', j < k → (s.port p).slots[j]? = some sl' → sl'.status ≠ .free) →
    ∃ t sl', feedBytes p ([0x22, 0x69, BitVec.ofNat 8 pl.length] ++ pl) s = some t ∧ t = s.setPort p (t.port p) ∧
      (t.port p).fdState = .waitStart0 ∧ (t.port p).rxFrames = (s.port p).rxFrames + 1 ∧
      (t.port p).slots[k]? = some sl' ∧ sl'.status = .ready ∧ sl'.len.toNat = pl.length ∧
      sl'.data.readBytes 0 pl.length = pl ∧ ∀ j, j ≠ k → (t.port p).slots[j]? = (s.port p).slots[j]?

/-- R132, R351: in `WaitStart1` any bytes without a 0x69 leave the decoder exactly where it was, and each that is
no 0x22 is recorded once, in order. -/
def Obligations.WaitStart1IsSticky : Prop :=
  ∀ (p : Port) (bs : List Byte) (s : State), (s.port p).fdState = .waitStart1 → (∀ b ∈ bs, b ≠ 0x69) →
    feedBytes p bs s =
      some { s with events := s.events ++ (bs.filter (fun b => !(b == 0x22))).map (Event.frameDesync p) }

/-- R130: bytes received on one port never touch the other port's decoder or pool, nor anything else but the
record of events. -/
def Obligations.PortsShareNoState : Prop :=
  ∀ (p r : Port) (bs : List Byte) (s t : State), feedBytes p bs s = some t → r ≠ p →
    t.port r = s.port r ∧ t = { s.setPort p (t.port p) with events := t.events }

/-- R138, R139: ML, with no service in progress, takes the frame of the lowest Ready slot as its Message, whole, and
frees that slot; nothing else changes. That the dispatch is ML's next step is the model's form of R139 (log 4). -/
def Obligations.PollTakesTheLowestReadySlot : Prop :=
  ∀ (p : Port) (s : State) (k : Nat) (sl : Slot), s.ml = .idle → (s.port p).slots[k]? = some sl →
    sl.status = .ready → (∀ j sl', j < k → (s.port p).slots[j]? = some sl' → sl'.status ≠ .ready) →
    ∃ t, exec (.poll p) s = .next t ∧ t.msgBytes = sl.data.readBytes 0 sl.len.toNat ∧ t.msgLen = sl.len ∧
      t.msgSrc = (match p with | .p0 => .s0 | .p1 => .s1) ∧ t.msgFbit = false ∧ t.ml = .dispatch ∧
      (∀ a, sl.len.toNat ≤ a → t.msg.byteAt a = s.msg.byteAt a) ∧
      (t.port p).slots[k]? = some { sl with status := .free } ∧
      (∀ j, j ≠ k → (t.port p).slots[j]? = (s.port p).slots[j]?) ∧
      t.port p = { s.port p with slots := (t.port p).slots } ∧
      t = { s.setPort p (t.port p) with
        msg := t.msg, msgLen := t.msgLen, msgSrc := t.msgSrc, msgFbit := t.msgFbit, ml := t.ml }

/-- R138, R139, R162: a poll with no Ready slot, a radio service that is not enabled, and either while a service is
in progress, change nothing. For a radio service that is not enabled, and for a service while another is in progress,
this is the model's choice (log 6). -/
def Obligations.ServicesNotEnabledDoNothing : Prop :=
  (∀ (p : Port) (s : State), (s.ml ≠ .idle ∨ ∀ sl ∈ (s.port p).slots, sl.status ≠ .ready) →
    exec (.poll p) s = .next s) ∧
    ∀ s : State, (s.ml ≠ .idle ∨ s.rxFull = false ∨ s.txBusy = true) → exec .mlRadio s = .next s

/-- R140, R141: a Message of 1..251 bytes is emitted as one frame, unescaped; any other is dropped and recorded; then
the service in progress ends. What is left of the service, after a radio Message the drain of its slot, is ML's next
step (log 5). -/
def Obligations.SerialSendEmitsOneFrame : Prop :=
  ∀ (p : Port) (m : List Byte) (s : State), exec (.serSend p m) s =
    if 1 ≤ m.length ∧ m.length ≤ 251 then
      .next { s with
        outs := s.outs ++ [.serTx p ([0x22, 0x69, BitVec.ofNat 8 m.length] ++ m)],
        ml := if s.ml = .idle then .idle else if s.msgSrc = .r then .drain else .idle }
    else
      .next { s with
        events := s.events ++ [.serialTxRange p m.length],
        ml := if s.ml = .idle then .idle else if s.msgSrc = .r then .drain else .idle }

/-! ### Radio codec -/

/-- R160: a packet is deposited whole when the receiver is armed and the slot empty; otherwise it is lost and
recorded, and nothing else changes. -/
def Obligations.PacketIsDepositedOrLost : Prop :=
  ∀ (pkt : List Byte) (s : State),
    (s.rxArmed = true ∧ s.rxFull = false → ∃ t, exec (.rfRx pkt) s = .next t ∧
      t = { s with rxBuf := t.rxBuf, rxFull := true } ∧ t.rxBuf.readBytes 0 pkt.length = pkt ∧
      ∀ a, pkt.length ≤ a → t.rxBuf.byteAt a = s.rxBuf.byteAt a) ∧
    (¬ (s.rxArmed = true ∧ s.rxFull = false) →
      exec (.rfRx pkt) s = .next { s with events := s.events ++ [.radioLost] })

/-- R163: an enabled radio service rejects a packet with `L < 9`, counts it as "other", and listening resumes at
once; nothing else changes. -/
def Obligations.ShortPacketIsRejected : Prop :=
  ∀ s : State, s.rxFull = true → s.txBusy = false → s.ml = .idle → (s.rxBuf.byteAt 0).toNat < 9 →
    exec .mlRadio s = .next { s with
      radioRejOther := s.radioRejOther + 1, rxFull := false, rxArmed := true,
      events := s.events ++ [.radioShort (s.rxBuf.byteAt 0)] }

/-- R164, R165: an enabled radio service rejects a packet whose checksum over `rx_buf[0 .. L-3)` is not its footer's,
counts it, and listening resumes; nothing else changes. -/
def Obligations.ChecksumMismatchIsRejected : Prop :=
  ∀ (s : State) (L : Nat) (c f : U16), s.rxFull = true → s.txBusy = false → s.ml = .idle →
    L = (s.rxBuf.byteAt 0).toNat → 9 ≤ L → c = crcOf s.cfg.crc (s.rxBuf.readBytes 0 (L - 3)) →
    le16 f = [s.rxBuf.byteAt (L - 1), s.rxBuf.byteAt L] → c ≠ f →
    exec .mlRadio s = .next { s with
      radioRejCrc := s.radioRejCrc + 1, rxFull := false, rxArmed := true,
      events := s.events ++ [.radioCrc c f] }

/-- R162, R164, R166, R284: an enabled radio service accepts a packet whose checksum matches: the Message is the
footer's device-id and then the body, with bit 6 of the flags byte; the packet is counted and the idle count
cleared; the receive slot stays occupied; nothing else changes. The checksum is the one of R168, over any primitive
a seed of all ones, a byte at a time, no final inversion, and of R169, eight shifts by 0x8005, which the spec takes
from general knowledge (log 9). That the dispatch is ML's next step is the model's (log 4). -/
def Obligations.GoodPacketBecomesTheMessage : Prop :=
  (∀ (s : State) (L : Nat), s.rxFull = true → s.txBusy = false → s.ml = .idle → L = (s.rxBuf.byteAt 0).toNat →
    9 ≤ L → le16 (crcOf s.cfg.crc (s.rxBuf.readBytes 0 (L - 3))) = [s.rxBuf.byteAt (L - 1), s.rxBuf.byteAt L] →
    ∃ t, exec .mlRadio s = .next t ∧
      t.msgBytes = [s.rxBuf.byteAt (L - 3), s.rxBuf.byteAt (L - 2)] ++ s.rxBuf.readBytes 2 (L - 5) ∧
      (∀ a, L - 3 ≤ a → t.msg.byteAt a = s.msg.byteAt a) ∧
      t = { s with
        msg := t.msg, msgLen := BitVec.ofNat 8 (L - 3), msgSrc := .r, msgFbit := (s.rxBuf.byteAt 1).getLsbD 6,
        radioGood := s.radioGood + 1, idleTicks := 0, ml := .dispatch }) ∧
  (∀ binding, crcOf binding [] = 0xFFFF) ∧
  (∀ binding bs b, crcOf binding (bs ++ [b]) = crcStep binding (crcOf binding bs) b) ∧
  ∀ (c : U16) (b : Byte), crcStep .crc16x8005 c b =
    (fun x : U16 => if x.getLsbD 15 then (x <<< 1) ^^^ 0x8005 else x <<< 1)^[8] (c ^^^ (b.zeroExtend 16 <<< 8))

/-- R171 to R173: a Message within the size budget is sent as the packet of R97, built in `tx_buf`, the receiver
disarmed and ML left waiting; one beyond it is dropped and recorded, and the service in progress ends. What is left
of the service, after a radio Message the drain of its slot, is ML's next step (log 5). -/
def Obligations.RadioSendBuildsThePacket : Prop :=
  ∀ (m : List Byte) (fbit : Bool) (s : State), 6 ≤ m.length →
    (m.length + 3 ≤ s.cfg.radioLenMax → ∃ t pkt, exec (.radioSend m fbit) s = .next t ∧
      pkt = [BitVec.ofNat 8 (m.length + 3), if fbit then 0x40 else 0x00] ++ m.drop 2 ++ m.take 2 ++
        le16 (crcOf s.cfg.crc ([BitVec.ofNat 8 (m.length + 3), if fbit then 0x40 else 0x00] ++ m.drop 2)) ∧
      t.txBuf.readBytes 0 pkt.length = pkt ∧ (∀ a, pkt.length ≤ a → t.txBuf.byteAt a = s.txBuf.byteAt a) ∧
      t = { s with
        txBuf := t.txBuf, rxArmed := false, txBusy := true, ml := .txWait, outs := s.outs ++ [.rfTx pkt] }) ∧
    (s.cfg.radioLenMax < m.length + 3 →
      exec (.radioSend m fbit) s =
        .next { s with events := s.events ++ [.sendOversize m.length], ml := serviceLeft s })

/-- R178, I8: `rf_tx_done` ends the transmission in flight, counts it and re-arms the receiver, and the service that
waited ends; with none in flight the model refuses it. What is left of the service, after a radio Message the drain
of its slot, is ML's next step (log 5). -/
def Obligations.TxDoneCompletesTheTransmission : Prop :=
  ∀ s : State,
    (s.txBusy = true → exec .rfTxDone s =
      .next { s with
        txBusy := false, radioSent := s.radioSent + 1, rxArmed := true,
        ml := if s.ml = .idle then .idle else if s.msgSrc = .r then .drain else .idle }) ∧
    (s.txBusy = false → exec .rfTxDone s = .refused .txDoneIdle)

/-- R179: a Message sent by one node's codec and received by another's arrives byte for byte, with its length and
forwarding-target bit, and passes the checksum, for any checksum primitive the two share. That the dispatch is ML's
next step is the model's (log 4). -/
def Obligations.RadioRoundTripKeepsTheMessage : Prop :=
  ∀ (m : List Byte) (fbit : Bool) (s r : State), 6 ≤ m.length → m.length + 3 ≤ s.cfg.radioLenMax →
    s.cfg.radioLenMax ≤ 255 → r.cfg.crc = s.cfg.crc → r.rxArmed = true → r.rxFull = false → r.txBusy = false →
    r.ml = .idle →
    ∃ t pkt r1 r2, exec (.radioSend m fbit) s = .next t ∧ t.outs = s.outs ++ [.rfTx pkt] ∧
      exec (.rfRx pkt) r = .next r1 ∧ exec .mlRadio r1 = .next r2 ∧ r2.msgBytes = m ∧
      r2.msgLen.toNat = m.length ∧ r2.msgFbit = fbit ∧ r2.radioGood = r.radioGood + 1 ∧ r2.ml = .dispatch

/-- R180 for whole bytes, but for the length byte: with `CRC16_8005`, a packet that would pass the checksum and of
which one byte from the flags to the last body byte (indices 1 .. L-4), or one of the two checksum bytes (L-1, L), is
changed to any other value is rejected and counted, and yields no Message. A changed length byte makes the service
read other bytes, and the device-id (L-3, L-2) is outside the checksum (R164). The primitive is presumed (log 9). -/
def Obligations.OneChangedByteIsDetected : Prop :=
  ∀ (s : State) (L k : Nat) (b : Byte), s.cfg.crc = .crc16x8005 → s.rxFull = true → s.txBusy = false → s.ml = .idle →
    L = (s.rxBuf.byteAt 0).toNat → 9 ≤ L →
    le16 (crcOf .crc16x8005 (s.rxBuf.readBytes 0 (L - 3))) = [s.rxBuf.byteAt (L - 1), s.rxBuf.byteAt L] →
    (1 ≤ k ∧ k ≤ L - 4 ∨ k = L - 1 ∨ k = L) → b ≠ s.rxBuf.byteAt k →
    ∃ t, exec .mlRadio { s with rxBuf := s.rxBuf.writeBytes k [b] } = .next t ∧
      t.radioRejCrc = s.radioRejCrc + 1 ∧ t.radioGood = s.radioGood ∧ t.ml = .idle ∧ t.msg = s.msg

/-! ### Dispatcher -/

/-- R200, R201, R203, R208, R209: a short Message is dropped; one for this node goes to the match table whatever its
transport; any other is forwarded where its transport's flag allows and dropped where it does not. Delivery and
forwarding as ML's next step are the model's (log 4); the drain after a radio Message is another (log 5). -/
def Obligations.DispatchRoutesByAddress : Prop :=
  ∀ s : State, exec .dispatch s =
    if s.msgLen.toNat < 6 then
      .next { s with events := s.events ++ [.msgShort s.msgSrc s.msgLen], ml := serviceLeft s }
    else if s.msg.byteAt 4 = s.cfg.subsysRadio ∧
        (u16le (s.msg.byteAt 0) (s.msg.byteAt 1) = s.cfg.selfId ∨ u16le (s.msg.byteAt 0) (s.msg.byteAt 1) = 0xFFFF) then
      .next { s with ml := .deliver }
    else if (match s.msgSrc with | .s0 => s.cfg.fwdS0 | .s1 => s.cfg.fwdS1 | .r => s.cfg.fwdR) = true then
      .next { s with ml := .forward }
    else
      .next { s with
        events := s.events ++ [.notForwarded s.msgSrc (u16le (s.msg.byteAt 0) (s.msg.byteAt 1))], ml := serviceLeft s }

/-- R208: ML's step after the decision to forward, on any of its turns, sends the Message's bytes unmodified: from
serial port p to the radio with the bit p, from the radio to the serial port that the Message's bit selects. The turns
are the model's (log 3, log 4). -/
def Obligations.ForwardingSendsTheMessageUnmodified : Prop :=
  ∀ (s : State) (left : List Stim), configLegal s.cfg = true → s.rebootLine = false → turnOfMl s left →
    s.ml = .forward → 6 ≤ s.msgLen.toNat → s.msgLen.toNat ≤ 253 →
    step s =
      exec
        (match s.msgSrc with
          | .s0 => .radioSend s.msgBytes false
          | .s1 => .radioSend s.msgBytes true
          | .r => .serSend (if s.msgFbit then s.cfg.fwdPort1 else s.cfg.fwdPort0) s.msgBytes)
        { s with stim := left, cmdRecognized := false }

/-- R207: ML's step after a handler, on any of its turns, sends the reply by the originating transport, to the radio
with the request's forwarding-target bit. The turns are the model's (log 3, log 4). -/
def Obligations.ReplyLeavesByTheOriginatingTransport : Prop :=
  ∀ (s : State) (left : List Stim), configLegal s.cfg = true → s.rebootLine = false → turnOfMl s left →
    s.ml = .reply → 6 ≤ s.replyLen.toNat → s.replyLen.toNat ≤ 253 →
    step s =
      exec
        (match s.msgSrc with
          | .s0 => .serSend .p0 s.replyBytes
          | .s1 => .serSend .p1 s.replyBytes
          | .r => .radioSend s.replyBytes s.msgFbit)
        { s with stim := left, cmdRecognized := false }

/-- R173, R357: while ML is blocked in a radio send, a turn given to it, and a turn for a new service, pass without
effect. How a turn is presented is the model's (log 3, log 4). -/
def Obligations.BlockedSendStopsMl : Prop :=
  ∀ (s : State) (e : Stim) (rest : List Stim), configLegal s.cfg = true → s.rebootLine = false → s.ml = .txWait →
    s.stim = e :: rest → (e = .ml ∨ e = .radio ∨ ∃ p, e = .poll p) →
    step s = .next { s with stim := rest, cmdRecognized := false }

/-! ### Match table: Bootloader -/

/-- R239: ping kicks the watchdog, sets the keep-alive and replies `BL_ACK` "pong"; nothing else changes. The reply
as ML's next step is the model's (log 4), and that the strobe comes before the kick is its choice (log 20). -/
def Obligations.PingRepliesPong : Prop :=
  ∀ (h : Header) (pl : List Byte) (s : State), s.cfg.variant = .bootloader →
    ∃ t, exec (.ping h pl) s = .next t ∧
      HandledWith s t h 0x01 [0x70, 0x6F, 0x6E, 0x67] (fun s => { withRecognized s with
        outs := s.outs ++ [.cmdRecognized, .wdtKick], keepalive := s.cfg.keepaliveInit })

/-- R240, R270, R357: erase calls `erase_app`, which erases the pages of the application region one at a time, a step
of ML for each; after the last one `BL_ACK` "erased" is the reply and `cmd_recognized` is asserted. Run on, it makes
every byte of the application region, and no other, read as the erased value; nothing else changes. The erased value
is the configuration's (log 8, log 14); the phases are the model's (log 4), as are the record of calls (log 19), the
place of the strobe (log 36), and that no erase fails (log 35). -/
def Obligations.EraseClearsTheApplicationRegion : Prop :=
  ∀ (h : Header) (pl : List Byte) (s : State), s.cfg.variant = .bootloader → flashMapLegal s.cfg = true →
    ((∀ p, s.ml ≠ .erasing p) →
      (∃ t, exec (.erase h pl) s = .next t ∧ RepliesWith s t h 0xFF [] ∧
        t = { s with
          reply := t.reply, replyLen := 6, calls := s.calls ++ [.eraseApp], ml := .erasing (s.cfg.appStart / 128) }) ∧
      ∃ t, execTimes (.erase h pl) (s.cfg.appEnd / 128 + 2 - s.cfg.appStart / 128) s = some t ∧
        HandledWith s t h 0x01 [0x65, 0x72, 0x61, 0x73, 0x65, 0x64] (fun s => { withRecognized s with
          calls := s.calls ++ [.eraseApp], flash := t.flash }) ∧
        ∀ a, t.flash.byteAt a = if s.cfg.appStart ≤ a ∧ a ≤ s.cfg.appEnd then s.cfg.erasedByte else s.flash.byteAt a) ∧
    ∀ p, s.ml = .erasing p → s.cfg.appStart ≤ p * 128 → p * 128 ≤ s.cfg.appEnd →
      ∃ t, exec (.erase h pl) s = .next t ∧
        (∀ a, t.flash.byteAt a = if p * 128 ≤ a ∧ a < p * 128 + 128 then s.cfg.erasedByte else s.flash.byteAt a) ∧
        (p * 128 + 128 ≤ s.cfg.appEnd → t = { s with flash := t.flash, ml := .erasing (p + 1) }) ∧
        (s.cfg.appEnd < p * 128 + 128 → s.reply.readBytes 0 5 = replyHeader s.cfg h →
          HandledWith s t h 0x01 [0x65, 0x72, 0x61, 0x73, 0x65, 0x64] (fun s => { withRecognized s with
            flash := t.flash }))

/-- R271: the address check of write-page, on integers and in its order. -/
def Obligations.PageAddressesAreChecked : Prop :=
  ∀ (c : Config) (i : Byte),
    (i.toNat * 128 < c.appStart → pageCheck c i = .errProtected) ∧
    (c.appStart ≤ i.toNat * 128 → i.toNat * 128 + 128 ≤ c.appEnd + 1 → pageCheck c i = .ok) ∧
    (c.appStart ≤ i.toNat * 128 → c.appEnd + 1 < i.toNat * 128 + 128 → i.toNat * 128 + 128 ≤ c.flashSize →
      pageCheck c i = .errProtected) ∧
    (c.appStart ≤ i.toNat * 128 → c.appEnd + 1 < i.toNat * 128 + 128 → c.flashSize < i.toNat * 128 + 128 →
      pageCheck c i = .errBadAddr)

/-- R241, R271, R357: a write of a page that lies in the application region blocks ML in the programming; when that
ends, for a page other than 255 and where the flash takes it, the 128 data bytes stand at `i * 128`, the reply is
`BL_ACK [i]`, and nothing else changes. The phases are the model's (log 4), whether the flash takes a write is its
list of answers (log 15), and calls are recorded (log 19). -/
def Obligations.WritePageStoresThePage : Prop :=
  ∀ (h : Header) (i : Byte) (data extra : List Byte) (s : State), s.cfg.variant = .bootloader → data.length = 128 →
    s.cfg.appStart ≤ i.toNat * 128 → i.toNat * 128 + 128 ≤ s.cfg.appEnd + 1 →
    (s.ml ≠ .programming → ∃ t, exec (.writePage h (i :: data ++ extra)) s = .next t ∧ RepliesWith s t h 0xFF [] ∧
      t = { withRecognized s with reply := t.reply, replyLen := 6, ml := .programming }) ∧
    (s.ml = .programming → s.flashAnswers.headD true = true → i ≠ 0xFF →
      s.reply.readBytes 0 5 = replyHeader s.cfg h →
      ∃ t, exec (.writePage h (i :: data ++ extra)) s = .next t ∧
        HandledWith s t h 0x01 [i] (fun s => { s with
          calls := s.calls ++ [.writePage i data .ok], flash := t.flash, flashAnswers := s.flashAnswers.tail }) ∧
        t.flash.readBytes (i.toNat * 128) 128 = data ∧
        ∀ a, (a < i.toNat * 128 ∨ i.toNat * 128 + 128 ≤ a) → t.flash.byteAt a = s.flash.byteAt a)

/-- R242, R280: when the programming of page 255 ends, the image in flash is verified, three MACs evaluated; if it is
authentic the keep-alive is extended, else `AuthFailed` is raised; the reply is `BL_ACK [FF]` either way. Run on from
its start, the extension is added to the refreshed keep-alive; where the keep-alive is exact, it is the sum. The width
of the keep-alive is the configuration's (log 16), the flash's answer is log 15, the phases are the model's (log 4). -/
def Obligations.Page255VerifiesTheImage : Prop :=
  ∀ (h : Header) (data extra : List Byte) (s : State), s.cfg.variant = .bootloader → data.length = 128 →
    s.cfg.appStart ≤ 0x7F80 → 0x7FFF ≤ s.cfg.appEnd → s.flashAnswers.headD true = true →
    (s.ml = .programming → s.reply.readBytes 0 5 = replyHeader s.cfg h →
      ∃ t v, exec (.writePage h (0xFF :: data ++ extra)) s = .next t ∧ v = { s with flash := t.flash }.verifies ∧
        HandledWith s t h 0x01 [0xFF] (fun s => { s with
          calls := s.calls ++ [.writePage 0xFF data .ok, .verify v], macEvals := s.macEvals + 3, flash := t.flash,
          flashAnswers := s.flashAnswers.tail,
          keepalive := if v = true then narrowKeepalive s.cfg.keepaliveForm (s.keepalive + s.cfg.keepaliveExtend)
            else s.keepalive,
          events := if v = true then s.events else s.events ++ [.authFailed] }) ∧
        t.flash.readBytes 0x7F80 128 = data ∧
        (∀ a, (a < 0x7F80 ∨ 0x8000 ≤ a) → t.flash.byteAt a = s.flash.byteAt a) ∧
        (s.cfg.keepaliveForm = .exact → v = true → t.keepalive = s.keepalive + s.cfg.keepaliveExtend)) ∧
    (s.ml ≠ .programming → ∃ t, execTimes (.writePage h (0xFF :: data ++ extra)) 2 s = some t ∧
      (({ s with flash := t.flash } : State).verifies = true →
        t.keepalive = narrowKeepalive s.cfg.keepaliveForm (s.cfg.keepaliveInit + s.cfg.keepaliveExtend) ∧
          (s.cfg.keepaliveForm = .exact → t.keepalive = s.cfg.keepaliveInit + s.cfg.keepaliveExtend)) ∧
      (({ s with flash := t.flash } : State).verifies = false → t.keepalive = s.cfg.keepaliveInit))

/-- R241: a write that is refused, by its address at once or by the flash after the programming, leaves flash as it
was, replies a header-only `BL_NACK` and raises `FlashRejected`; one with fewer than 129 payload bytes replies the
same and raises `MissingArgument`. Programming failures are the model's list of answers (log 15), the phases are log
4, and MissingArgument here is log 32. -/
def Obligations.RejectedWritesLeaveFlashAlone : Prop :=
  (∀ (h : Header) (pl : List Byte) (s : State) (r : PageResult), s.cfg.variant = .bootloader → s.ml ≠ .programming →
    129 ≤ pl.length → pageCheck s.cfg (pageIndex pl) = r → r ≠ .ok →
    ∃ t, exec (.writePage h pl) s = .next t ∧
      HandledWith s t h 0x0F [] (fun s => { withRecognized s with
        calls := s.calls ++ [.writePage (pageIndex pl) (pageData pl) r],
        events := s.events ++ [.flashRejected (pageIndex pl) r] })) ∧
  (∀ (h : Header) (pl : List Byte) (s : State), s.cfg.variant = .bootloader → s.ml = .programming →
    pageCheck s.cfg (pageIndex pl) = .ok → s.flashAnswers.headD true = false →
    s.reply.readBytes 0 5 = replyHeader s.cfg h →
    ∃ t, exec (.writePage h pl) s = .next t ∧
      HandledWith s t h 0x0F [] (fun s => { s with
        calls := s.calls ++ [.writePage (pageIndex pl) (pageData pl) .errProtected],
        events := s.events ++ [.flashRejected (pageIndex pl) .errProtected],
        flashAnswers := s.flashAnswers.tail })) ∧
  ∀ (h : Header) (pl : List Byte) (s : State), s.cfg.variant = .bootloader → s.ml ≠ .programming → pl.length < 129 →
    ∃ t, exec (.writePage h pl) s = .next t ∧
      HandledWith s t h 0x0F [] (fun s => { withRecognized s with
        events := s.events ++ [.missingArgument 0x02] })

/-- R275: the constant-time comparison of two strings of one length says exactly whether they are equal. -/
def Obligations.MacComparisonIsEquality : Prop :=
  ∀ x y : List Byte, x.length = y.length → (macEqual x y = true ↔ x = y)

/-- R273, R274, R276: `verify()` holds exactly when, under at least one of the three keys, the MAC of
`flash[APP_START .. SIG_OFFSET)` equals `flash[SIG_OFFSET .. SIG_OFFSET + 16)`, and evaluates exactly three MACs
whatever the keys and the image. The MAC of no block is the zero block; one block more is XORed into the chain and
enciphered. -/
def Obligations.VerifyTriesAllThreeKeys : Prop :=
  (∀ s : State, s.verify.macEvals = s.macEvals + 3 ∧
    (s.verifies = true ↔ ∃ k, (k = s.cfg.key0 ∨ k = s.cfg.key1 ∨ k = s.cfg.key2) ∧
      macEqual (cbcMac s.cfg.cipher k (s.flash.readBytes s.cfg.appStart (s.cfg.sigOffset - s.cfg.appStart)))
        (s.flash.readBytes s.cfg.sigOffset 16) = true)) ∧
  (∀ binding k, cbcMac binding k [] = List.replicate 16 0) ∧
  ∀ binding k (d b : List Byte), d.length % 16 = 0 → b.length = 16 →
    cbcMac binding k (d ++ b) =
      blockCipher binding k (List.zipWith (fun x y => x ^^^ y) (cbcMac binding k d) b)

/-! ### Match table: common and unmatched opcodes -/

/-- R231 to R234: an ack, an ascii/log or a nack addressed here is recognized and, by default, not answered; where
`COMMON_INBOUND_REPLY` is `Nack` the header-only NACK goes out. Nothing else changes. What is left of the service,
after a radio Message the drain of its slot, is ML's next step (log 5). -/
def Obligations.CommonOpcodesAreNotAnswered : Prop :=
  ∀ (h : Header) (pl : List Byte) (s : State) (i : Instr), (i = .ack h pl ∨ i = .ascii h pl ∨ i = .nack h pl) →
    (s.cfg.inboundReply = .none → ∃ t, exec i s = .next t ∧ HandledSilently s t h withRecognized) ∧
    (s.cfg.inboundReply = .nack → ∃ t, exec i s = .next t ∧ HandledWith s t h 0xFF [] withRecognized)

/-- R237, R243 to R247, Bootloader: every opcode with no entry in the Bootloader's table (the reply codes, the
unassigned opcodes, and the Application's own) is answered by the header-only NACK 0xFF and raises `UnknownOpcode`;
it is not recognized and nothing else changes. The reply as ML's next step is the model's (log 4). -/
def Obligations.UnmatchedOpcodesAreNackedByTheBootloader : Prop :=
  (∀ (h : Header) (pl : List Byte) (s : State) (i : Instr) (op : Byte), s.cfg.variant = .bootloader →
    (i = .bootloaderAck h pl ∧ op = 0x01 ∨ i = .bootloaderNack h pl ∧ op = 0x0F ∨ i = .rangingAck h pl ∧ op = 0x16 ∨
      i = .telem h pl ∧ op = 0x18 ∨ i = .callsign h pl ∧ op = 0x1B ∨ i = .unassigned op h pl) →
    ∃ t, exec i s = .next t ∧
      HandledWith s t h 0xFF [] (fun s => { s with events := s.events ++ [.unknownOpcode op] })) ∧
    ∀ (h : Header) (pl : List Byte) (s : State) (op : Byte), s.cfg.variant = .bootloader →
      hasEntry .bootloader op = false →
      ∃ t, exec (instrOfOpcode op h pl) s = .next t ∧
        HandledWith s t h 0xFF [] (fun s => { s with events := s.events ++ [.unknownOpcode op] })

/-- R237, R243 to R247, R256, Application: an opcode with no entry in the Application's table (the reply codes, the
unassigned opcodes, and the Bootloader's own) goes to `EXT`: what it does not take is answered by the header-only
NACK 0xFF; what it takes is recognized and answered as it says, or not at all. How EXT is bound is the
configuration's (log 11); a longer answer than R256 allows is a fault (log 24). -/
def Obligations.UnmatchedOpcodesGoToTheExtension : Prop :=
  ∀ (h : Header) (pl : List Byte) (s : State) (op : Byte), s.cfg.variant = .application →
    hasEntry .application op = false →
    (extAnswer s.cfg.ext op (messageBytes h op pl) = none →
      ∃ t, exec (instrOfOpcode op h pl) s = .next t ∧
        HandledWith s t h 0xFF [] (fun s => { s with
          calls := s.calls ++ [.ext (messageBytes h op pl) none],
          events := s.events ++ [.unknownOpcode op] })) ∧
    (extAnswer s.cfg.ext op (messageBytes h op pl) = some .silent →
      ∃ t, exec (instrOfOpcode op h pl) s = .next t ∧
        HandledSilently s t h (fun s => { withRecognized s with
          calls := s.calls ++ [.ext (messageBytes h op pl) (some .silent)] })) ∧
    ∀ rop rpl, extAnswer s.cfg.ext op (messageBytes h op pl) = some (.reply rop rpl) → rpl.length ≤ 247 →
      ∃ t, exec (instrOfOpcode op h pl) s = .next t ∧
        HandledWith s t h rop rpl (fun s => { withRecognized s with
          calls := s.calls ++ [.ext (messageBytes h op pl) (some (.reply rop rpl))] })

/-- R238: a handler asserts `cmd_recognized` exactly when the opcode has an entry in the variant's table, or `EXT`
takes it. A handler that blocks asserts it in one of its steps only: erase in its last (R240; log 36), write-page and
ranging in their first (R241, R255). The strobe lasts one step in the model (log 20). -/
def Obligations.RecognizedExactlyByEntriesAndTheExtension : Prop :=
  ∀ (op : Byte) (h : Header) (pl : List Byte) (s t : State), s.cmdRecognized = false →
    exec (instrOfOpcode op h pl) s = .next t →
    (s.ml ≠ .programming → s.ml ≠ .ranging → (s.cfg.variant = .application ∨ op ≠ 0x0C) →
      (t.cmdRecognized = true ↔
        hasEntry s.cfg.variant op = true ∨
          (s.cfg.variant = .application ∧ (extAnswer s.cfg.ext op (messageBytes h op pl)).isSome = true))) ∧
    (s.cfg.variant = .bootloader → op = 0x0C → (t.cmdRecognized = true ↔ handling t.ml = false)) ∧
    (s.cfg.variant = .bootloader → op = 0x02 → s.ml = .programming → t.cmdRecognized = false) ∧
    (s.cfg.variant = .application → op = 0x15 → s.ml = .ranging → t.cmdRecognized = false)

/-! ### Match table: Application -/

/-- R248: reboot sends no reply and emits `reboot_req`; nothing else changes but the end of the service. The reset as
the next step is the model's (log 17), and that the strobe comes before the request is its choice (log 20). -/
def Obligations.RebootRequestsAReset : Prop :=
  ∀ (h : Header) (s : State), s.cfg.variant = .application →
    ∃ t, exec (.reboot h) s = .next t ∧
      HandledSilently s t h (fun s => { withRecognized s with
        outs := s.outs ++ [.cmdRecognized, .rebootReq], rebootLine := true })

/-- R248, R286, R340: the step after a reboot resets the block, whatever is in the stimulus queue: every counter is
0, the callsign is lost, the time is not set, and configuration and flash survive. Of the reset state the statement
also fixes what the model chooses: the unread bytes of the buffers (log 13), the Application's `keepalive` (log 16)
and `msg_len`, `msg_src`, `msg_fbit`, `reply_len` (log 27); and the model's own records and queue stay (log 19). That
the reset is the next step, and that the strobe comes before the request, are the model's choices (log 17, log 20). -/
def Obligations.RebootIsFollowedByReset : Prop :=
  ∀ (h : Header) (s t : State), s.cfg.variant = .application → configLegal s.cfg = true →
    exec (.reboot h) s = .next t →
    step t = .next { State.atReset s.cfg with
      flash := s.flash, stim := s.stim, outs := s.outs ++ [.cmdRecognized, .rebootReq], events := s.events,
      calls := s.calls, macEvals := s.macEvals, draws := s.draws, flashAnswers := s.flashAnswers }

/-- R249, R282: a postpone argument, its first byte the lowest (R13), within the cap sets the deadline to `uptime + X` and is acknowledged; one past it
leaves the deadline and is refused with a NACK; one of 1..3 bytes is a missing argument and refused the same. An
empty payload, which R248 takes as `reboot` and no Message decodes to (log 30), is refused alike. MissingArgument is
R311's. Beside the rules: the reply as ML's next step (log 4) and the record of calls (log 19) are the model's
fields. -/
def Obligations.PostponeSetsTheDeadlineWithinTheCap : Prop :=
  ∀ (h : Header) (pl : List Byte) (s : State), s.cfg.variant = .application →
    (∀ b0 b1 b2 b3 rest, pl = b0 :: b1 :: b2 :: b3 :: rest →
      (u32le b0 b1 b2 b3).toNat = b0.toNat + 2 ^ 8 * b1.toNat + 2 ^ 16 * b2.toNat + 2 ^ 24 * b3.toNat ∧
      ((u32le b0 b1 b2 b3).toNat ≤ s.cfg.postponeMax → ∃ t, exec (.rebootPostpone h pl) s = .next t ∧
        HandledWith s t h 0x10 [] (fun s => { withRecognized s with
          calls := s.calls ++ [.postpone (u32le b0 b1 b2 b3) true],
          deadline := s.uptime + u32le b0 b1 b2 b3 })) ∧
      (s.cfg.postponeMax < (u32le b0 b1 b2 b3).toNat → ∃ t, exec (.rebootPostpone h pl) s = .next t ∧
        HandledWith s t h 0xFF [] (fun s => { withRecognized s with
          calls := s.calls ++ [.postpone (u32le b0 b1 b2 b3) false] }))) ∧
    (pl.length < 4 → ∃ t, exec (.rebootPostpone h pl) s = .next t ∧
      HandledWith s t h 0xFF [] (fun s => { withRecognized s with events := s.events ++ [.missingArgument 0x12] }))

/-- R250: get-time replies the stored time, or a NACK where it was never set; nothing else changes. TIME_BYTES of at
most 247 is what one reply holds (log 24). -/
def Obligations.GetTimeRepliesTheStoredTime : Prop :=
  ∀ (h : Header) (pl : List Byte) (s : State), s.cfg.variant = .application →
    (s.timeSet = true → s.cfg.timeBytes ≤ 247 → ∃ t, exec (.getTime h pl) s = .next t ∧
      HandledWith s t h 0x14 (s.timeVal.readBytes 0 s.cfg.timeBytes) withRecognized) ∧
    (s.timeSet = false → ∃ t, exec (.getTime h pl) s = .next t ∧ HandledWith s t h 0xFF [] withRecognized)

/-- R251: set-time stores the first `TIME_BYTES` payload bytes and is acknowledged; a shorter payload stores nothing
and is refused with a NACK. MissingArgument is R311's. Beside the rules: the reply as ML's next step (log 4) is the
model's field. -/
def Obligations.SetTimeStoresTheTime : Prop :=
  ∀ (h : Header) (pl : List Byte) (s : State), s.cfg.variant = .application →
    (s.cfg.timeBytes ≤ pl.length → ∃ t, exec (.setTime h pl) s = .next t ∧
      HandledWith s t h 0x10 [] (fun s => { withRecognized s with timeVal := t.timeVal, timeSet := true }) ∧
      t.timeVal.readBytes 0 s.cfg.timeBytes = pl.take s.cfg.timeBytes ∧
      ∀ a, s.cfg.timeBytes ≤ a → t.timeVal.byteAt a = s.timeVal.byteAt a) ∧
    (pl.length < s.cfg.timeBytes → ∃ t, exec (.setTime h pl) s = .next t ∧
      HandledWith s t h 0xFF [] (fun s => { withRecognized s with events := s.events ++ [.missingArgument 0x14] }))

/-- R252, R288: get-telem replies a snapshot of `TELEM_BYTES` bytes, whose bytes are a free value (log 12). -/
def Obligations.GetTelemRepliesASnapshot : Prop :=
  ∀ (h : Header) (pl : List Byte) (s : State), s.cfg.variant = .application → configLegal s.cfg = true →
    s.telemetry.length = s.cfg.telemBytes ∧
    ∃ t, exec (.getTelem h pl) s = .next t ∧
      HandledWith s t h 0x18 s.telemetry (fun s => { withRecognized s with
        calls := s.calls ++ [.telemetrySnapshot s.telemetry], draws := s.draws + 1 })

/-- R253, R254: get-callsign replies the stored callsign; set-callsign stores the whole payload and is acknowledged,
or, where it is too long, stores nothing and is refused with a NACK. A stored callsign of at most 247 bytes is part
of the invariant (log 24); MissingArgument for a long one is log 32. -/
def Obligations.CallsignIsStoredAndReplied : Prop :=
  ∀ (h : Header) (pl : List Byte) (s : State), s.cfg.variant = .application →
    (s.callsignLen ≤ 247 → ∃ t, exec (.getCallsign h pl) s = .next t ∧
      HandledWith s t h 0x1B (s.callsign.readBytes 0 s.callsignLen) withRecognized) ∧
    (pl.length ≤ s.cfg.callsignMax → ∃ t, exec (.setCallsign h pl) s = .next t ∧
      HandledWith s t h 0x10 [] (fun s => { withRecognized s with
        callsign := t.callsign, callsignLen := pl.length }) ∧
      t.callsign.readBytes 0 pl.length = pl ∧
      ∀ a, pl.length ≤ a → t.callsign.byteAt a = s.callsign.byteAt a) ∧
    (s.cfg.callsignMax < pl.length → ∃ t, exec (.setCallsign h pl) s = .next t ∧
      HandledWith s t h 0xFF [] (fun s => { withRecognized s with events := s.events ++ [.missingArgument 0x1A] }))

/-- R255, R287: ranging sends the ranging reply by the ranging path, as the packet that the radio send would build
for it, with the request's bit, and blocks ML; when the transmission ends the receiver is armed and the normal reply
silenced; nothing else changes. The two steps are the model's (log 4), that the receiver is disarmed between them is
its reading (log 37), and that the strobe comes before the packet, and that no size check stops it, are its choices
(log 20, log 38). What is left of the service, after a radio Message the drain of its slot, is ML's next step
(log 5). -/
def Obligations.RangingAnswersByTheRangingPath : Prop :=
  ∀ (h : Header) (pl : List Byte) (s : State), s.cfg.variant = .application →
    (s.ml ≠ .ranging → ∃ t m, exec (.ranging h pl) s = .next t ∧
      m = replyHeader s.cfg h ++ 0x16 :: s.cfg.rangingPayload ∧ t.reply.readBytes 0 m.length = m ∧
      (∀ a, m.length ≤ a → t.reply.byteAt a = s.reply.byteAt a) ∧
      t = { withRecognized s with
        outs := s.outs ++ [.cmdRecognized, .rngTx (buildPacket s.cfg.crc m s.msgFbit)],
        calls := s.calls ++ [.rangingTx m s.msgFbit], rxArmed := false, reply := t.reply, replyLen := 6,
        ml := .ranging }) ∧
    (s.ml = .ranging → exec (.ranging h pl) s =
      .next { s with rxArmed := true, replyLen := 0, ml := serviceLeft s })

/-- Where a reply payload from the configuration, the stored state or `EXT` would pass the 253-byte buffer, which R206
and R256 rule out, the handler stops with a fault that names the reply's opcode. The fault is the model's (log 24). -/
def Obligations.OversizeRepliesAreFaults : Prop :=
  ∀ (h : Header) (pl : List Byte) (s : State), s.cfg.variant = .application →
    (s.timeSet = true → 247 < s.cfg.timeBytes → exec (.getTime h pl) s = .fault (.replyOverflow 0x14)) ∧
    (247 < s.telemetry.length → exec (.getTelem h pl) s = .fault (.replyOverflow 0x18)) ∧
    (247 < s.callsignLen → exec (.getCallsign h pl) s = .fault (.replyOverflow 0x1B)) ∧
    ∀ op rop rpl, hasEntry .application op = false →
      extAnswer s.cfg.ext op (messageBytes h op pl) = some (.reply rop rpl) → 247 < rpl.length →
      exec (instrOfOpcode op h pl) s = .fault (.replyOverflow rop)

/-! ### Scheduler -/

/-- R283, R285, R286, R357: a tick advances both clocks; past the idle limit the receiver is reset, unless a
transmission is in flight, and the idle count cleared; past the deadline a reboot is requested; nothing else changes.
That a ranging transmission is one of these, where R285 names `tx_busy`, is log 37; that rx_reset is emitted also during
a transmission is log 29; the reset as the next step is log 17. -/
def Obligations.TickAdvancesTheScheduler : Prop :=
  ∀ (s : State) (idle late : Bool), idle = decide (s.cfg.rxIdleMax < (s.idleTicks + 1).toNat) →
    late = decide (s.deadline.toNat < (s.uptime + 1).toNat) →
    exec .tick s = .next { s with
      uptime := s.uptime + 1, idleTicks := if idle then 0 else s.idleTicks + 1,
      rxFull := if idle = true ∧ s.txBusy = false ∧ s.ml ≠ .ranging then false else s.rxFull,
      rxArmed := if idle = true ∧ s.txBusy = false ∧ s.ml ≠ .ranging then true else s.rxArmed,
      outs := s.outs ++ ((if idle then [.rxReset] else []) ++ if late then [.rebootReq] else []),
      rebootLine := s.rebootLine || late }

/-! ### Whole-machine rules -/

/-- R36, R344: no step writes the configuration. -/
def Obligations.ConfigurationNeverChanges : Prop :=
  ∀ s t : State, step s = .next t → t.cfg = s.cfg

/-- R62, R271, R270: no step of the machine changes a flash byte outside the application region, and in the
Application variant no step changes flash at all. -/
def Obligations.FlashOutsideTheApplicationRegionIsProtected : Prop :=
  ∀ s t : State, step s = .next t →
    (∀ a, (a < s.cfg.appStart ∨ s.cfg.appEnd < a) → t.flash.byteAt a = s.flash.byteAt a) ∧
      (s.cfg.variant = .application → t.flash = s.flash)

/-- R32, R211: whatever well-formed instruction runs, apart from a reset, `radio_sent` changes only by `rf_tx_done`,
the receive counters only by the radio service, and a port's frame counter only by that port's `ReceiveData`, each
by 1. -/
def Obligations.CountersHaveTheirWriters : Prop :=
  ∀ (i : Instr) (s t : State), i.wf = true → exec i s = .next t → (∀ c, i ≠ .rst c) →
    (t.radioSent = s.radioSent ∨ i = .rfTxDone ∧ t.radioSent = s.radioSent + 1) ∧
    (t.radioGood = s.radioGood ∨ i = .mlRadio ∧ t.radioGood = s.radioGood + 1) ∧
    (t.radioRejCrc = s.radioRejCrc ∨ i = .mlRadio ∧ t.radioRejCrc = s.radioRejCrc + 1) ∧
    (t.radioRejOther = s.radioRejOther ∨ i = .mlRadio ∧ t.radioRejOther = s.radioRejOther + 1) ∧
    ∀ p, (t.port p).rxFrames = (s.port p).rxFrames ∨
      (∃ b, i = .serRxReceiveData p b) ∧ (t.port p).rxFrames = (s.port p).rxFrames + 1

/-- The invariant `MachineInv` holds right after reset. Under the configuration the model names (log 8). -/
def Obligations.InvariantHoldsAtReset : Prop := MachineInv State.reset

/-- Every step keeps `MachineInv`: every memory stays canonical, every decoder and pool sound (R21 to R26), every
length in its buffer (R33, R34, R206), also while a handler is blocked, a transmission is in flight exactly while ML
waits for it, and during it, and during a ranging transmission (log 37), the receiver is disarmed (R173, R357). The canonical form of memories (log 13, log 14) and ML's phases
(log 4) are the model's own. -/
def Obligations.EveryStepKeepsTheInvariant : Prop :=
  ∀ s t : State, MachineInv s → step s = .next t → MachineInv t

/-- R137, R300, R318: the block never stops. From a state of the invariant, under the contract of `EXT` and with a
stimulus that R105 and R178 allow, a step always goes on: no fault, no refusal. Where the model stops is said in logs
21, 23 and 24. -/
def Obligations.AllowedStepsNeverStop : Prop :=
  ∀ s : State, MachineInv s → extContract s.cfg → stimulusAllowed s → Safe s
end

