-- ==== Sys2Proof/Laws/Memory.lean ====
section
/-! SUPPORT. What reading a buffer gives after a write, and that every memory operation keeps the canonical form. -/

namespace Sys2Proof.Machine

theorem Memory.byteAt_of_forall_ne {m : Memory} {k : Nat} (h : ∀ c ∈ m, c.1 ≠ k) :
    m.byteAt k = Memory.unlisted := by
  induction m with
  | nil => rfl
  | cons c m ih =>
    have hc := h c (by simp)
    simp only [Memory.byteAt, hc, if_false]
    exact ih fun d hd => h d (by simp [hd])

theorem Memory.byteAt_append_of_forall_ne {x y : Memory} {k : Nat} (h : ∀ c ∈ x, c.1 ≠ k) :
    Memory.byteAt (x ++ y) k = y.byteAt k := by
  induction x with
  | nil => rfl
  | cons c x ih =>
    have hc := h c (by simp)
    simp only [List.cons_append, Memory.byteAt, hc, if_false]
    exact ih fun d hd => h d (by simp [hd])

theorem Memory.byteAt_append_of_unlisted {x y : Memory} {k : Nat} (h : ∀ c ∈ y, c.1 ≠ k) :
    Memory.byteAt (x ++ y) k = x.byteAt k := by
  induction x with
  | nil => exact Memory.byteAt_of_forall_ne h
  | cons c x ih => simp only [List.cons_append, Memory.byteAt, ih]

theorem Memory.byteAt_filter {m : Memory} {p : Host.Cell → Bool} {k : Nat}
    (h : ∀ c : Host.Cell, c.1 = k → p c = true) : Memory.byteAt (m.filter p) k = m.byteAt k := by
  induction m with
  | nil => rfl
  | cons c m ih =>
    by_cases hk : c.1 = k
    · simp [Memory.byteAt, h c hk, hk]
    · cases hp : p c <;> simp [Memory.byteAt, hp, hk, ih]

theorem Memory.mem_cellsOf {a : Nat} {bs : List Byte} {c : Host.Cell} (h : c ∈ Memory.cellsOf a bs) :
    a ≤ c.1 ∧ c.1 < a + bs.length ∧ c.2 ≠ Memory.unlisted := by
  induction bs generalizing a with
  | nil => simp [Memory.cellsOf] at h
  | cons b bs ih =>
    simp only [Memory.cellsOf] at h
    have step : c ∈ Memory.cellsOf (a + 1) bs → a ≤ c.1 ∧ c.1 < a + (b :: bs).length ∧ c.2 ≠ Memory.unlisted := by
      intro hc
      obtain ⟨h1, h2, h3⟩ := ih hc
      exact ⟨by omega, by simp only [List.length_cons]; omega, h3⟩
    split at h
    · exact step h
    · rcases List.mem_cons.mp h with rfl | hc
      · exact ⟨Nat.le_refl _, by simp, by assumption⟩
      · exact step hc

theorem Memory.byteAt_cellsOf {a : Nat} {bs : List Byte} {k : Nat} (ha : a ≤ k) (hk : k < a + bs.length) :
    (Memory.cellsOf a bs).byteAt k = bs.getD (k - a) Memory.unlisted := by
  induction bs generalizing a with
  | nil => simp at hk; omega
  | cons b bs ih =>
    simp only [Memory.cellsOf]
    by_cases he : a = k
    · subst he
      have hne : ∀ c ∈ Memory.cellsOf (a + 1) bs, c.1 ≠ a := fun c hc => by
        have := (Memory.mem_cellsOf hc).1; omega
      split
      · rename_i hb; simp [Memory.byteAt_of_forall_ne hne, hb]
      · simp [Memory.byteAt]
    · have hrec : (Memory.cellsOf (a + 1) bs).byteAt k = bs.getD (k - (a + 1)) Memory.unlisted :=
        ih (by omega) (by simp only [List.length_cons] at hk; omega)
      have hidx : k - a = (k - (a + 1)) + 1 := by omega
      split
      · rw [hrec, hidx]; rfl
      · simp only [Memory.byteAt, he, if_false]; rw [hrec, hidx]; rfl

theorem Memory.mem_below {m : Memory} {a : Nat} {c : Host.Cell} : c ∈ m.below a ↔ c ∈ m ∧ c.1 < a := by
  simp [Memory.below]

theorem Memory.mem_from {m : Memory} {a : Nat} {c : Host.Cell} : c ∈ m.from a ↔ c ∈ m ∧ a ≤ c.1 := by
  simp [Memory.from]

/-- Reading a byte after a write: the written byte inside the written range, the old byte outside it. -/
theorem Memory.byteAt_writeBytes (m : Memory) (a : Nat) (bs : List Byte) (k : Nat) :
    (m.writeBytes a bs).byteAt k =
      if a ≤ k ∧ k < a + bs.length then bs.getD (k - a) Memory.unlisted else m.byteAt k := by
  have hb : k < a ∨ ∀ c ∈ m.below a, c.1 ≠ k := by
    by_cases h : k < a
    · exact .inl h
    · exact .inr fun c hc => by have := (Memory.mem_below.mp hc).2; omega
  have hf : a + bs.length ≤ k ∨ ∀ c ∈ m.from (a + bs.length), c.1 ≠ k := by
    by_cases h : a + bs.length ≤ k
    · exact .inl h
    · exact .inr fun c hc => by have := (Memory.mem_from.mp hc).2; omega
  have hc : (a ≤ k ∧ k < a + bs.length) ∨ ∀ c ∈ Memory.cellsOf a bs, c.1 ≠ k := by
    by_cases h : a ≤ k ∧ k < a + bs.length
    · exact .inl h
    · exact .inr fun c hc => by have := Memory.mem_cellsOf hc; omega
  unfold Memory.writeBytes
  by_cases hin : a ≤ k ∧ k < a + bs.length
  · rw [if_pos hin, Memory.byteAt_append_of_unlisted (hf.resolve_left (by omega)),
      Memory.byteAt_append_of_forall_ne (hb.resolve_left (by omega)), Memory.byteAt_cellsOf hin.1 hin.2]
  · rw [if_neg hin]
    have hc' := hc.resolve_left hin
    by_cases hlt : k < a
    · rw [Memory.byteAt_append_of_unlisted (hf.resolve_left (by omega)), Memory.byteAt_append_of_unlisted hc']
      exact Memory.byteAt_filter fun c hk => by simpa [hk] using hlt
    · rw [List.append_assoc, Memory.byteAt_append_of_forall_ne (hb.resolve_left hlt),
        Memory.byteAt_append_of_forall_ne hc']
      exact Memory.byteAt_filter fun c hk => by simp [hk]; omega

/-- Outside the written bytes a byte reads as before. -/
theorem Memory.byteAt_writeBytes_of_not_mem {m : Memory} {a : Nat} {bs : List Byte} {k : Nat}
    (h : k < a ∨ a + bs.length ≤ k) : (m.writeBytes a bs).byteAt k = m.byteAt k := by
  rw [Memory.byteAt_writeBytes, if_neg (by omega)]

@[simp] theorem Memory.length_readBytes (m : Memory) (a n : Nat) : (m.readBytes a n).length = n := by
  simp [Memory.readBytes]

/-- Reading the written range gives the written bytes. -/
theorem Memory.readBytes_writeBytes_same (m : Memory) (a : Nat) (bs : List Byte) :
    (m.writeBytes a bs).readBytes a bs.length = bs := by
  apply List.ext_getElem (by simp)
  intro i h1 h2
  simp only [Memory.readBytes, List.getElem_map, List.getElem_range, Memory.byteAt_writeBytes]
  rw [if_pos (by omega)]
  simp [List.getD_eq_getElem?_getD, h2]

/-- Reading a range that a write does not meet gives what it gave. -/
theorem Memory.readBytes_writeBytes_disjoint {m : Memory} {a b n : Nat} {bs : List Byte}
    (h : b + n ≤ a ∨ a + bs.length ≤ b) : (m.writeBytes a bs).readBytes b n = m.readBytes b n := by
  simp only [Memory.readBytes]
  refine List.map_congr_left fun i hi => ?_
  rw [List.mem_range] at hi
  exact Memory.byteAt_writeBytes_of_not_mem (by omega)

theorem Memory.wf_nil : Memory.wf [] := by simp [Memory.wf]

theorem Memory.wf_filter {m : Memory} (h : m.wf) (p : Host.Cell → Bool) : Memory.wf (m.filter p) :=
  ⟨h.1.filter p, fun c hc => h.2 c (List.mem_of_mem_filter hc)⟩

theorem Memory.wf_cellsOf (a : Nat) (bs : List Byte) : (Memory.cellsOf a bs).wf := by
  refine ⟨?_, fun c hc => (Memory.mem_cellsOf hc).2.2⟩
  induction bs generalizing a with
  | nil => simp [Memory.cellsOf]
  | cons b bs ih =>
    simp only [Memory.cellsOf]
    split
    · exact ih (a + 1)
    · refine List.pairwise_cons.mpr ⟨fun c hc => ?_, ih (a + 1)⟩
      have := (Memory.mem_cellsOf hc).1
      show a < c.1
      omega

/-- Three pieces in canonical form, each below the next, make one. -/
theorem Memory.wf_append3 {x y z : Memory} {a b : Nat} (hab : a ≤ b) (hx : x.wf) (hy : y.wf) (hz : z.wf)
    (hxa : ∀ c ∈ x, c.1 < a) (hya : ∀ c ∈ y, a ≤ c.1 ∧ c.1 < b) (hzb : ∀ c ∈ z, b ≤ c.1) :
    Memory.wf (x ++ y ++ z) := by
  refine ⟨?_, ?_⟩
  · refine List.pairwise_append.mpr ⟨List.pairwise_append.mpr ⟨hx.1, hy.1, fun c hc d hd => ?_⟩, hz.1, fun c hc d hd => ?_⟩
    · exact Nat.lt_of_lt_of_le (hxa c hc) (hya d hd).1
    · rcases List.mem_append.mp hc with h | h
      · exact Nat.lt_of_lt_of_le (hxa c h) (Nat.le_trans hab (hzb d hd))
      · exact Nat.lt_of_lt_of_le (hya c h).2 (hzb d hd)
  · intro c hc
    rcases List.mem_append.mp hc with h | h
    · rcases List.mem_append.mp h with h | h
      · exact hx.2 c h
      · exact hy.2 c h
    · exact hz.2 c h

/-- A write keeps the canonical form. -/
theorem Memory.wf_writeBytes {m : Memory} (h : m.wf) (a : Nat) (bs : List Byte) : (m.writeBytes a bs).wf :=
  Memory.wf_append3 (Nat.le_add_right a bs.length) (Memory.wf_filter h _) (Memory.wf_cellsOf a bs)
    (Memory.wf_filter h _) (fun _ hc => (Memory.mem_below.mp hc).2)
    (fun _ hc => ⟨(Memory.mem_cellsOf hc).1, (Memory.mem_cellsOf hc).2.1⟩) (fun _ hc => (Memory.mem_from.mp hc).2)

theorem Memory.cellsOf_replicate_unlisted (a n : Nat) :
    Memory.cellsOf a (List.replicate n Memory.unlisted) = [] := by
  induction n generalizing a with
  | zero => rfl
  | succ n ih => simp [List.replicate_succ, Memory.cellsOf, ih]

/-- A fill is the write of `n` equal bytes. -/
theorem Memory.fill_eq_writeBytes (m : Memory) (a n : Nat) (v : Byte) :
    m.fill a n v = m.writeBytes a (List.replicate n v) := by
  unfold Memory.fill Memory.writeBytes
  split
  · rename_i h; subst h; rw [Memory.cellsOf_replicate_unlisted, List.length_replicate]
  · rw [List.length_replicate]

/-- A filled range reads as the value, and every other byte as before. -/
theorem Memory.byteAt_fill (m : Memory) (a n : Nat) (v : Byte) (k : Nat) :
    (m.fill a n v).byteAt k = if a ≤ k ∧ k < a + n then v else m.byteAt k := by
  simp only [Memory.fill_eq_writeBytes, Memory.byteAt_writeBytes, List.length_replicate]
  split
  · rw [List.getD_eq_getElem?_getD, List.getElem?_replicate, if_pos (by omega)]
    rfl
  · rfl

/-- A fill keeps the canonical form. -/
theorem Memory.wf_fill {m : Memory} (h : m.wf) (a n : Nat) (v : Byte) : (m.fill a n v).wf := by
  rw [Memory.fill_eq_writeBytes]; exact Memory.wf_writeBytes h a _

/-- Equal memories are equal data: two canonical memories that read alike are one. -/
theorem Memory.ext_of_wf {m n : Memory} (hm : m.wf) (hn : n.wf) (h : ∀ k, m.byteAt k = n.byteAt k) : m = n := by
  induction m generalizing n with
  | nil =>
    cases n with
    | nil => rfl
    | cons d n =>
      have := h d.1
      simp only [Memory.byteAt, if_true] at this
      exact absurd this.symm (hn.2 d (by simp))
  | cons c m ih =>
    cases n with
    | nil =>
      have := h c.1
      simp only [Memory.byteAt, if_true] at this
      exact absurd this (hm.2 c (by simp))
    | cons d n =>
      obtain ⟨hcm, hmp⟩ := List.pairwise_cons.mp hm.1
      obtain ⟨hdn, hnp⟩ := List.pairwise_cons.mp hn.1
      have key : c.1 = d.1 := by
        rcases Nat.lt_trichotomy c.1 d.1 with hlt | he | hlt
        · have hk := h c.1
          rw [Memory.byteAt_of_forall_ne (m := d :: n) (fun e he => by
            rcases List.mem_cons.mp he with rfl | he
            · omega
            · have := hdn e he; omega)] at hk
          simp only [Memory.byteAt, if_true] at hk
          exact absurd hk (hm.2 c (by simp))
        · exact he
        · have hk := h d.1
          rw [Memory.byteAt_of_forall_ne (m := c :: m) (fun e he => by
            rcases List.mem_cons.mp he with rfl | he
            · omega
            · have := hcm e he; omega)] at hk
          simp only [Memory.byteAt, if_true] at hk
          exact absurd hk.symm (hn.2 d (by simp))
      have val : c.2 = d.2 := by
        have := h c.1
        simpa [Memory.byteAt, key] using this
      have tail : m = n := by
        refine ih ⟨hmp, fun e he => hm.2 e (by simp [he])⟩ ⟨hnp, fun e he => hn.2 e (by simp [he])⟩ fun k => ?_
        by_cases hk : c.1 = k
        · rw [Memory.byteAt_of_forall_ne fun e he => by have := hcm e he; omega,
            Memory.byteAt_of_forall_ne fun e he => by have := hdn e he; omega]
        · have := h k
          simpa [Memory.byteAt, hk, ← key] using this
      rw [tail, show c = d from Prod.ext key val]

end Sys2Proof.Machine
end

