-- ==== Sys2Proof/Laws/State.lean ====
section
/-! SUPPORT. What each shared update of State does to each field: the small lemmas that later proofs cite instead of
unfolding a record update. -/

namespace Sys2Proof.Machine

/-! ### `emit` -/

@[simp] theorem State.emit_cfg (s : State) (o : Output) : (s.emit o).cfg = s.cfg := rfl
@[simp] theorem State.emit_port0 (s : State) (o : Output) : (s.emit o).port0 = s.port0 := rfl
@[simp] theorem State.emit_port1 (s : State) (o : Output) : (s.emit o).port1 = s.port1 := rfl
@[simp] theorem State.emit_rxArmed (s : State) (o : Output) : (s.emit o).rxArmed = s.rxArmed := rfl
@[simp] theorem State.emit_rxFull (s : State) (o : Output) : (s.emit o).rxFull = s.rxFull := rfl
@[simp] theorem State.emit_rxBuf (s : State) (o : Output) : (s.emit o).rxBuf = s.rxBuf := rfl
@[simp] theorem State.emit_txBusy (s : State) (o : Output) : (s.emit o).txBusy = s.txBusy := rfl
@[simp] theorem State.emit_txBuf (s : State) (o : Output) : (s.emit o).txBuf = s.txBuf := rfl
@[simp] theorem State.emit_radioGood (s : State) (o : Output) : (s.emit o).radioGood = s.radioGood := rfl
@[simp] theorem State.emit_radioRejCrc (s : State) (o : Output) : (s.emit o).radioRejCrc = s.radioRejCrc := rfl
@[simp] theorem State.emit_radioRejOther (s : State) (o : Output) : (s.emit o).radioRejOther = s.radioRejOther := rfl
@[simp] theorem State.emit_radioSent (s : State) (o : Output) : (s.emit o).radioSent = s.radioSent := rfl
@[simp] theorem State.emit_msg (s : State) (o : Output) : (s.emit o).msg = s.msg := rfl
@[simp] theorem State.emit_msgLen (s : State) (o : Output) : (s.emit o).msgLen = s.msgLen := rfl
@[simp] theorem State.emit_msgSrc (s : State) (o : Output) : (s.emit o).msgSrc = s.msgSrc := rfl
@[simp] theorem State.emit_msgFbit (s : State) (o : Output) : (s.emit o).msgFbit = s.msgFbit := rfl
@[simp] theorem State.emit_reply (s : State) (o : Output) : (s.emit o).reply = s.reply := rfl
@[simp] theorem State.emit_replyLen (s : State) (o : Output) : (s.emit o).replyLen = s.replyLen := rfl
@[simp] theorem State.emit_cmdRecognized (s : State) (o : Output) : (s.emit o).cmdRecognized = s.cmdRecognized := rfl
@[simp] theorem State.emit_callsign (s : State) (o : Output) : (s.emit o).callsign = s.callsign := rfl
@[simp] theorem State.emit_callsignLen (s : State) (o : Output) : (s.emit o).callsignLen = s.callsignLen := rfl
@[simp] theorem State.emit_timeSet (s : State) (o : Output) : (s.emit o).timeSet = s.timeSet := rfl
@[simp] theorem State.emit_timeVal (s : State) (o : Output) : (s.emit o).timeVal = s.timeVal := rfl
@[simp] theorem State.emit_keepalive (s : State) (o : Output) : (s.emit o).keepalive = s.keepalive := rfl
@[simp] theorem State.emit_uptime (s : State) (o : Output) : (s.emit o).uptime = s.uptime := rfl
@[simp] theorem State.emit_deadline (s : State) (o : Output) : (s.emit o).deadline = s.deadline := rfl
@[simp] theorem State.emit_idleTicks (s : State) (o : Output) : (s.emit o).idleTicks = s.idleTicks := rfl
@[simp] theorem State.emit_flash (s : State) (o : Output) : (s.emit o).flash = s.flash := rfl
@[simp] theorem State.emit_ml (s : State) (o : Output) : (s.emit o).ml = s.ml := rfl
@[simp] theorem State.emit_rebootLine (s : State) (o : Output) : (s.emit o).rebootLine = s.rebootLine := rfl
@[simp] theorem State.emit_stim (s : State) (o : Output) : (s.emit o).stim = s.stim := rfl
@[simp] theorem State.emit_outs (s : State) (o : Output) : (s.emit o).outs = s.outs ++ [o] := rfl
@[simp] theorem State.emit_events (s : State) (o : Output) : (s.emit o).events = s.events := rfl
@[simp] theorem State.emit_calls (s : State) (o : Output) : (s.emit o).calls = s.calls := rfl
@[simp] theorem State.emit_macEvals (s : State) (o : Output) : (s.emit o).macEvals = s.macEvals := rfl
@[simp] theorem State.emit_draws (s : State) (o : Output) : (s.emit o).draws = s.draws := rfl
@[simp] theorem State.emit_flashAnswers (s : State) (o : Output) : (s.emit o).flashAnswers = s.flashAnswers := rfl

/-! ### `raiseEvent` -/

@[simp] theorem State.raiseEvent_cfg (s : State) (e : Event) : (s.raiseEvent e).cfg = s.cfg := rfl
@[simp] theorem State.raiseEvent_port0 (s : State) (e : Event) : (s.raiseEvent e).port0 = s.port0 := rfl
@[simp] theorem State.raiseEvent_port1 (s : State) (e : Event) : (s.raiseEvent e).port1 = s.port1 := rfl
@[simp] theorem State.raiseEvent_rxArmed (s : State) (e : Event) : (s.raiseEvent e).rxArmed = s.rxArmed := rfl
@[simp] theorem State.raiseEvent_rxFull (s : State) (e : Event) : (s.raiseEvent e).rxFull = s.rxFull := rfl
@[simp] theorem State.raiseEvent_rxBuf (s : State) (e : Event) : (s.raiseEvent e).rxBuf = s.rxBuf := rfl
@[simp] theorem State.raiseEvent_txBusy (s : State) (e : Event) : (s.raiseEvent e).txBusy = s.txBusy := rfl
@[simp] theorem State.raiseEvent_txBuf (s : State) (e : Event) : (s.raiseEvent e).txBuf = s.txBuf := rfl
@[simp] theorem State.raiseEvent_radioGood (s : State) (e : Event) : (s.raiseEvent e).radioGood = s.radioGood := rfl
@[simp] theorem State.raiseEvent_radioRejCrc (s : State) (e : Event) : (s.raiseEvent e).radioRejCrc = s.radioRejCrc := rfl
@[simp] theorem State.raiseEvent_radioRejOther (s : State) (e : Event) : (s.raiseEvent e).radioRejOther = s.radioRejOther := rfl
@[simp] theorem State.raiseEvent_radioSent (s : State) (e : Event) : (s.raiseEvent e).radioSent = s.radioSent := rfl
@[simp] theorem State.raiseEvent_msg (s : State) (e : Event) : (s.raiseEvent e).msg = s.msg := rfl
@[simp] theorem State.raiseEvent_msgLen (s : State) (e : Event) : (s.raiseEvent e).msgLen = s.msgLen := rfl
@[simp] theorem State.raiseEvent_msgSrc (s : State) (e : Event) : (s.raiseEvent e).msgSrc = s.msgSrc := rfl
@[simp] theorem State.raiseEvent_msgFbit (s : State) (e : Event) : (s.raiseEvent e).msgFbit = s.msgFbit := rfl
@[simp] theorem State.raiseEvent_reply (s : State) (e : Event) : (s.raiseEvent e).reply = s.reply := rfl
@[simp] theorem State.raiseEvent_replyLen (s : State) (e : Event) : (s.raiseEvent e).replyLen = s.replyLen := rfl
@[simp] theorem State.raiseEvent_cmdRecognized (s : State) (e : Event) : (s.raiseEvent e).cmdRecognized = s.cmdRecognized := rfl
@[simp] theorem State.raiseEvent_callsign (s : State) (e : Event) : (s.raiseEvent e).callsign = s.callsign := rfl
@[simp] theorem State.raiseEvent_callsignLen (s : State) (e : Event) : (s.raiseEvent e).callsignLen = s.callsignLen := rfl
@[simp] theorem State.raiseEvent_timeSet (s : State) (e : Event) : (s.raiseEvent e).timeSet = s.timeSet := rfl
@[simp] theorem State.raiseEvent_timeVal (s : State) (e : Event) : (s.raiseEvent e).timeVal = s.timeVal := rfl
@[simp] theorem State.raiseEvent_keepalive (s : State) (e : Event) : (s.raiseEvent e).keepalive = s.keepalive := rfl
@[simp] theorem State.raiseEvent_uptime (s : State) (e : Event) : (s.raiseEvent e).uptime = s.uptime := rfl
@[simp] theorem State.raiseEvent_deadline (s : State) (e : Event) : (s.raiseEvent e).deadline = s.deadline := rfl
@[simp] theorem State.raiseEvent_idleTicks (s : State) (e : Event) : (s.raiseEvent e).idleTicks = s.idleTicks := rfl
@[simp] theorem State.raiseEvent_flash (s : State) (e : Event) : (s.raiseEvent e).flash = s.flash := rfl
@[simp] theorem State.raiseEvent_ml (s : State) (e : Event) : (s.raiseEvent e).ml = s.ml := rfl
@[simp] theorem State.raiseEvent_rebootLine (s : State) (e : Event) : (s.raiseEvent e).rebootLine = s.rebootLine := rfl
@[simp] theorem State.raiseEvent_stim (s : State) (e : Event) : (s.raiseEvent e).stim = s.stim := rfl
@[simp] theorem State.raiseEvent_outs (s : State) (e : Event) : (s.raiseEvent e).outs = s.outs := rfl
@[simp] theorem State.raiseEvent_events (s : State) (e : Event) : (s.raiseEvent e).events = s.events ++ [e] := rfl
@[simp] theorem State.raiseEvent_calls (s : State) (e : Event) : (s.raiseEvent e).calls = s.calls := rfl
@[simp] theorem State.raiseEvent_macEvals (s : State) (e : Event) : (s.raiseEvent e).macEvals = s.macEvals := rfl
@[simp] theorem State.raiseEvent_draws (s : State) (e : Event) : (s.raiseEvent e).draws = s.draws := rfl
@[simp] theorem State.raiseEvent_flashAnswers (s : State) (e : Event) : (s.raiseEvent e).flashAnswers = s.flashAnswers := rfl

/-! ### `logCall` -/

@[simp] theorem State.logCall_cfg (s : State) (c : Call) : (s.logCall c).cfg = s.cfg := rfl
@[simp] theorem State.logCall_port0 (s : State) (c : Call) : (s.logCall c).port0 = s.port0 := rfl
@[simp] theorem State.logCall_port1 (s : State) (c : Call) : (s.logCall c).port1 = s.port1 := rfl
@[simp] theorem State.logCall_rxArmed (s : State) (c : Call) : (s.logCall c).rxArmed = s.rxArmed := rfl
@[simp] theorem State.logCall_rxFull (s : State) (c : Call) : (s.logCall c).rxFull = s.rxFull := rfl
@[simp] theorem State.logCall_rxBuf (s : State) (c : Call) : (s.logCall c).rxBuf = s.rxBuf := rfl
@[simp] theorem State.logCall_txBusy (s : State) (c : Call) : (s.logCall c).txBusy = s.txBusy := rfl
@[simp] theorem State.logCall_txBuf (s : State) (c : Call) : (s.logCall c).txBuf = s.txBuf := rfl
@[simp] theorem State.logCall_radioGood (s : State) (c : Call) : (s.logCall c).radioGood = s.radioGood := rfl
@[simp] theorem State.logCall_radioRejCrc (s : State) (c : Call) : (s.logCall c).radioRejCrc = s.radioRejCrc := rfl
@[simp] theorem State.logCall_radioRejOther (s : State) (c : Call) : (s.logCall c).radioRejOther = s.radioRejOther := rfl
@[simp] theorem State.logCall_radioSent (s : State) (c : Call) : (s.logCall c).radioSent = s.radioSent := rfl
@[simp] theorem State.logCall_msg (s : State) (c : Call) : (s.logCall c).msg = s.msg := rfl
@[simp] theorem State.logCall_msgLen (s : State) (c : Call) : (s.logCall c).msgLen = s.msgLen := rfl
@[simp] theorem State.logCall_msgSrc (s : State) (c : Call) : (s.logCall c).msgSrc = s.msgSrc := rfl
@[simp] theorem State.logCall_msgFbit (s : State) (c : Call) : (s.logCall c).msgFbit = s.msgFbit := rfl
@[simp] theorem State.logCall_reply (s : State) (c : Call) : (s.logCall c).reply = s.reply := rfl
@[simp] theorem State.logCall_replyLen (s : State) (c : Call) : (s.logCall c).replyLen = s.replyLen := rfl
@[simp] theorem State.logCall_cmdRecognized (s : State) (c : Call) : (s.logCall c).cmdRecognized = s.cmdRecognized := rfl
@[simp] theorem State.logCall_callsign (s : State) (c : Call) : (s.logCall c).callsign = s.callsign := rfl
@[simp] theorem State.logCall_callsignLen (s : State) (c : Call) : (s.logCall c).callsignLen = s.callsignLen := rfl
@[simp] theorem State.logCall_timeSet (s : State) (c : Call) : (s.logCall c).timeSet = s.timeSet := rfl
@[simp] theorem State.logCall_timeVal (s : State) (c : Call) : (s.logCall c).timeVal = s.timeVal := rfl
@[simp] theorem State.logCall_keepalive (s : State) (c : Call) : (s.logCall c).keepalive = s.keepalive := rfl
@[simp] theorem State.logCall_uptime (s : State) (c : Call) : (s.logCall c).uptime = s.uptime := rfl
@[simp] theorem State.logCall_deadline (s : State) (c : Call) : (s.logCall c).deadline = s.deadline := rfl
@[simp] theorem State.logCall_idleTicks (s : State) (c : Call) : (s.logCall c).idleTicks = s.idleTicks := rfl
@[simp] theorem State.logCall_flash (s : State) (c : Call) : (s.logCall c).flash = s.flash := rfl
@[simp] theorem State.logCall_ml (s : State) (c : Call) : (s.logCall c).ml = s.ml := rfl
@[simp] theorem State.logCall_rebootLine (s : State) (c : Call) : (s.logCall c).rebootLine = s.rebootLine := rfl
@[simp] theorem State.logCall_stim (s : State) (c : Call) : (s.logCall c).stim = s.stim := rfl
@[simp] theorem State.logCall_outs (s : State) (c : Call) : (s.logCall c).outs = s.outs := rfl
@[simp] theorem State.logCall_events (s : State) (c : Call) : (s.logCall c).events = s.events := rfl
@[simp] theorem State.logCall_calls (s : State) (c : Call) : (s.logCall c).calls = s.calls ++ [c] := rfl
@[simp] theorem State.logCall_macEvals (s : State) (c : Call) : (s.logCall c).macEvals = s.macEvals := rfl
@[simp] theorem State.logCall_draws (s : State) (c : Call) : (s.logCall c).draws = s.draws := rfl
@[simp] theorem State.logCall_flashAnswers (s : State) (c : Call) : (s.logCall c).flashAnswers = s.flashAnswers := rfl

/-! ### `setPort` -/

@[simp] theorem State.setPort_cfg (s : State) (p : Port) (v : SerialPort) : (s.setPort p v).cfg = s.cfg := by cases p <;> rfl
@[simp] theorem State.setPort_rxArmed (s : State) (p : Port) (v : SerialPort) : (s.setPort p v).rxArmed = s.rxArmed := by cases p <;> rfl
@[simp] theorem State.setPort_rxFull (s : State) (p : Port) (v : SerialPort) : (s.setPort p v).rxFull = s.rxFull := by cases p <;> rfl
@[simp] theorem State.setPort_rxBuf (s : State) (p : Port) (v : SerialPort) : (s.setPort p v).rxBuf = s.rxBuf := by cases p <;> rfl
@[simp] theorem State.setPort_txBusy (s : State) (p : Port) (v : SerialPort) : (s.setPort p v).txBusy = s.txBusy := by cases p <;> rfl
@[simp] theorem State.setPort_txBuf (s : State) (p : Port) (v : SerialPort) : (s.setPort p v).txBuf = s.txBuf := by cases p <;> rfl
@[simp] theorem State.setPort_radioGood (s : State) (p : Port) (v : SerialPort) : (s.setPort p v).radioGood = s.radioGood := by cases p <;> rfl
@[simp] theorem State.setPort_radioRejCrc (s : State) (p : Port) (v : SerialPort) : (s.setPort p v).radioRejCrc = s.radioRejCrc := by cases p <;> rfl
@[simp] theorem State.setPort_radioRejOther (s : State) (p : Port) (v : SerialPort) : (s.setPort p v).radioRejOther = s.radioRejOther := by cases p <;> rfl
@[simp] theorem State.setPort_radioSent (s : State) (p : Port) (v : SerialPort) : (s.setPort p v).radioSent = s.radioSent := by cases p <;> rfl
@[simp] theorem State.setPort_msg (s : State) (p : Port) (v : SerialPort) : (s.setPort p v).msg = s.msg := by cases p <;> rfl
@[simp] theorem State.setPort_msgLen (s : State) (p : Port) (v : SerialPort) : (s.setPort p v).msgLen = s.msgLen := by cases p <;> rfl
@[simp] theorem State.setPort_msgSrc (s : State) (p : Port) (v : SerialPort) : (s.setPort p v).msgSrc = s.msgSrc := by cases p <;> rfl
@[simp] theorem State.setPort_msgFbit (s : State) (p : Port) (v : SerialPort) : (s.setPort p v).msgFbit = s.msgFbit := by cases p <;> rfl
@[simp] theorem State.setPort_reply (s : State) (p : Port) (v : SerialPort) : (s.setPort p v).reply = s.reply := by cases p <;> rfl
@[simp] theorem State.setPort_replyLen (s : State) (p : Port) (v : SerialPort) : (s.setPort p v).replyLen = s.replyLen := by cases p <;> rfl
@[simp] theorem State.setPort_cmdRecognized (s : State) (p : Port) (v : SerialPort) : (s.setPort p v).cmdRecognized = s.cmdRecognized := by cases p <;> rfl
@[simp] theorem State.setPort_callsign (s : State) (p : Port) (v : SerialPort) : (s.setPort p v).callsign = s.callsign := by cases p <;> rfl
@[simp] theorem State.setPort_callsignLen (s : State) (p : Port) (v : SerialPort) : (s.setPort p v).callsignLen = s.callsignLen := by cases p <;> rfl
@[simp] theorem State.setPort_timeSet (s : State) (p : Port) (v : SerialPort) : (s.setPort p v).timeSet = s.timeSet := by cases p <;> rfl
@[simp] theorem State.setPort_timeVal (s : State) (p : Port) (v : SerialPort) : (s.setPort p v).timeVal = s.timeVal := by cases p <;> rfl
@[simp] theorem State.setPort_keepalive (s : State) (p : Port) (v : SerialPort) : (s.setPort p v).keepalive = s.keepalive := by cases p <;> rfl
@[simp] theorem State.setPort_uptime (s : State) (p : Port) (v : SerialPort) : (s.setPort p v).uptime = s.uptime := by cases p <;> rfl
@[simp] theorem State.setPort_deadline (s : State) (p : Port) (v : SerialPort) : (s.setPort p v).deadline = s.deadline := by cases p <;> rfl
@[simp] theorem State.setPort_idleTicks (s : State) (p : Port) (v : SerialPort) : (s.setPort p v).idleTicks = s.idleTicks := by cases p <;> rfl
@[simp] theorem State.setPort_flash (s : State) (p : Port) (v : SerialPort) : (s.setPort p v).flash = s.flash := by cases p <;> rfl
@[simp] theorem State.setPort_ml (s : State) (p : Port) (v : SerialPort) : (s.setPort p v).ml = s.ml := by cases p <;> rfl
@[simp] theorem State.setPort_rebootLine (s : State) (p : Port) (v : SerialPort) : (s.setPort p v).rebootLine = s.rebootLine := by cases p <;> rfl
@[simp] theorem State.setPort_stim (s : State) (p : Port) (v : SerialPort) : (s.setPort p v).stim = s.stim := by cases p <;> rfl
@[simp] theorem State.setPort_outs (s : State) (p : Port) (v : SerialPort) : (s.setPort p v).outs = s.outs := by cases p <;> rfl
@[simp] theorem State.setPort_events (s : State) (p : Port) (v : SerialPort) : (s.setPort p v).events = s.events := by cases p <;> rfl
@[simp] theorem State.setPort_calls (s : State) (p : Port) (v : SerialPort) : (s.setPort p v).calls = s.calls := by cases p <;> rfl
@[simp] theorem State.setPort_macEvals (s : State) (p : Port) (v : SerialPort) : (s.setPort p v).macEvals = s.macEvals := by cases p <;> rfl
@[simp] theorem State.setPort_draws (s : State) (p : Port) (v : SerialPort) : (s.setPort p v).draws = s.draws := by cases p <;> rfl
@[simp] theorem State.setPort_flashAnswers (s : State) (p : Port) (v : SerialPort) : (s.setPort p v).flashAnswers = s.flashAnswers := by cases p <;> rfl

/-! ### `drain` -/

@[simp] theorem State.drain_cfg (s : State) : (s.drain).cfg = s.cfg := rfl
@[simp] theorem State.drain_port0 (s : State) : (s.drain).port0 = s.port0 := rfl
@[simp] theorem State.drain_port1 (s : State) : (s.drain).port1 = s.port1 := rfl
@[simp] theorem State.drain_rxArmed (s : State) : (s.drain).rxArmed = true := rfl
@[simp] theorem State.drain_rxFull (s : State) : (s.drain).rxFull = false := rfl
@[simp] theorem State.drain_rxBuf (s : State) : (s.drain).rxBuf = s.rxBuf := rfl
@[simp] theorem State.drain_txBusy (s : State) : (s.drain).txBusy = s.txBusy := rfl
@[simp] theorem State.drain_txBuf (s : State) : (s.drain).txBuf = s.txBuf := rfl
@[simp] theorem State.drain_radioGood (s : State) : (s.drain).radioGood = s.radioGood := rfl
@[simp] theorem State.drain_radioRejCrc (s : State) : (s.drain).radioRejCrc = s.radioRejCrc := rfl
@[simp] theorem State.drain_radioRejOther (s : State) : (s.drain).radioRejOther = s.radioRejOther := rfl
@[simp] theorem State.drain_radioSent (s : State) : (s.drain).radioSent = s.radioSent := rfl
@[simp] theorem State.drain_msg (s : State) : (s.drain).msg = s.msg := rfl
@[simp] theorem State.drain_msgLen (s : State) : (s.drain).msgLen = s.msgLen := rfl
@[simp] theorem State.drain_msgSrc (s : State) : (s.drain).msgSrc = s.msgSrc := rfl
@[simp] theorem State.drain_msgFbit (s : State) : (s.drain).msgFbit = s.msgFbit := rfl
@[simp] theorem State.drain_reply (s : State) : (s.drain).reply = s.reply := rfl
@[simp] theorem State.drain_replyLen (s : State) : (s.drain).replyLen = s.replyLen := rfl
@[simp] theorem State.drain_cmdRecognized (s : State) : (s.drain).cmdRecognized = s.cmdRecognized := rfl
@[simp] theorem State.drain_callsign (s : State) : (s.drain).callsign = s.callsign := rfl
@[simp] theorem State.drain_callsignLen (s : State) : (s.drain).callsignLen = s.callsignLen := rfl
@[simp] theorem State.drain_timeSet (s : State) : (s.drain).timeSet = s.timeSet := rfl
@[simp] theorem State.drain_timeVal (s : State) : (s.drain).timeVal = s.timeVal := rfl
@[simp] theorem State.drain_keepalive (s : State) : (s.drain).keepalive = s.keepalive := rfl
@[simp] theorem State.drain_uptime (s : State) : (s.drain).uptime = s.uptime := rfl
@[simp] theorem State.drain_deadline (s : State) : (s.drain).deadline = s.deadline := rfl
@[simp] theorem State.drain_idleTicks (s : State) : (s.drain).idleTicks = s.idleTicks := rfl
@[simp] theorem State.drain_flash (s : State) : (s.drain).flash = s.flash := rfl
@[simp] theorem State.drain_ml (s : State) : (s.drain).ml = s.ml := rfl
@[simp] theorem State.drain_rebootLine (s : State) : (s.drain).rebootLine = s.rebootLine := rfl
@[simp] theorem State.drain_stim (s : State) : (s.drain).stim = s.stim := rfl
@[simp] theorem State.drain_outs (s : State) : (s.drain).outs = s.outs := rfl
@[simp] theorem State.drain_events (s : State) : (s.drain).events = s.events := rfl
@[simp] theorem State.drain_calls (s : State) : (s.drain).calls = s.calls := rfl
@[simp] theorem State.drain_macEvals (s : State) : (s.drain).macEvals = s.macEvals := rfl
@[simp] theorem State.drain_draws (s : State) : (s.drain).draws = s.draws := rfl
@[simp] theorem State.drain_flashAnswers (s : State) : (s.drain).flashAnswers = s.flashAnswers := rfl

/-! ### `takeMessage` -/

@[simp] theorem State.takeMessage_cfg (s : State) (d : List Byte) (src : Transport) (f : Bool) : (s.takeMessage d src f).cfg = s.cfg := rfl
@[simp] theorem State.takeMessage_port0 (s : State) (d : List Byte) (src : Transport) (f : Bool) : (s.takeMessage d src f).port0 = s.port0 := rfl
@[simp] theorem State.takeMessage_port1 (s : State) (d : List Byte) (src : Transport) (f : Bool) : (s.takeMessage d src f).port1 = s.port1 := rfl
@[simp] theorem State.takeMessage_rxArmed (s : State) (d : List Byte) (src : Transport) (f : Bool) : (s.takeMessage d src f).rxArmed = s.rxArmed := rfl
@[simp] theorem State.takeMessage_rxFull (s : State) (d : List Byte) (src : Transport) (f : Bool) : (s.takeMessage d src f).rxFull = s.rxFull := rfl
@[simp] theorem State.takeMessage_rxBuf (s : State) (d : List Byte) (src : Transport) (f : Bool) : (s.takeMessage d src f).rxBuf = s.rxBuf := rfl
@[simp] theorem State.takeMessage_txBusy (s : State) (d : List Byte) (src : Transport) (f : Bool) : (s.takeMessage d src f).txBusy = s.txBusy := rfl
@[simp] theorem State.takeMessage_txBuf (s : State) (d : List Byte) (src : Transport) (f : Bool) : (s.takeMessage d src f).txBuf = s.txBuf := rfl
@[simp] theorem State.takeMessage_radioGood (s : State) (d : List Byte) (src : Transport) (f : Bool) : (s.takeMessage d src f).radioGood = s.radioGood := rfl
@[simp] theorem State.takeMessage_radioRejCrc (s : State) (d : List Byte) (src : Transport) (f : Bool) : (s.takeMessage d src f).radioRejCrc = s.radioRejCrc := rfl
@[simp] theorem State.takeMessage_radioRejOther (s : State) (d : List Byte) (src : Transport) (f : Bool) : (s.takeMessage d src f).radioRejOther = s.radioRejOther := rfl
@[simp] theorem State.takeMessage_radioSent (s : State) (d : List Byte) (src : Transport) (f : Bool) : (s.takeMessage d src f).radioSent = s.radioSent := rfl
@[simp] theorem State.takeMessage_msg (s : State) (d : List Byte) (src : Transport) (f : Bool) : (s.takeMessage d src f).msg = s.msg.writeBytes 0 d := rfl
@[simp] theorem State.takeMessage_msgLen (s : State) (d : List Byte) (src : Transport) (f : Bool) : (s.takeMessage d src f).msgLen = BitVec.ofNat 8 d.length := rfl
@[simp] theorem State.takeMessage_msgSrc (s : State) (d : List Byte) (src : Transport) (f : Bool) : (s.takeMessage d src f).msgSrc = src := rfl
@[simp] theorem State.takeMessage_msgFbit (s : State) (d : List Byte) (src : Transport) (f : Bool) : (s.takeMessage d src f).msgFbit = f := rfl
@[simp] theorem State.takeMessage_reply (s : State) (d : List Byte) (src : Transport) (f : Bool) : (s.takeMessage d src f).reply = s.reply := rfl
@[simp] theorem State.takeMessage_replyLen (s : State) (d : List Byte) (src : Transport) (f : Bool) : (s.takeMessage d src f).replyLen = s.replyLen := rfl
@[simp] theorem State.takeMessage_cmdRecognized (s : State) (d : List Byte) (src : Transport) (f : Bool) : (s.takeMessage d src f).cmdRecognized = s.cmdRecognized := rfl
@[simp] theorem State.takeMessage_callsign (s : State) (d : List Byte) (src : Transport) (f : Bool) : (s.takeMessage d src f).callsign = s.callsign := rfl
@[simp] theorem State.takeMessage_callsignLen (s : State) (d : List Byte) (src : Transport) (f : Bool) : (s.takeMessage d src f).callsignLen = s.callsignLen := rfl
@[simp] theorem State.takeMessage_timeSet (s : State) (d : List Byte) (src : Transport) (f : Bool) : (s.takeMessage d src f).timeSet = s.timeSet := rfl
@[simp] theorem State.takeMessage_timeVal (s : State) (d : List Byte) (src : Transport) (f : Bool) : (s.takeMessage d src f).timeVal = s.timeVal := rfl
@[simp] theorem State.takeMessage_keepalive (s : State) (d : List Byte) (src : Transport) (f : Bool) : (s.takeMessage d src f).keepalive = s.keepalive := rfl
@[simp] theorem State.takeMessage_uptime (s : State) (d : List Byte) (src : Transport) (f : Bool) : (s.takeMessage d src f).uptime = s.uptime := rfl
@[simp] theorem State.takeMessage_deadline (s : State) (d : List Byte) (src : Transport) (f : Bool) : (s.takeMessage d src f).deadline = s.deadline := rfl
@[simp] theorem State.takeMessage_idleTicks (s : State) (d : List Byte) (src : Transport) (f : Bool) : (s.takeMessage d src f).idleTicks = s.idleTicks := rfl
@[simp] theorem State.takeMessage_flash (s : State) (d : List Byte) (src : Transport) (f : Bool) : (s.takeMessage d src f).flash = s.flash := rfl
@[simp] theorem State.takeMessage_ml (s : State) (d : List Byte) (src : Transport) (f : Bool) : (s.takeMessage d src f).ml = .dispatch := rfl
@[simp] theorem State.takeMessage_rebootLine (s : State) (d : List Byte) (src : Transport) (f : Bool) : (s.takeMessage d src f).rebootLine = s.rebootLine := rfl
@[simp] theorem State.takeMessage_stim (s : State) (d : List Byte) (src : Transport) (f : Bool) : (s.takeMessage d src f).stim = s.stim := rfl
@[simp] theorem State.takeMessage_outs (s : State) (d : List Byte) (src : Transport) (f : Bool) : (s.takeMessage d src f).outs = s.outs := rfl
@[simp] theorem State.takeMessage_events (s : State) (d : List Byte) (src : Transport) (f : Bool) : (s.takeMessage d src f).events = s.events := rfl
@[simp] theorem State.takeMessage_calls (s : State) (d : List Byte) (src : Transport) (f : Bool) : (s.takeMessage d src f).calls = s.calls := rfl
@[simp] theorem State.takeMessage_macEvals (s : State) (d : List Byte) (src : Transport) (f : Bool) : (s.takeMessage d src f).macEvals = s.macEvals := rfl
@[simp] theorem State.takeMessage_draws (s : State) (d : List Byte) (src : Transport) (f : Bool) : (s.takeMessage d src f).draws = s.draws := rfl
@[simp] theorem State.takeMessage_flashAnswers (s : State) (d : List Byte) (src : Transport) (f : Bool) : (s.takeMessage d src f).flashAnswers = s.flashAnswers := rfl

/-! ### `requestReboot` -/

@[simp] theorem State.requestReboot_cfg (s : State) : (s.requestReboot).cfg = s.cfg := rfl
@[simp] theorem State.requestReboot_port0 (s : State) : (s.requestReboot).port0 = s.port0 := rfl
@[simp] theorem State.requestReboot_port1 (s : State) : (s.requestReboot).port1 = s.port1 := rfl
@[simp] theorem State.requestReboot_rxArmed (s : State) : (s.requestReboot).rxArmed = s.rxArmed := rfl
@[simp] theorem State.requestReboot_rxFull (s : State) : (s.requestReboot).rxFull = s.rxFull := rfl
@[simp] theorem State.requestReboot_rxBuf (s : State) : (s.requestReboot).rxBuf = s.rxBuf := rfl
@[simp] theorem State.requestReboot_txBusy (s : State) : (s.requestReboot).txBusy = s.txBusy := rfl
@[simp] theorem State.requestReboot_txBuf (s : State) : (s.requestReboot).txBuf = s.txBuf := rfl
@[simp] theorem State.requestReboot_radioGood (s : State) : (s.requestReboot).radioGood = s.radioGood := rfl
@[simp] theorem State.requestReboot_radioRejCrc (s : State) : (s.requestReboot).radioRejCrc = s.radioRejCrc := rfl
@[simp] theorem State.requestReboot_radioRejOther (s : State) : (s.requestReboot).radioRejOther = s.radioRejOther := rfl
@[simp] theorem State.requestReboot_radioSent (s : State) : (s.requestReboot).radioSent = s.radioSent := rfl
@[simp] theorem State.requestReboot_msg (s : State) : (s.requestReboot).msg = s.msg := rfl
@[simp] theorem State.requestReboot_msgLen (s : State) : (s.requestReboot).msgLen = s.msgLen := rfl
@[simp] theorem State.requestReboot_msgSrc (s : State) : (s.requestReboot).msgSrc = s.msgSrc := rfl
@[simp] theorem State.requestReboot_msgFbit (s : State) : (s.requestReboot).msgFbit = s.msgFbit := rfl
@[simp] theorem State.requestReboot_reply (s : State) : (s.requestReboot).reply = s.reply := rfl
@[simp] theorem State.requestReboot_replyLen (s : State) : (s.requestReboot).replyLen = s.replyLen := rfl
@[simp] theorem State.requestReboot_cmdRecognized (s : State) : (s.requestReboot).cmdRecognized = s.cmdRecognized := rfl
@[simp] theorem State.requestReboot_callsign (s : State) : (s.requestReboot).callsign = s.callsign := rfl
@[simp] theorem State.requestReboot_callsignLen (s : State) : (s.requestReboot).callsignLen = s.callsignLen := rfl
@[simp] theorem State.requestReboot_timeSet (s : State) : (s.requestReboot).timeSet = s.timeSet := rfl
@[simp] theorem State.requestReboot_timeVal (s : State) : (s.requestReboot).timeVal = s.timeVal := rfl
@[simp] theorem State.requestReboot_keepalive (s : State) : (s.requestReboot).keepalive = s.keepalive := rfl
@[simp] theorem State.requestReboot_uptime (s : State) : (s.requestReboot).uptime = s.uptime := rfl
@[simp] theorem State.requestReboot_deadline (s : State) : (s.requestReboot).deadline = s.deadline := rfl
@[simp] theorem State.requestReboot_idleTicks (s : State) : (s.requestReboot).idleTicks = s.idleTicks := rfl
@[simp] theorem State.requestReboot_flash (s : State) : (s.requestReboot).flash = s.flash := rfl
@[simp] theorem State.requestReboot_ml (s : State) : (s.requestReboot).ml = s.ml := rfl
@[simp] theorem State.requestReboot_rebootLine (s : State) : (s.requestReboot).rebootLine = true := rfl
@[simp] theorem State.requestReboot_stim (s : State) : (s.requestReboot).stim = s.stim := rfl
@[simp] theorem State.requestReboot_outs (s : State) : (s.requestReboot).outs = s.outs ++ [.rebootReq] := rfl
@[simp] theorem State.requestReboot_events (s : State) : (s.requestReboot).events = s.events := rfl
@[simp] theorem State.requestReboot_calls (s : State) : (s.requestReboot).calls = s.calls := rfl
@[simp] theorem State.requestReboot_macEvals (s : State) : (s.requestReboot).macEvals = s.macEvals := rfl
@[simp] theorem State.requestReboot_draws (s : State) : (s.requestReboot).draws = s.draws := rfl
@[simp] theorem State.requestReboot_flashAnswers (s : State) : (s.requestReboot).flashAnswers = s.flashAnswers := rfl

/-! ### `replyInit` -/

@[simp] theorem State.replyInit_cfg (s : State) (h : Header) : (s.replyInit h).cfg = s.cfg := rfl
@[simp] theorem State.replyInit_port0 (s : State) (h : Header) : (s.replyInit h).port0 = s.port0 := rfl
@[simp] theorem State.replyInit_port1 (s : State) (h : Header) : (s.replyInit h).port1 = s.port1 := rfl
@[simp] theorem State.replyInit_rxArmed (s : State) (h : Header) : (s.replyInit h).rxArmed = s.rxArmed := rfl
@[simp] theorem State.replyInit_rxFull (s : State) (h : Header) : (s.replyInit h).rxFull = s.rxFull := rfl
@[simp] theorem State.replyInit_rxBuf (s : State) (h : Header) : (s.replyInit h).rxBuf = s.rxBuf := rfl
@[simp] theorem State.replyInit_txBusy (s : State) (h : Header) : (s.replyInit h).txBusy = s.txBusy := rfl
@[simp] theorem State.replyInit_txBuf (s : State) (h : Header) : (s.replyInit h).txBuf = s.txBuf := rfl
@[simp] theorem State.replyInit_radioGood (s : State) (h : Header) : (s.replyInit h).radioGood = s.radioGood := rfl
@[simp] theorem State.replyInit_radioRejCrc (s : State) (h : Header) : (s.replyInit h).radioRejCrc = s.radioRejCrc := rfl
@[simp] theorem State.replyInit_radioRejOther (s : State) (h : Header) : (s.replyInit h).radioRejOther = s.radioRejOther := rfl
@[simp] theorem State.replyInit_radioSent (s : State) (h : Header) : (s.replyInit h).radioSent = s.radioSent := rfl
@[simp] theorem State.replyInit_msg (s : State) (h : Header) : (s.replyInit h).msg = s.msg := rfl
@[simp] theorem State.replyInit_msgLen (s : State) (h : Header) : (s.replyInit h).msgLen = s.msgLen := rfl
@[simp] theorem State.replyInit_msgSrc (s : State) (h : Header) : (s.replyInit h).msgSrc = s.msgSrc := rfl
@[simp] theorem State.replyInit_msgFbit (s : State) (h : Header) : (s.replyInit h).msgFbit = s.msgFbit := rfl
@[simp] theorem State.replyInit_reply (s : State) (h : Header) : (s.replyInit h).reply = s.reply.writeBytes 0 (le16 s.cfg.selfId ++ le16 h.seqnum ++ [s.cfg.subsysReply, 0xFF]) := rfl
@[simp] theorem State.replyInit_replyLen (s : State) (h : Header) : (s.replyInit h).replyLen = 6 := rfl
@[simp] theorem State.replyInit_cmdRecognized (s : State) (h : Header) : (s.replyInit h).cmdRecognized = s.cmdRecognized := rfl
@[simp] theorem State.replyInit_callsign (s : State) (h : Header) : (s.replyInit h).callsign = s.callsign := rfl
@[simp] theorem State.replyInit_callsignLen (s : State) (h : Header) : (s.replyInit h).callsignLen = s.callsignLen := rfl
@[simp] theorem State.replyInit_timeSet (s : State) (h : Header) : (s.replyInit h).timeSet = s.timeSet := rfl
@[simp] theorem State.replyInit_timeVal (s : State) (h : Header) : (s.replyInit h).timeVal = s.timeVal := rfl
@[simp] theorem State.replyInit_keepalive (s : State) (h : Header) : (s.replyInit h).keepalive = s.keepalive := rfl
@[simp] theorem State.replyInit_uptime (s : State) (h : Header) : (s.replyInit h).uptime = s.uptime := rfl
@[simp] theorem State.replyInit_deadline (s : State) (h : Header) : (s.replyInit h).deadline = s.deadline := rfl
@[simp] theorem State.replyInit_idleTicks (s : State) (h : Header) : (s.replyInit h).idleTicks = s.idleTicks := rfl
@[simp] theorem State.replyInit_flash (s : State) (h : Header) : (s.replyInit h).flash = s.flash := rfl
@[simp] theorem State.replyInit_ml (s : State) (h : Header) : (s.replyInit h).ml = s.ml := rfl
@[simp] theorem State.replyInit_rebootLine (s : State) (h : Header) : (s.replyInit h).rebootLine = s.rebootLine := rfl
@[simp] theorem State.replyInit_stim (s : State) (h : Header) : (s.replyInit h).stim = s.stim := rfl
@[simp] theorem State.replyInit_outs (s : State) (h : Header) : (s.replyInit h).outs = s.outs := rfl
@[simp] theorem State.replyInit_events (s : State) (h : Header) : (s.replyInit h).events = s.events := rfl
@[simp] theorem State.replyInit_calls (s : State) (h : Header) : (s.replyInit h).calls = s.calls := rfl
@[simp] theorem State.replyInit_macEvals (s : State) (h : Header) : (s.replyInit h).macEvals = s.macEvals := rfl
@[simp] theorem State.replyInit_draws (s : State) (h : Header) : (s.replyInit h).draws = s.draws := rfl
@[simp] theorem State.replyInit_flashAnswers (s : State) (h : Header) : (s.replyInit h).flashAnswers = s.flashAnswers := rfl

/-! ### `setReply` -/

@[simp] theorem State.setReply_cfg (s : State) (op : Byte) (pl : List Byte) : (s.setReply op pl).cfg = s.cfg := rfl
@[simp] theorem State.setReply_port0 (s : State) (op : Byte) (pl : List Byte) : (s.setReply op pl).port0 = s.port0 := rfl
@[simp] theorem State.setReply_port1 (s : State) (op : Byte) (pl : List Byte) : (s.setReply op pl).port1 = s.port1 := rfl
@[simp] theorem State.setReply_rxArmed (s : State) (op : Byte) (pl : List Byte) : (s.setReply op pl).rxArmed = s.rxArmed := rfl
@[simp] theorem State.setReply_rxFull (s : State) (op : Byte) (pl : List Byte) : (s.setReply op pl).rxFull = s.rxFull := rfl
@[simp] theorem State.setReply_rxBuf (s : State) (op : Byte) (pl : List Byte) : (s.setReply op pl).rxBuf = s.rxBuf := rfl
@[simp] theorem State.setReply_txBusy (s : State) (op : Byte) (pl : List Byte) : (s.setReply op pl).txBusy = s.txBusy := rfl
@[simp] theorem State.setReply_txBuf (s : State) (op : Byte) (pl : List Byte) : (s.setReply op pl).txBuf = s.txBuf := rfl
@[simp] theorem State.setReply_radioGood (s : State) (op : Byte) (pl : List Byte) : (s.setReply op pl).radioGood = s.radioGood := rfl
@[simp] theorem State.setReply_radioRejCrc (s : State) (op : Byte) (pl : List Byte) : (s.setReply op pl).radioRejCrc = s.radioRejCrc := rfl
@[simp] theorem State.setReply_radioRejOther (s : State) (op : Byte) (pl : List Byte) : (s.setReply op pl).radioRejOther = s.radioRejOther := rfl
@[simp] theorem State.setReply_radioSent (s : State) (op : Byte) (pl : List Byte) : (s.setReply op pl).radioSent = s.radioSent := rfl
@[simp] theorem State.setReply_msg (s : State) (op : Byte) (pl : List Byte) : (s.setReply op pl).msg = s.msg := rfl
@[simp] theorem State.setReply_msgLen (s : State) (op : Byte) (pl : List Byte) : (s.setReply op pl).msgLen = s.msgLen := rfl
@[simp] theorem State.setReply_msgSrc (s : State) (op : Byte) (pl : List Byte) : (s.setReply op pl).msgSrc = s.msgSrc := rfl
@[simp] theorem State.setReply_msgFbit (s : State) (op : Byte) (pl : List Byte) : (s.setReply op pl).msgFbit = s.msgFbit := rfl
@[simp] theorem State.setReply_reply (s : State) (op : Byte) (pl : List Byte) : (s.setReply op pl).reply = s.reply.writeBytes 5 (op :: pl) := rfl
@[simp] theorem State.setReply_replyLen (s : State) (op : Byte) (pl : List Byte) : (s.setReply op pl).replyLen = BitVec.ofNat 8 (6 + pl.length) := rfl
@[simp] theorem State.setReply_cmdRecognized (s : State) (op : Byte) (pl : List Byte) : (s.setReply op pl).cmdRecognized = s.cmdRecognized := rfl
@[simp] theorem State.setReply_callsign (s : State) (op : Byte) (pl : List Byte) : (s.setReply op pl).callsign = s.callsign := rfl
@[simp] theorem State.setReply_callsignLen (s : State) (op : Byte) (pl : List Byte) : (s.setReply op pl).callsignLen = s.callsignLen := rfl
@[simp] theorem State.setReply_timeSet (s : State) (op : Byte) (pl : List Byte) : (s.setReply op pl).timeSet = s.timeSet := rfl
@[simp] theorem State.setReply_timeVal (s : State) (op : Byte) (pl : List Byte) : (s.setReply op pl).timeVal = s.timeVal := rfl
@[simp] theorem State.setReply_keepalive (s : State) (op : Byte) (pl : List Byte) : (s.setReply op pl).keepalive = s.keepalive := rfl
@[simp] theorem State.setReply_uptime (s : State) (op : Byte) (pl : List Byte) : (s.setReply op pl).uptime = s.uptime := rfl
@[simp] theorem State.setReply_deadline (s : State) (op : Byte) (pl : List Byte) : (s.setReply op pl).deadline = s.deadline := rfl
@[simp] theorem State.setReply_idleTicks (s : State) (op : Byte) (pl : List Byte) : (s.setReply op pl).idleTicks = s.idleTicks := rfl
@[simp] theorem State.setReply_flash (s : State) (op : Byte) (pl : List Byte) : (s.setReply op pl).flash = s.flash := rfl
@[simp] theorem State.setReply_ml (s : State) (op : Byte) (pl : List Byte) : (s.setReply op pl).ml = s.ml := rfl
@[simp] theorem State.setReply_rebootLine (s : State) (op : Byte) (pl : List Byte) : (s.setReply op pl).rebootLine = s.rebootLine := rfl
@[simp] theorem State.setReply_stim (s : State) (op : Byte) (pl : List Byte) : (s.setReply op pl).stim = s.stim := rfl
@[simp] theorem State.setReply_outs (s : State) (op : Byte) (pl : List Byte) : (s.setReply op pl).outs = s.outs := rfl
@[simp] theorem State.setReply_events (s : State) (op : Byte) (pl : List Byte) : (s.setReply op pl).events = s.events := rfl
@[simp] theorem State.setReply_calls (s : State) (op : Byte) (pl : List Byte) : (s.setReply op pl).calls = s.calls := rfl
@[simp] theorem State.setReply_macEvals (s : State) (op : Byte) (pl : List Byte) : (s.setReply op pl).macEvals = s.macEvals := rfl
@[simp] theorem State.setReply_draws (s : State) (op : Byte) (pl : List Byte) : (s.setReply op pl).draws = s.draws := rfl
@[simp] theorem State.setReply_flashAnswers (s : State) (op : Byte) (pl : List Byte) : (s.setReply op pl).flashAnswers = s.flashAnswers := rfl

/-! ### `noReply` -/

@[simp] theorem State.noReply_cfg (s : State) : (s.noReply).cfg = s.cfg := rfl
@[simp] theorem State.noReply_port0 (s : State) : (s.noReply).port0 = s.port0 := rfl
@[simp] theorem State.noReply_port1 (s : State) : (s.noReply).port1 = s.port1 := rfl
@[simp] theorem State.noReply_rxArmed (s : State) : (s.noReply).rxArmed = s.rxArmed := rfl
@[simp] theorem State.noReply_rxFull (s : State) : (s.noReply).rxFull = s.rxFull := rfl
@[simp] theorem State.noReply_rxBuf (s : State) : (s.noReply).rxBuf = s.rxBuf := rfl
@[simp] theorem State.noReply_txBusy (s : State) : (s.noReply).txBusy = s.txBusy := rfl
@[simp] theorem State.noReply_txBuf (s : State) : (s.noReply).txBuf = s.txBuf := rfl
@[simp] theorem State.noReply_radioGood (s : State) : (s.noReply).radioGood = s.radioGood := rfl
@[simp] theorem State.noReply_radioRejCrc (s : State) : (s.noReply).radioRejCrc = s.radioRejCrc := rfl
@[simp] theorem State.noReply_radioRejOther (s : State) : (s.noReply).radioRejOther = s.radioRejOther := rfl
@[simp] theorem State.noReply_radioSent (s : State) : (s.noReply).radioSent = s.radioSent := rfl
@[simp] theorem State.noReply_msg (s : State) : (s.noReply).msg = s.msg := rfl
@[simp] theorem State.noReply_msgLen (s : State) : (s.noReply).msgLen = s.msgLen := rfl
@[simp] theorem State.noReply_msgSrc (s : State) : (s.noReply).msgSrc = s.msgSrc := rfl
@[simp] theorem State.noReply_msgFbit (s : State) : (s.noReply).msgFbit = s.msgFbit := rfl
@[simp] theorem State.noReply_reply (s : State) : (s.noReply).reply = s.reply := rfl
@[simp] theorem State.noReply_replyLen (s : State) : (s.noReply).replyLen = 0 := rfl
@[simp] theorem State.noReply_cmdRecognized (s : State) : (s.noReply).cmdRecognized = s.cmdRecognized := rfl
@[simp] theorem State.noReply_callsign (s : State) : (s.noReply).callsign = s.callsign := rfl
@[simp] theorem State.noReply_callsignLen (s : State) : (s.noReply).callsignLen = s.callsignLen := rfl
@[simp] theorem State.noReply_timeSet (s : State) : (s.noReply).timeSet = s.timeSet := rfl
@[simp] theorem State.noReply_timeVal (s : State) : (s.noReply).timeVal = s.timeVal := rfl
@[simp] theorem State.noReply_keepalive (s : State) : (s.noReply).keepalive = s.keepalive := rfl
@[simp] theorem State.noReply_uptime (s : State) : (s.noReply).uptime = s.uptime := rfl
@[simp] theorem State.noReply_deadline (s : State) : (s.noReply).deadline = s.deadline := rfl
@[simp] theorem State.noReply_idleTicks (s : State) : (s.noReply).idleTicks = s.idleTicks := rfl
@[simp] theorem State.noReply_flash (s : State) : (s.noReply).flash = s.flash := rfl
@[simp] theorem State.noReply_ml (s : State) : (s.noReply).ml = s.ml := rfl
@[simp] theorem State.noReply_rebootLine (s : State) : (s.noReply).rebootLine = s.rebootLine := rfl
@[simp] theorem State.noReply_stim (s : State) : (s.noReply).stim = s.stim := rfl
@[simp] theorem State.noReply_outs (s : State) : (s.noReply).outs = s.outs := rfl
@[simp] theorem State.noReply_events (s : State) : (s.noReply).events = s.events := rfl
@[simp] theorem State.noReply_calls (s : State) : (s.noReply).calls = s.calls := rfl
@[simp] theorem State.noReply_macEvals (s : State) : (s.noReply).macEvals = s.macEvals := rfl
@[simp] theorem State.noReply_draws (s : State) : (s.noReply).draws = s.draws := rfl
@[simp] theorem State.noReply_flashAnswers (s : State) : (s.noReply).flashAnswers = s.flashAnswers := rfl

/-! ### `recognize` -/

@[simp] theorem State.recognize_cfg (s : State) : (s.recognize).cfg = s.cfg := by unfold State.recognize; split <;> rfl
@[simp] theorem State.recognize_port0 (s : State) : (s.recognize).port0 = s.port0 := by unfold State.recognize; split <;> rfl
@[simp] theorem State.recognize_port1 (s : State) : (s.recognize).port1 = s.port1 := by unfold State.recognize; split <;> rfl
@[simp] theorem State.recognize_rxArmed (s : State) : (s.recognize).rxArmed = s.rxArmed := by unfold State.recognize; split <;> rfl
@[simp] theorem State.recognize_rxFull (s : State) : (s.recognize).rxFull = s.rxFull := by unfold State.recognize; split <;> rfl
@[simp] theorem State.recognize_rxBuf (s : State) : (s.recognize).rxBuf = s.rxBuf := by unfold State.recognize; split <;> rfl
@[simp] theorem State.recognize_txBusy (s : State) : (s.recognize).txBusy = s.txBusy := by unfold State.recognize; split <;> rfl
@[simp] theorem State.recognize_txBuf (s : State) : (s.recognize).txBuf = s.txBuf := by unfold State.recognize; split <;> rfl
@[simp] theorem State.recognize_radioGood (s : State) : (s.recognize).radioGood = s.radioGood := by unfold State.recognize; split <;> rfl
@[simp] theorem State.recognize_radioRejCrc (s : State) : (s.recognize).radioRejCrc = s.radioRejCrc := by unfold State.recognize; split <;> rfl
@[simp] theorem State.recognize_radioRejOther (s : State) : (s.recognize).radioRejOther = s.radioRejOther := by unfold State.recognize; split <;> rfl
@[simp] theorem State.recognize_radioSent (s : State) : (s.recognize).radioSent = s.radioSent := by unfold State.recognize; split <;> rfl
@[simp] theorem State.recognize_msg (s : State) : (s.recognize).msg = s.msg := by unfold State.recognize; split <;> rfl
@[simp] theorem State.recognize_msgLen (s : State) : (s.recognize).msgLen = s.msgLen := by unfold State.recognize; split <;> rfl
@[simp] theorem State.recognize_msgSrc (s : State) : (s.recognize).msgSrc = s.msgSrc := by unfold State.recognize; split <;> rfl
@[simp] theorem State.recognize_msgFbit (s : State) : (s.recognize).msgFbit = s.msgFbit := by unfold State.recognize; split <;> rfl
@[simp] theorem State.recognize_reply (s : State) : (s.recognize).reply = s.reply := by unfold State.recognize; split <;> rfl
@[simp] theorem State.recognize_replyLen (s : State) : (s.recognize).replyLen = s.replyLen := by unfold State.recognize; split <;> rfl
@[simp] theorem State.recognize_cmdRecognized (s : State) : (s.recognize).cmdRecognized = true := by unfold State.recognize; split <;> rfl
@[simp] theorem State.recognize_callsign (s : State) : (s.recognize).callsign = s.callsign := by unfold State.recognize; split <;> rfl
@[simp] theorem State.recognize_callsignLen (s : State) : (s.recognize).callsignLen = s.callsignLen := by unfold State.recognize; split <;> rfl
@[simp] theorem State.recognize_timeSet (s : State) : (s.recognize).timeSet = s.timeSet := by unfold State.recognize; split <;> rfl
@[simp] theorem State.recognize_timeVal (s : State) : (s.recognize).timeVal = s.timeVal := by unfold State.recognize; split <;> rfl
@[simp] theorem State.recognize_uptime (s : State) : (s.recognize).uptime = s.uptime := by unfold State.recognize; split <;> rfl
@[simp] theorem State.recognize_deadline (s : State) : (s.recognize).deadline = s.deadline := by unfold State.recognize; split <;> rfl
@[simp] theorem State.recognize_idleTicks (s : State) : (s.recognize).idleTicks = s.idleTicks := by unfold State.recognize; split <;> rfl
@[simp] theorem State.recognize_flash (s : State) : (s.recognize).flash = s.flash := by unfold State.recognize; split <;> rfl
@[simp] theorem State.recognize_ml (s : State) : (s.recognize).ml = s.ml := by unfold State.recognize; split <;> rfl
@[simp] theorem State.recognize_rebootLine (s : State) : (s.recognize).rebootLine = s.rebootLine := by unfold State.recognize; split <;> rfl
@[simp] theorem State.recognize_stim (s : State) : (s.recognize).stim = s.stim := by unfold State.recognize; split <;> rfl
@[simp] theorem State.recognize_outs (s : State) : (s.recognize).outs = s.outs ++ [.cmdRecognized] := by unfold State.recognize; split <;> rfl
@[simp] theorem State.recognize_events (s : State) : (s.recognize).events = s.events := by unfold State.recognize; split <;> rfl
@[simp] theorem State.recognize_calls (s : State) : (s.recognize).calls = s.calls := by unfold State.recognize; split <;> rfl
@[simp] theorem State.recognize_macEvals (s : State) : (s.recognize).macEvals = s.macEvals := by unfold State.recognize; split <;> rfl
@[simp] theorem State.recognize_draws (s : State) : (s.recognize).draws = s.draws := by unfold State.recognize; split <;> rfl
@[simp] theorem State.recognize_flashAnswers (s : State) : (s.recognize).flashAnswers = s.flashAnswers := by unfold State.recognize; split <;> rfl

/-! ### `endService` -/

@[simp] theorem State.endService_cfg (s : State) : (s.endService).cfg = s.cfg := rfl
@[simp] theorem State.endService_port0 (s : State) : (s.endService).port0 = s.port0 := rfl
@[simp] theorem State.endService_port1 (s : State) : (s.endService).port1 = s.port1 := rfl
@[simp] theorem State.endService_rxArmed (s : State) : (s.endService).rxArmed = s.rxArmed := rfl
@[simp] theorem State.endService_rxFull (s : State) : (s.endService).rxFull = s.rxFull := rfl
@[simp] theorem State.endService_rxBuf (s : State) : (s.endService).rxBuf = s.rxBuf := rfl
@[simp] theorem State.endService_txBusy (s : State) : (s.endService).txBusy = s.txBusy := rfl
@[simp] theorem State.endService_txBuf (s : State) : (s.endService).txBuf = s.txBuf := rfl
@[simp] theorem State.endService_radioGood (s : State) : (s.endService).radioGood = s.radioGood := rfl
@[simp] theorem State.endService_radioRejCrc (s : State) : (s.endService).radioRejCrc = s.radioRejCrc := rfl
@[simp] theorem State.endService_radioRejOther (s : State) : (s.endService).radioRejOther = s.radioRejOther := rfl
@[simp] theorem State.endService_radioSent (s : State) : (s.endService).radioSent = s.radioSent := rfl
@[simp] theorem State.endService_msg (s : State) : (s.endService).msg = s.msg := rfl
@[simp] theorem State.endService_msgLen (s : State) : (s.endService).msgLen = s.msgLen := rfl
@[simp] theorem State.endService_msgSrc (s : State) : (s.endService).msgSrc = s.msgSrc := rfl
@[simp] theorem State.endService_msgFbit (s : State) : (s.endService).msgFbit = s.msgFbit := rfl
@[simp] theorem State.endService_reply (s : State) : (s.endService).reply = s.reply := rfl
@[simp] theorem State.endService_replyLen (s : State) : (s.endService).replyLen = s.replyLen := rfl
@[simp] theorem State.endService_cmdRecognized (s : State) : (s.endService).cmdRecognized = s.cmdRecognized := rfl
@[simp] theorem State.endService_callsign (s : State) : (s.endService).callsign = s.callsign := rfl
@[simp] theorem State.endService_callsignLen (s : State) : (s.endService).callsignLen = s.callsignLen := rfl
@[simp] theorem State.endService_timeSet (s : State) : (s.endService).timeSet = s.timeSet := rfl
@[simp] theorem State.endService_timeVal (s : State) : (s.endService).timeVal = s.timeVal := rfl
@[simp] theorem State.endService_keepalive (s : State) : (s.endService).keepalive = s.keepalive := rfl
@[simp] theorem State.endService_uptime (s : State) : (s.endService).uptime = s.uptime := rfl
@[simp] theorem State.endService_deadline (s : State) : (s.endService).deadline = s.deadline := rfl
@[simp] theorem State.endService_idleTicks (s : State) : (s.endService).idleTicks = s.idleTicks := rfl
@[simp] theorem State.endService_flash (s : State) : (s.endService).flash = s.flash := rfl
@[simp] theorem State.endService_ml (s : State) : (s.endService).ml = s.endPhase := rfl
@[simp] theorem State.endService_rebootLine (s : State) : (s.endService).rebootLine = s.rebootLine := rfl
@[simp] theorem State.endService_stim (s : State) : (s.endService).stim = s.stim := rfl
@[simp] theorem State.endService_outs (s : State) : (s.endService).outs = s.outs := rfl
@[simp] theorem State.endService_events (s : State) : (s.endService).events = s.events := rfl
@[simp] theorem State.endService_calls (s : State) : (s.endService).calls = s.calls := rfl
@[simp] theorem State.endService_macEvals (s : State) : (s.endService).macEvals = s.macEvals := rfl
@[simp] theorem State.endService_draws (s : State) : (s.endService).draws = s.draws := rfl
@[simp] theorem State.endService_flashAnswers (s : State) : (s.endService).flashAnswers = s.flashAnswers := rfl

/-! ### `handlerDone` -/

@[simp] theorem State.handlerDone_cfg (s : State) : (s.handlerDone).cfg = s.cfg := by unfold State.handlerDone; split <;> rfl
@[simp] theorem State.handlerDone_port0 (s : State) : (s.handlerDone).port0 = s.port0 := by unfold State.handlerDone; split <;> rfl
@[simp] theorem State.handlerDone_port1 (s : State) : (s.handlerDone).port1 = s.port1 := by unfold State.handlerDone; split <;> rfl
@[simp] theorem State.handlerDone_rxArmed (s : State) : (s.handlerDone).rxArmed = s.rxArmed := by unfold State.handlerDone; split <;> rfl
@[simp] theorem State.handlerDone_rxFull (s : State) : (s.handlerDone).rxFull = s.rxFull := by unfold State.handlerDone; split <;> rfl
@[simp] theorem State.handlerDone_rxBuf (s : State) : (s.handlerDone).rxBuf = s.rxBuf := by unfold State.handlerDone; split <;> rfl
@[simp] theorem State.handlerDone_txBusy (s : State) : (s.handlerDone).txBusy = s.txBusy := by unfold State.handlerDone; split <;> rfl
@[simp] theorem State.handlerDone_txBuf (s : State) : (s.handlerDone).txBuf = s.txBuf := by unfold State.handlerDone; split <;> rfl
@[simp] theorem State.handlerDone_radioGood (s : State) : (s.handlerDone).radioGood = s.radioGood := by unfold State.handlerDone; split <;> rfl
@[simp] theorem State.handlerDone_radioRejCrc (s : State) : (s.handlerDone).radioRejCrc = s.radioRejCrc := by unfold State.handlerDone; split <;> rfl
@[simp] theorem State.handlerDone_radioRejOther (s : State) : (s.handlerDone).radioRejOther = s.radioRejOther := by unfold State.handlerDone; split <;> rfl
@[simp] theorem State.handlerDone_radioSent (s : State) : (s.handlerDone).radioSent = s.radioSent := by unfold State.handlerDone; split <;> rfl
@[simp] theorem State.handlerDone_msg (s : State) : (s.handlerDone).msg = s.msg := by unfold State.handlerDone; split <;> rfl
@[simp] theorem State.handlerDone_msgLen (s : State) : (s.handlerDone).msgLen = s.msgLen := by unfold State.handlerDone; split <;> rfl
@[simp] theorem State.handlerDone_msgSrc (s : State) : (s.handlerDone).msgSrc = s.msgSrc := by unfold State.handlerDone; split <;> rfl
@[simp] theorem State.handlerDone_msgFbit (s : State) : (s.handlerDone).msgFbit = s.msgFbit := by unfold State.handlerDone; split <;> rfl
@[simp] theorem State.handlerDone_reply (s : State) : (s.handlerDone).reply = s.reply := by unfold State.handlerDone; split <;> rfl
@[simp] theorem State.handlerDone_replyLen (s : State) : (s.handlerDone).replyLen = s.replyLen := by unfold State.handlerDone; split <;> rfl
@[simp] theorem State.handlerDone_cmdRecognized (s : State) : (s.handlerDone).cmdRecognized = s.cmdRecognized := by unfold State.handlerDone; split <;> rfl
@[simp] theorem State.handlerDone_callsign (s : State) : (s.handlerDone).callsign = s.callsign := by unfold State.handlerDone; split <;> rfl
@[simp] theorem State.handlerDone_callsignLen (s : State) : (s.handlerDone).callsignLen = s.callsignLen := by unfold State.handlerDone; split <;> rfl
@[simp] theorem State.handlerDone_timeSet (s : State) : (s.handlerDone).timeSet = s.timeSet := by unfold State.handlerDone; split <;> rfl
@[simp] theorem State.handlerDone_timeVal (s : State) : (s.handlerDone).timeVal = s.timeVal := by unfold State.handlerDone; split <;> rfl
@[simp] theorem State.handlerDone_keepalive (s : State) : (s.handlerDone).keepalive = s.keepalive := by unfold State.handlerDone; split <;> rfl
@[simp] theorem State.handlerDone_uptime (s : State) : (s.handlerDone).uptime = s.uptime := by unfold State.handlerDone; split <;> rfl
@[simp] theorem State.handlerDone_deadline (s : State) : (s.handlerDone).deadline = s.deadline := by unfold State.handlerDone; split <;> rfl
@[simp] theorem State.handlerDone_idleTicks (s : State) : (s.handlerDone).idleTicks = s.idleTicks := by unfold State.handlerDone; split <;> rfl
@[simp] theorem State.handlerDone_flash (s : State) : (s.handlerDone).flash = s.flash := by unfold State.handlerDone; split <;> rfl
@[simp] theorem State.handlerDone_rebootLine (s : State) : (s.handlerDone).rebootLine = s.rebootLine := by unfold State.handlerDone; split <;> rfl
@[simp] theorem State.handlerDone_stim (s : State) : (s.handlerDone).stim = s.stim := by unfold State.handlerDone; split <;> rfl
@[simp] theorem State.handlerDone_outs (s : State) : (s.handlerDone).outs = s.outs := by unfold State.handlerDone; split <;> rfl
@[simp] theorem State.handlerDone_events (s : State) : (s.handlerDone).events = s.events := by unfold State.handlerDone; split <;> rfl
@[simp] theorem State.handlerDone_calls (s : State) : (s.handlerDone).calls = s.calls := by unfold State.handlerDone; split <;> rfl
@[simp] theorem State.handlerDone_macEvals (s : State) : (s.handlerDone).macEvals = s.macEvals := by unfold State.handlerDone; split <;> rfl
@[simp] theorem State.handlerDone_draws (s : State) : (s.handlerDone).draws = s.draws := by unfold State.handlerDone; split <;> rfl
@[simp] theorem State.handlerDone_flashAnswers (s : State) : (s.handlerDone).flashAnswers = s.flashAnswers := by unfold State.handlerDone; split <;> rfl

/-! ### `mlDrain` and `beginErase` -/

@[simp] theorem State.mlDrain_cfg (s : State) : (s.mlDrain).cfg = s.cfg := by unfold State.mlDrain; split <;> rfl
@[simp] theorem State.mlDrain_port0 (s : State) : (s.mlDrain).port0 = s.port0 := by unfold State.mlDrain; split <;> rfl
@[simp] theorem State.mlDrain_port1 (s : State) : (s.mlDrain).port1 = s.port1 := by unfold State.mlDrain; split <;> rfl
@[simp] theorem State.mlDrain_rxBuf (s : State) : (s.mlDrain).rxBuf = s.rxBuf := by unfold State.mlDrain; split <;> rfl
@[simp] theorem State.mlDrain_txBusy (s : State) : (s.mlDrain).txBusy = s.txBusy := by unfold State.mlDrain; split <;> rfl
@[simp] theorem State.mlDrain_txBuf (s : State) : (s.mlDrain).txBuf = s.txBuf := by unfold State.mlDrain; split <;> rfl
@[simp] theorem State.mlDrain_radioGood (s : State) : (s.mlDrain).radioGood = s.radioGood := by unfold State.mlDrain; split <;> rfl
@[simp] theorem State.mlDrain_radioRejCrc (s : State) : (s.mlDrain).radioRejCrc = s.radioRejCrc := by unfold State.mlDrain; split <;> rfl
@[simp] theorem State.mlDrain_radioRejOther (s : State) : (s.mlDrain).radioRejOther = s.radioRejOther := by unfold State.mlDrain; split <;> rfl
@[simp] theorem State.mlDrain_radioSent (s : State) : (s.mlDrain).radioSent = s.radioSent := by unfold State.mlDrain; split <;> rfl
@[simp] theorem State.mlDrain_msg (s : State) : (s.mlDrain).msg = s.msg := by unfold State.mlDrain; split <;> rfl
@[simp] theorem State.mlDrain_msgLen (s : State) : (s.mlDrain).msgLen = s.msgLen := by unfold State.mlDrain; split <;> rfl
@[simp] theorem State.mlDrain_msgSrc (s : State) : (s.mlDrain).msgSrc = s.msgSrc := by unfold State.mlDrain; split <;> rfl
@[simp] theorem State.mlDrain_msgFbit (s : State) : (s.mlDrain).msgFbit = s.msgFbit := by unfold State.mlDrain; split <;> rfl
@[simp] theorem State.mlDrain_reply (s : State) : (s.mlDrain).reply = s.reply := by unfold State.mlDrain; split <;> rfl
@[simp] theorem State.mlDrain_replyLen (s : State) : (s.mlDrain).replyLen = s.replyLen := by unfold State.mlDrain; split <;> rfl
@[simp] theorem State.mlDrain_cmdRecognized (s : State) : (s.mlDrain).cmdRecognized = s.cmdRecognized := by unfold State.mlDrain; split <;> rfl
@[simp] theorem State.mlDrain_callsign (s : State) : (s.mlDrain).callsign = s.callsign := by unfold State.mlDrain; split <;> rfl
@[simp] theorem State.mlDrain_callsignLen (s : State) : (s.mlDrain).callsignLen = s.callsignLen := by unfold State.mlDrain; split <;> rfl
@[simp] theorem State.mlDrain_timeSet (s : State) : (s.mlDrain).timeSet = s.timeSet := by unfold State.mlDrain; split <;> rfl
@[simp] theorem State.mlDrain_timeVal (s : State) : (s.mlDrain).timeVal = s.timeVal := by unfold State.mlDrain; split <;> rfl
@[simp] theorem State.mlDrain_keepalive (s : State) : (s.mlDrain).keepalive = s.keepalive := by unfold State.mlDrain; split <;> rfl
@[simp] theorem State.mlDrain_uptime (s : State) : (s.mlDrain).uptime = s.uptime := by unfold State.mlDrain; split <;> rfl
@[simp] theorem State.mlDrain_deadline (s : State) : (s.mlDrain).deadline = s.deadline := by unfold State.mlDrain; split <;> rfl
@[simp] theorem State.mlDrain_idleTicks (s : State) : (s.mlDrain).idleTicks = s.idleTicks := by unfold State.mlDrain; split <;> rfl
@[simp] theorem State.mlDrain_flash (s : State) : (s.mlDrain).flash = s.flash := by unfold State.mlDrain; split <;> rfl
@[simp] theorem State.mlDrain_rebootLine (s : State) : (s.mlDrain).rebootLine = s.rebootLine := by unfold State.mlDrain; split <;> rfl
@[simp] theorem State.mlDrain_stim (s : State) : (s.mlDrain).stim = s.stim := by unfold State.mlDrain; split <;> rfl
@[simp] theorem State.mlDrain_outs (s : State) : (s.mlDrain).outs = s.outs := by unfold State.mlDrain; split <;> rfl
@[simp] theorem State.mlDrain_events (s : State) : (s.mlDrain).events = s.events := by unfold State.mlDrain; split <;> rfl
@[simp] theorem State.mlDrain_calls (s : State) : (s.mlDrain).calls = s.calls := by unfold State.mlDrain; split <;> rfl
@[simp] theorem State.mlDrain_macEvals (s : State) : (s.mlDrain).macEvals = s.macEvals := by unfold State.mlDrain; split <;> rfl
@[simp] theorem State.mlDrain_draws (s : State) : (s.mlDrain).draws = s.draws := by unfold State.mlDrain; split <;> rfl
@[simp] theorem State.mlDrain_flashAnswers (s : State) : (s.mlDrain).flashAnswers = s.flashAnswers := by unfold State.mlDrain; split <;> rfl
@[simp] theorem State.beginErase_cfg (s : State) : (s.beginErase).cfg = s.cfg := rfl
@[simp] theorem State.beginErase_port0 (s : State) : (s.beginErase).port0 = s.port0 := rfl
@[simp] theorem State.beginErase_port1 (s : State) : (s.beginErase).port1 = s.port1 := rfl
@[simp] theorem State.beginErase_rxArmed (s : State) : (s.beginErase).rxArmed = s.rxArmed := rfl
@[simp] theorem State.beginErase_rxFull (s : State) : (s.beginErase).rxFull = s.rxFull := rfl
@[simp] theorem State.beginErase_rxBuf (s : State) : (s.beginErase).rxBuf = s.rxBuf := rfl
@[simp] theorem State.beginErase_txBusy (s : State) : (s.beginErase).txBusy = s.txBusy := rfl
@[simp] theorem State.beginErase_txBuf (s : State) : (s.beginErase).txBuf = s.txBuf := rfl
@[simp] theorem State.beginErase_radioGood (s : State) : (s.beginErase).radioGood = s.radioGood := rfl
@[simp] theorem State.beginErase_radioRejCrc (s : State) : (s.beginErase).radioRejCrc = s.radioRejCrc := rfl
@[simp] theorem State.beginErase_radioRejOther (s : State) : (s.beginErase).radioRejOther = s.radioRejOther := rfl
@[simp] theorem State.beginErase_radioSent (s : State) : (s.beginErase).radioSent = s.radioSent := rfl
@[simp] theorem State.beginErase_msg (s : State) : (s.beginErase).msg = s.msg := rfl
@[simp] theorem State.beginErase_msgLen (s : State) : (s.beginErase).msgLen = s.msgLen := rfl
@[simp] theorem State.beginErase_msgSrc (s : State) : (s.beginErase).msgSrc = s.msgSrc := rfl
@[simp] theorem State.beginErase_msgFbit (s : State) : (s.beginErase).msgFbit = s.msgFbit := rfl
@[simp] theorem State.beginErase_reply (s : State) : (s.beginErase).reply = s.reply := rfl
@[simp] theorem State.beginErase_replyLen (s : State) : (s.beginErase).replyLen = s.replyLen := rfl
@[simp] theorem State.beginErase_cmdRecognized (s : State) : (s.beginErase).cmdRecognized = s.cmdRecognized := rfl
@[simp] theorem State.beginErase_callsign (s : State) : (s.beginErase).callsign = s.callsign := rfl
@[simp] theorem State.beginErase_callsignLen (s : State) : (s.beginErase).callsignLen = s.callsignLen := rfl
@[simp] theorem State.beginErase_timeSet (s : State) : (s.beginErase).timeSet = s.timeSet := rfl
@[simp] theorem State.beginErase_timeVal (s : State) : (s.beginErase).timeVal = s.timeVal := rfl
@[simp] theorem State.beginErase_keepalive (s : State) : (s.beginErase).keepalive = s.keepalive := rfl
@[simp] theorem State.beginErase_uptime (s : State) : (s.beginErase).uptime = s.uptime := rfl
@[simp] theorem State.beginErase_deadline (s : State) : (s.beginErase).deadline = s.deadline := rfl
@[simp] theorem State.beginErase_idleTicks (s : State) : (s.beginErase).idleTicks = s.idleTicks := rfl
@[simp] theorem State.beginErase_flash (s : State) : (s.beginErase).flash = s.flash := rfl
@[simp] theorem State.beginErase_ml (s : State) : (s.beginErase).ml = .erasing (firstPage s.cfg) := rfl
@[simp] theorem State.beginErase_rebootLine (s : State) : (s.beginErase).rebootLine = s.rebootLine := rfl
@[simp] theorem State.beginErase_stim (s : State) : (s.beginErase).stim = s.stim := rfl
@[simp] theorem State.beginErase_outs (s : State) : (s.beginErase).outs = s.outs := rfl
@[simp] theorem State.beginErase_events (s : State) : (s.beginErase).events = s.events := rfl
@[simp] theorem State.beginErase_calls (s : State) : (s.beginErase).calls = s.calls ++ [.eraseApp] := rfl
@[simp] theorem State.beginErase_macEvals (s : State) : (s.beginErase).macEvals = s.macEvals := rfl
@[simp] theorem State.beginErase_draws (s : State) : (s.beginErase).draws = s.draws := rfl
@[simp] theorem State.beginErase_flashAnswers (s : State) : (s.beginErase).flashAnswers = s.flashAnswers := rfl

/-! ### `resetBlock` -/

@[simp] theorem State.resetBlock_cfg (s : State) : (s.resetBlock).cfg = s.cfg := rfl
@[simp] theorem State.resetBlock_flash (s : State) : (s.resetBlock).flash = s.flash := rfl
@[simp] theorem State.resetBlock_stim (s : State) : (s.resetBlock).stim = s.stim := rfl
@[simp] theorem State.resetBlock_outs (s : State) : (s.resetBlock).outs = s.outs := rfl
@[simp] theorem State.resetBlock_events (s : State) : (s.resetBlock).events = s.events := rfl
@[simp] theorem State.resetBlock_calls (s : State) : (s.resetBlock).calls = s.calls := rfl
@[simp] theorem State.resetBlock_macEvals (s : State) : (s.resetBlock).macEvals = s.macEvals := rfl
@[simp] theorem State.resetBlock_draws (s : State) : (s.resetBlock).draws = s.draws := rfl
@[simp] theorem State.resetBlock_flashAnswers (s : State) : (s.resetBlock).flashAnswers = s.flashAnswers := rfl

/-! ### `dropStrobe` -/

@[simp] theorem State.dropStrobe_cfg (s : State) : (s.dropStrobe).cfg = s.cfg := rfl
@[simp] theorem State.dropStrobe_port0 (s : State) : (s.dropStrobe).port0 = s.port0 := rfl
@[simp] theorem State.dropStrobe_port1 (s : State) : (s.dropStrobe).port1 = s.port1 := rfl
@[simp] theorem State.dropStrobe_rxArmed (s : State) : (s.dropStrobe).rxArmed = s.rxArmed := rfl
@[simp] theorem State.dropStrobe_rxFull (s : State) : (s.dropStrobe).rxFull = s.rxFull := rfl
@[simp] theorem State.dropStrobe_rxBuf (s : State) : (s.dropStrobe).rxBuf = s.rxBuf := rfl
@[simp] theorem State.dropStrobe_txBusy (s : State) : (s.dropStrobe).txBusy = s.txBusy := rfl
@[simp] theorem State.dropStrobe_txBuf (s : State) : (s.dropStrobe).txBuf = s.txBuf := rfl
@[simp] theorem State.dropStrobe_radioGood (s : State) : (s.dropStrobe).radioGood = s.radioGood := rfl
@[simp] theorem State.dropStrobe_radioRejCrc (s : State) : (s.dropStrobe).radioRejCrc = s.radioRejCrc := rfl
@[simp] theorem State.dropStrobe_radioRejOther (s : State) : (s.dropStrobe).radioRejOther = s.radioRejOther := rfl
@[simp] theorem State.dropStrobe_radioSent (s : State) : (s.dropStrobe).radioSent = s.radioSent := rfl
@[simp] theorem State.dropStrobe_msg (s : State) : (s.dropStrobe).msg = s.msg := rfl
@[simp] theorem State.dropStrobe_msgLen (s : State) : (s.dropStrobe).msgLen = s.msgLen := rfl
@[simp] theorem State.dropStrobe_msgSrc (s : State) : (s.dropStrobe).msgSrc = s.msgSrc := rfl
@[simp] theorem State.dropStrobe_msgFbit (s : State) : (s.dropStrobe).msgFbit = s.msgFbit := rfl
@[simp] theorem State.dropStrobe_reply (s : State) : (s.dropStrobe).reply = s.reply := rfl
@[simp] theorem State.dropStrobe_replyLen (s : State) : (s.dropStrobe).replyLen = s.replyLen := rfl
@[simp] theorem State.dropStrobe_cmdRecognized (s : State) : (s.dropStrobe).cmdRecognized = false := rfl
@[simp] theorem State.dropStrobe_callsign (s : State) : (s.dropStrobe).callsign = s.callsign := rfl
@[simp] theorem State.dropStrobe_callsignLen (s : State) : (s.dropStrobe).callsignLen = s.callsignLen := rfl
@[simp] theorem State.dropStrobe_timeSet (s : State) : (s.dropStrobe).timeSet = s.timeSet := rfl
@[simp] theorem State.dropStrobe_timeVal (s : State) : (s.dropStrobe).timeVal = s.timeVal := rfl
@[simp] theorem State.dropStrobe_keepalive (s : State) : (s.dropStrobe).keepalive = s.keepalive := rfl
@[simp] theorem State.dropStrobe_uptime (s : State) : (s.dropStrobe).uptime = s.uptime := rfl
@[simp] theorem State.dropStrobe_deadline (s : State) : (s.dropStrobe).deadline = s.deadline := rfl
@[simp] theorem State.dropStrobe_idleTicks (s : State) : (s.dropStrobe).idleTicks = s.idleTicks := rfl
@[simp] theorem State.dropStrobe_flash (s : State) : (s.dropStrobe).flash = s.flash := rfl
@[simp] theorem State.dropStrobe_ml (s : State) : (s.dropStrobe).ml = s.ml := rfl
@[simp] theorem State.dropStrobe_rebootLine (s : State) : (s.dropStrobe).rebootLine = s.rebootLine := rfl
@[simp] theorem State.dropStrobe_stim (s : State) : (s.dropStrobe).stim = s.stim := rfl
@[simp] theorem State.dropStrobe_outs (s : State) : (s.dropStrobe).outs = s.outs := rfl
@[simp] theorem State.dropStrobe_events (s : State) : (s.dropStrobe).events = s.events := rfl
@[simp] theorem State.dropStrobe_calls (s : State) : (s.dropStrobe).calls = s.calls := rfl
@[simp] theorem State.dropStrobe_macEvals (s : State) : (s.dropStrobe).macEvals = s.macEvals := rfl
@[simp] theorem State.dropStrobe_draws (s : State) : (s.dropStrobe).draws = s.draws := rfl
@[simp] theorem State.dropStrobe_flashAnswers (s : State) : (s.dropStrobe).flashAnswers = s.flashAnswers := rfl

/-! ### the ports -/

@[simp] theorem State.setPort_port_same (s : State) (p : Port) (v : SerialPort) : (s.setPort p v).port p = v := by
  cases p <;> rfl

theorem State.setPort_port_ne (s : State) {p r : Port} (v : SerialPort) (h : r ≠ p) :
    (s.setPort p v).port r = s.port r := by
  cases p <;> cases r <;> first | rfl | exact absurd rfl h

theorem State.setPort_self (s : State) (p : Port) : s.setPort p (s.port p) = s := by cases p <;> rfl

@[simp] theorem State.setPort_setPort (s : State) (p : Port) (v w : SerialPort) :
    (s.setPort p v).setPort p w = s.setPort p w := by cases p <;> rfl

/-! ### `controllerWrites` and `advance` -/

@[simp] theorem State.controllerWrites_cfg (s : State) (e : Stim) : (s.controllerWrites e).cfg = s.cfg := by cases e <;> rfl
@[simp] theorem State.controllerWrites_port0 (s : State) (e : Stim) : (s.controllerWrites e).port0 = s.port0 := by cases e <;> rfl
@[simp] theorem State.controllerWrites_port1 (s : State) (e : Stim) : (s.controllerWrites e).port1 = s.port1 := by cases e <;> rfl
@[simp] theorem State.controllerWrites_rxArmed (s : State) (e : Stim) : (s.controllerWrites e).rxArmed = s.rxArmed := by cases e <;> rfl
@[simp] theorem State.controllerWrites_rxFull (s : State) (e : Stim) : (s.controllerWrites e).rxFull = s.rxFull := by cases e <;> rfl
@[simp] theorem State.controllerWrites_rxBuf (s : State) (e : Stim) : (s.controllerWrites e).rxBuf = s.rxBuf := by cases e <;> rfl
@[simp] theorem State.controllerWrites_txBusy (s : State) (e : Stim) : (s.controllerWrites e).txBusy = s.txBusy := by cases e <;> rfl
@[simp] theorem State.controllerWrites_txBuf (s : State) (e : Stim) : (s.controllerWrites e).txBuf = s.txBuf := by cases e <;> rfl
@[simp] theorem State.controllerWrites_radioGood (s : State) (e : Stim) : (s.controllerWrites e).radioGood = s.radioGood := by cases e <;> rfl
@[simp] theorem State.controllerWrites_radioRejCrc (s : State) (e : Stim) : (s.controllerWrites e).radioRejCrc = s.radioRejCrc := by cases e <;> rfl
@[simp] theorem State.controllerWrites_radioRejOther (s : State) (e : Stim) : (s.controllerWrites e).radioRejOther = s.radioRejOther := by cases e <;> rfl
@[simp] theorem State.controllerWrites_radioSent (s : State) (e : Stim) : (s.controllerWrites e).radioSent = s.radioSent := by cases e <;> rfl
@[simp] theorem State.controllerWrites_msg (s : State) (e : Stim) : (s.controllerWrites e).msg = s.msg := by cases e <;> rfl
@[simp] theorem State.controllerWrites_msgLen (s : State) (e : Stim) : (s.controllerWrites e).msgLen = s.msgLen := by cases e <;> rfl
@[simp] theorem State.controllerWrites_msgSrc (s : State) (e : Stim) : (s.controllerWrites e).msgSrc = s.msgSrc := by cases e <;> rfl
@[simp] theorem State.controllerWrites_msgFbit (s : State) (e : Stim) : (s.controllerWrites e).msgFbit = s.msgFbit := by cases e <;> rfl
@[simp] theorem State.controllerWrites_reply (s : State) (e : Stim) : (s.controllerWrites e).reply = s.reply := by cases e <;> rfl
@[simp] theorem State.controllerWrites_replyLen (s : State) (e : Stim) : (s.controllerWrites e).replyLen = s.replyLen := by cases e <;> rfl
@[simp] theorem State.controllerWrites_cmdRecognized (s : State) (e : Stim) : (s.controllerWrites e).cmdRecognized = s.cmdRecognized := by cases e <;> rfl
@[simp] theorem State.controllerWrites_callsign (s : State) (e : Stim) : (s.controllerWrites e).callsign = s.callsign := by cases e <;> rfl
@[simp] theorem State.controllerWrites_callsignLen (s : State) (e : Stim) : (s.controllerWrites e).callsignLen = s.callsignLen := by cases e <;> rfl
@[simp] theorem State.controllerWrites_timeSet (s : State) (e : Stim) : (s.controllerWrites e).timeSet = s.timeSet := by cases e <;> rfl
@[simp] theorem State.controllerWrites_timeVal (s : State) (e : Stim) : (s.controllerWrites e).timeVal = s.timeVal := by cases e <;> rfl
@[simp] theorem State.controllerWrites_uptime (s : State) (e : Stim) : (s.controllerWrites e).uptime = s.uptime := by cases e <;> rfl
@[simp] theorem State.controllerWrites_deadline (s : State) (e : Stim) : (s.controllerWrites e).deadline = s.deadline := by cases e <;> rfl
@[simp] theorem State.controllerWrites_idleTicks (s : State) (e : Stim) : (s.controllerWrites e).idleTicks = s.idleTicks := by cases e <;> rfl
@[simp] theorem State.controllerWrites_flash (s : State) (e : Stim) : (s.controllerWrites e).flash = s.flash := by cases e <;> rfl
@[simp] theorem State.controllerWrites_ml (s : State) (e : Stim) : (s.controllerWrites e).ml = s.ml := by cases e <;> rfl
@[simp] theorem State.controllerWrites_rebootLine (s : State) (e : Stim) : (s.controllerWrites e).rebootLine = s.rebootLine := by cases e <;> rfl
@[simp] theorem State.controllerWrites_stim (s : State) (e : Stim) : (s.controllerWrites e).stim = s.stim := by cases e <;> rfl
@[simp] theorem State.controllerWrites_outs (s : State) (e : Stim) : (s.controllerWrites e).outs = s.outs := by cases e <;> rfl
@[simp] theorem State.controllerWrites_events (s : State) (e : Stim) : (s.controllerWrites e).events = s.events := by cases e <;> rfl
@[simp] theorem State.controllerWrites_calls (s : State) (e : Stim) : (s.controllerWrites e).calls = s.calls := by cases e <;> rfl
@[simp] theorem State.controllerWrites_macEvals (s : State) (e : Stim) : (s.controllerWrites e).macEvals = s.macEvals := by cases e <;> rfl
@[simp] theorem State.controllerWrites_draws (s : State) (e : Stim) : (s.controllerWrites e).draws = s.draws := by cases e <;> rfl
@[simp] theorem State.controllerWrites_flashAnswers (s : State) (e : Stim) : (s.controllerWrites e).flashAnswers = s.flashAnswers := by cases e <;> rfl

@[simp] theorem State.advance_cfg (s : State) : s.advance.cfg = s.cfg := by
  unfold State.advance; split
  · rfl
  · split
    · rfl
    · split <;> simp
@[simp] theorem State.advance_port0 (s : State) : s.advance.port0 = s.port0 := by
  unfold State.advance; split
  · rfl
  · split
    · rfl
    · split <;> simp
@[simp] theorem State.advance_port1 (s : State) : s.advance.port1 = s.port1 := by
  unfold State.advance; split
  · rfl
  · split
    · rfl
    · split <;> simp
@[simp] theorem State.advance_rxArmed (s : State) : s.advance.rxArmed = s.rxArmed := by
  unfold State.advance; split
  · rfl
  · split
    · rfl
    · split <;> simp
@[simp] theorem State.advance_rxFull (s : State) : s.advance.rxFull = s.rxFull := by
  unfold State.advance; split
  · rfl
  · split
    · rfl
    · split <;> simp
@[simp] theorem State.advance_rxBuf (s : State) : s.advance.rxBuf = s.rxBuf := by
  unfold State.advance; split
  · rfl
  · split
    · rfl
    · split <;> simp
@[simp] theorem State.advance_txBusy (s : State) : s.advance.txBusy = s.txBusy := by
  unfold State.advance; split
  · rfl
  · split
    · rfl
    · split <;> simp
@[simp] theorem State.advance_txBuf (s : State) : s.advance.txBuf = s.txBuf := by
  unfold State.advance; split
  · rfl
  · split
    · rfl
    · split <;> simp
@[simp] theorem State.advance_radioGood (s : State) : s.advance.radioGood = s.radioGood := by
  unfold State.advance; split
  · rfl
  · split
    · rfl
    · split <;> simp
@[simp] theorem State.advance_radioRejCrc (s : State) : s.advance.radioRejCrc = s.radioRejCrc := by
  unfold State.advance; split
  · rfl
  · split
    · rfl
    · split <;> simp
@[simp] theorem State.advance_radioRejOther (s : State) : s.advance.radioRejOther = s.radioRejOther := by
  unfold State.advance; split
  · rfl
  · split
    · rfl
    · split <;> simp
@[simp] theorem State.advance_radioSent (s : State) : s.advance.radioSent = s.radioSent := by
  unfold State.advance; split
  · rfl
  · split
    · rfl
    · split <;> simp
@[simp] theorem State.advance_msg (s : State) : s.advance.msg = s.msg := by
  unfold State.advance; split
  · rfl
  · split
    · rfl
    · split <;> simp
@[simp] theorem State.advance_msgLen (s : State) : s.advance.msgLen = s.msgLen := by
  unfold State.advance; split
  · rfl
  · split
    · rfl
    · split <;> simp
@[simp] theorem State.advance_msgSrc (s : State) : s.advance.msgSrc = s.msgSrc := by
  unfold State.advance; split
  · rfl
  · split
    · rfl
    · split <;> simp
@[simp] theorem State.advance_msgFbit (s : State) : s.advance.msgFbit = s.msgFbit := by
  unfold State.advance; split
  · rfl
  · split
    · rfl
    · split <;> simp
@[simp] theorem State.advance_reply (s : State) : s.advance.reply = s.reply := by
  unfold State.advance; split
  · rfl
  · split
    · rfl
    · split <;> simp
@[simp] theorem State.advance_replyLen (s : State) : s.advance.replyLen = s.replyLen := by
  unfold State.advance; split
  · rfl
  · split
    · rfl
    · split <;> simp
@[simp] theorem State.advance_callsign (s : State) : s.advance.callsign = s.callsign := by
  unfold State.advance; split
  · rfl
  · split
    · rfl
    · split <;> simp
@[simp] theorem State.advance_callsignLen (s : State) : s.advance.callsignLen = s.callsignLen := by
  unfold State.advance; split
  · rfl
  · split
    · rfl
    · split <;> simp
@[simp] theorem State.advance_timeSet (s : State) : s.advance.timeSet = s.timeSet := by
  unfold State.advance; split
  · rfl
  · split
    · rfl
    · split <;> simp
@[simp] theorem State.advance_timeVal (s : State) : s.advance.timeVal = s.timeVal := by
  unfold State.advance; split
  · rfl
  · split
    · rfl
    · split <;> simp
@[simp] theorem State.advance_uptime (s : State) : s.advance.uptime = s.uptime := by
  unfold State.advance; split
  · rfl
  · split
    · rfl
    · split <;> simp
@[simp] theorem State.advance_deadline (s : State) : s.advance.deadline = s.deadline := by
  unfold State.advance; split
  · rfl
  · split
    · rfl
    · split <;> simp
@[simp] theorem State.advance_idleTicks (s : State) : s.advance.idleTicks = s.idleTicks := by
  unfold State.advance; split
  · rfl
  · split
    · rfl
    · split <;> simp
@[simp] theorem State.advance_flash (s : State) : s.advance.flash = s.flash := by
  unfold State.advance; split
  · rfl
  · split
    · rfl
    · split <;> simp
@[simp] theorem State.advance_ml (s : State) : s.advance.ml = s.ml := by
  unfold State.advance; split
  · rfl
  · split
    · rfl
    · split <;> simp
@[simp] theorem State.advance_rebootLine (s : State) : s.advance.rebootLine = s.rebootLine := by
  unfold State.advance; split
  · rfl
  · split
    · rfl
    · split <;> simp
@[simp] theorem State.advance_outs (s : State) : s.advance.outs = s.outs := by
  unfold State.advance; split
  · rfl
  · split
    · rfl
    · split <;> simp
@[simp] theorem State.advance_events (s : State) : s.advance.events = s.events := by
  unfold State.advance; split
  · rfl
  · split
    · rfl
    · split <;> simp
@[simp] theorem State.advance_calls (s : State) : s.advance.calls = s.calls := by
  unfold State.advance; split
  · rfl
  · split
    · rfl
    · split <;> simp
@[simp] theorem State.advance_macEvals (s : State) : s.advance.macEvals = s.macEvals := by
  unfold State.advance; split
  · rfl
  · split
    · rfl
    · split <;> simp
@[simp] theorem State.advance_draws (s : State) : s.advance.draws = s.draws := by
  unfold State.advance; split
  · rfl
  · split
    · rfl
    · split <;> simp
@[simp] theorem State.advance_flashAnswers (s : State) : s.advance.flashAnswers = s.flashAnswers := by
  unfold State.advance; split
  · rfl
  · split
    · rfl
    · split <;> simp
@[simp] theorem State.advance_cmdRecognized (s : State) : s.advance.cmdRecognized = false := by
  unfold State.advance; split
  · rfl
  · split
    · rfl
    · split <;> rfl

end Sys2Proof.Machine
end

