-- ==== Sys2Proof/Laws/Ops.lean ====
section
/-! SUPPORT. For each shared operation, what it can do, said once. -/

namespace Sys2Proof.Machine

/-! ### Byte order (R63) -/

theorem u16le_le16 (v : U16) : u16le (v.extractLsb' 0 8) (v.extractLsb' 8 8) = v := by
  apply BitVec.eq_of_getLsbD_eq
  intro i hi
  simp only [u16le, BitVec.getLsbD_append, BitVec.getLsbD_extractLsb']
  by_cases h : i < 8
  · simp [h]
  · have hs : i - 8 < 8 := by omega
    have ha : 8 + (i - 8) = i := by omega
    simp [h, hs, ha]

theorem le16_u16le (lo hi : Byte) : le16 (u16le lo hi) = [lo, hi] := by
  have h0 : (u16le lo hi).extractLsb' 0 8 = lo := by
    apply BitVec.eq_of_getLsbD_eq
    intro i hi
    rw [BitVec.getLsbD_extractLsb', u16le, BitVec.getLsbD_append]
    simp [hi]
  have h8 : (u16le lo hi).extractLsb' 8 8 = hi := by
    apply BitVec.eq_of_getLsbD_eq
    intro i hi
    have : ¬ (8 + i < 8) := by omega
    rw [BitVec.getLsbD_extractLsb', u16le, BitVec.getLsbD_append]
    simp [hi, this]
  simp only [le16, h0, h8]

@[simp] theorem length_le16 (v : U16) : (le16 v).length = 2 := rfl

@[simp] theorem length_messageBytes (h : Header) (op : Byte) (pl : List Byte) :
    (messageBytes h op pl).length = 6 + pl.length := by
  simp only [messageBytes, List.length_append, length_le16, List.length_cons, List.length_nil]

/-! ### Reading a range in two parts -/

theorem Memory.readBytes_add (m : Memory) (a n k : Nat) :
    m.readBytes a (n + k) = m.readBytes a n ++ m.readBytes (a + n) k := by
  simp only [Memory.readBytes, List.range_add, List.map_append, List.map_map]
  congr 1
  refine List.map_congr_left fun i _ => ?_
  simp [Nat.add_assoc]

/-- A read inside a written range gives that part of what was written. -/
theorem Memory.readBytes_writeBytes_prefix (m : Memory) (a : Nat) (x y : List Byte) :
    (m.writeBytes a (x ++ y)).readBytes a x.length = x := by
  have h := Memory.readBytes_writeBytes_same m a (x ++ y)
  rw [List.length_append, Memory.readBytes_add] at h
  exact (List.append_inj h (by simp)).1

/-! ### Slots: the scan in index order (R135, R138) -/

theorem firstSlotFrom_some {st : SlotStatus} {l : List Slot} {k j : Nat} (h : firstSlotFrom st k l = some j) :
    k ≤ j ∧ (∃ sl, l[j - k]? = some sl ∧ sl.status = st) ∧
      ∀ i sl, i < j - k → l[i]? = some sl → sl.status ≠ st := by
  induction l generalizing k with
  | nil => simp [firstSlotFrom] at h
  | cons a l ih =>
    simp only [firstSlotFrom] at h
    split at h
    · rename_i ha
      obtain rfl := Option.some.inj h
      exact ⟨Nat.le_refl _, ⟨a, by simp, ha⟩, fun i sl hi => by omega⟩
    · rename_i ha
      obtain ⟨h1, ⟨sl, h2, h3⟩, h4⟩ := ih h
      have hj : j - k = (j - (k + 1)) + 1 := by omega
      refine ⟨by omega, ⟨sl, by rw [hj]; simpa using h2, h3⟩, fun i sl' hi hs => ?_⟩
      cases i with
      | zero => simp only [List.getElem?_cons_zero, Option.some.injEq] at hs; exact hs ▸ ha
      | succ i => exact h4 i sl' (by omega) (by simpa using hs)

theorem firstSlotFrom_none {st : SlotStatus} {l : List Slot} {k : Nat} :
    firstSlotFrom st k l = none ↔ ∀ sl ∈ l, sl.status ≠ st := by
  induction l generalizing k with
  | nil => simp [firstSlotFrom]
  | cons a l ih =>
    simp only [firstSlotFrom, List.mem_cons, forall_eq_or_imp]
    split
    · rename_i ha; simp [ha]
    · rename_i ha; simp [ha, ih]

theorem firstSlotFrom_eq_some {st : SlotStatus} {l : List Slot} {k i : Nat} {sl : Slot} (h : l[i]? = some sl)
    (hs : sl.status = st) (hlt : ∀ j sl', j < i → l[j]? = some sl' → sl'.status ≠ st) :
    firstSlotFrom st k l = some (k + i) := by
  induction l generalizing k i with
  | nil => simp at h
  | cons a l ih =>
    simp only [firstSlotFrom]
    cases i with
    | zero =>
      simp only [List.getElem?_cons_zero, Option.some.injEq] at h
      simp [h, hs]
    | succ i =>
      have ha : a.status ≠ st := hlt 0 a (by omega) rfl
      rw [if_neg ha, ih (i := i) (by simpa using h) fun j sl' hj hl => hlt (j + 1) sl' (by omega) (by simpa using hl)]
      congr 1
      omega

/-- The lowest slot of a status: it has it, and no slot below does. -/
theorem SerialPort.firstSlot_some {q : SerialPort} {st : SlotStatus} {k : Nat} (h : q.firstSlot st = some k) :
    (∃ sl, q.slots[k]? = some sl ∧ sl.status = st) ∧ ∀ i sl, i < k → q.slots[i]? = some sl → sl.status ≠ st := by
  obtain ⟨_, h1, h2⟩ := firstSlotFrom_some h
  exact ⟨by simpa using h1, by simpa using h2⟩

theorem SerialPort.firstSlot_none {q : SerialPort} {st : SlotStatus} :
    q.firstSlot st = none ↔ ∀ sl ∈ q.slots, sl.status ≠ st := firstSlotFrom_none

theorem SerialPort.firstSlot_eq_some {q : SerialPort} {st : SlotStatus} {k : Nat} {sl : Slot}
    (h : q.slots[k]? = some sl) (hs : sl.status = st)
    (hlt : ∀ j sl', j < k → q.slots[j]? = some sl' → sl'.status ≠ st) : q.firstSlot st = some k := by
  have := firstSlotFrom_eq_some (k := 0) h hs hlt
  simpa [SerialPort.firstSlot] using this

/-- Updating slot `k` leaves every other slot alone. -/
theorem SerialPort.updateSlot_of_ne {q : SerialPort} {k j : Nat} {f : Slot → Slot} (h : j ≠ k) :
    (q.updateSlot k f).slots[j]? = q.slots[j]? := by
  simp only [SerialPort.updateSlot, List.getElem?_modify]
  have hk : k ≠ j := fun hk => h hk.symm
  simp [hk]

/-- Slot `k` after its update. -/
theorem SerialPort.updateSlot_self {q : SerialPort} {k : Nat} {f : Slot → Slot} {sl : Slot}
    (h : q.slots[k]? = some sl) : (q.updateSlot k f).slots[k]? = some (f sl) := by
  simp [SerialPort.updateSlot, h]

@[simp] theorem SerialPort.length_updateSlot (q : SerialPort) (k : Nat) (f : Slot → Slot) :
    (q.updateSlot k f).slots.length = q.slots.length := by
  simp [SerialPort.updateSlot]

/-! ### The end of a service (R139, R162, R167) -/

theorem State.endPhase_of_idle {s : State} (h : s.ml = .idle) : s.endPhase = .idle := by
  simp [State.endPhase, h]

theorem State.endPhase_of_busy {s : State} (h : s.ml ≠ .idle) :
    s.endPhase = if s.msgSrc = .r then .drain else .idle := by
  unfold State.endPhase
  split
  · exact absurd ‹_› h
  · cases s.msgSrc <;> rfl

/-- What is left of a service is what the claims say. -/
theorem State.endPhase_eq (s : State) : s.endPhase = serviceLeft s := by
  unfold serviceLeft
  split
  · exact State.endPhase_of_idle ‹_›
  · exact State.endPhase_of_busy ‹_›

/-- What is left of a service is nothing, or the drain. -/
theorem State.endPhase_cases (s : State) : s.endPhase = .idle ∨ s.endPhase = .drain := by
  unfold State.endPhase
  split
  · exact .inl rfl
  · cases s.msgSrc
    · exact .inl rfl
    · exact .inl rfl
    · exact .inr rfl

theorem State.mlDrain_of_drain {s : State} (h : s.ml = .drain) :
    s.mlDrain = { s with rxFull := false, rxArmed := true, ml := .idle } := by
  simp only [State.mlDrain, h]
  rfl

theorem State.mlDrain_of_not_drain {s : State} (h : s.ml ≠ .drain) : s.mlDrain = s := by
  unfold State.mlDrain
  split
  · exact absurd ‹_› h
  · rfl

theorem State.handlerDone_of_reply {s : State} (h : s.replyLen ≠ 0) : s.handlerDone = { s with ml := .reply } := by
  unfold State.handlerDone; rw [if_neg h]

theorem State.handlerDone_of_none {s : State} (h : s.replyLen = 0) : s.handlerDone = s.endService := by
  unfold State.handlerDone; rw [if_pos h]

/-! ### `cmd_recognized` (R35, R238, R280) -/

theorem State.recognize_eq (s : State) : s.recognize = withRecognized s := by
  unfold State.recognize withRecognized
  cases h : s.cfg.variant <;> simp [State.emit]

/-! ### Replies (R205, R206) -/

theorem State.replyInit_header (s : State) (h : Header) :
    (s.replyInit h).reply.readBytes 0 5 = replyHeader s.cfg h := by
  have := Memory.readBytes_writeBytes_prefix s.reply 0 (replyHeader s.cfg h) [0xFF]
  simpa [State.replyInit, replyHeader] using this

/-- The reply that stands where a handler sets none: a header-only NACK (R205). -/
theorem State.replyInit_repliesWith (s : State) (h : Header) : RepliesWith s (s.replyInit h) h 0xFF [] := by
  refine ⟨?_, rfl, fun k hk => ?_⟩
  · have := Memory.readBytes_writeBytes_same s.reply 0 (le16 s.cfg.selfId ++ le16 h.seqnum ++ [s.cfg.subsysReply, 0xFF])
    simpa [State.replyBytes, State.replyInit, replyHeader] using this
  · exact Memory.byteAt_writeBytes_of_not_mem (.inr (by simpa using hk))

/-- A reply set over a buffer that holds the reply header (R206). -/
theorem State.setReply_repliesWith_of_header {s t : State} {h : Header} {op : Byte} {pl : List Byte}
    (hr : t.reply.readBytes 0 5 = replyHeader s.cfg h) (hk : ∀ k, 6 ≤ k → t.reply.byteAt k = s.reply.byteAt k)
    (hl : pl.length ≤ 247) : RepliesWith s (t.setReply op pl) h op pl := by
  have hlen : (BitVec.ofNat 8 (6 + pl.length)).toNat = 6 + pl.length := by
    rw [BitVec.toNat_ofNat]; exact Nat.mod_eq_of_lt (by omega)
  refine ⟨?_, by simpa using hlen, fun k hle => ?_⟩
  · have h5 : (t.reply.writeBytes 5 (op :: pl)).readBytes 0 5 = replyHeader s.cfg h := by
      rw [Memory.readBytes_writeBytes_disjoint (.inl (by omega)), hr]
    have h6 : (t.reply.writeBytes 5 (op :: pl)).readBytes (0 + 5) (op :: pl).length = op :: pl :=
      Memory.readBytes_writeBytes_same _ _ _
    have hn : 6 + pl.length = 5 + (op :: pl).length := by simp only [List.length_cons]; omega
    simp only [State.replyBytes, State.setReply_reply, State.setReply_replyLen, hlen]
    rw [hn, Memory.readBytes_add, h5, h6]
  · rw [State.setReply_reply, Memory.byteAt_writeBytes_of_not_mem (.inr (by simp only [List.length_cons]; omega))]
    exact hk k (by omega)

/-- A reply set over the initial one (R206). -/
theorem State.setReply_repliesWith {s t : State} {h : Header} {op : Byte} {pl : List Byte}
    (hr : t.reply = (s.replyInit h).reply) (hl : pl.length ≤ 247) : RepliesWith s (t.setReply op pl) h op pl :=
  State.setReply_repliesWith_of_header (by rw [hr, State.replyInit_header])
    (fun k hk => by rw [hr]; exact (State.replyInit_repliesWith s h).2.2 k hk) hl

theorem State.setReply_replyLen_ne {s : State} {op : Byte} {pl : List Byte} (hl : pl.length ≤ 247) :
    (s.setReply op pl).replyLen ≠ 0 := by
  intro h0
  have h1 : (BitVec.ofNat 8 (6 + pl.length)).toNat = 0 := by
    rw [show BitVec.ofNat 8 (6 + pl.length) = 0 from h0]; rfl
  rw [BitVec.toNat_ofNat, Nat.mod_eq_of_lt (by omega)] at h1
  omega

/-- A handler that ends with `setReply` over the initial reply: the whole next state. -/
theorem State.setReply_handledWith {s t : State} {h : Header} {op : Byte} {pl : List Byte} (f : State → State)
    {rl : Byte} {m : MlPhase} (ht : t = { f s with reply := (s.replyInit h).reply, replyLen := rl, ml := m })
    (hl : pl.length ≤ 247) : HandledWith s (t.setReply op pl).handlerDone h op pl f := by
  rw [State.handlerDone_of_reply (State.setReply_replyLen_ne hl)]
  refine ⟨State.setReply_repliesWith (by rw [ht]) hl, ?_⟩
  subst ht
  rfl

/-- A handler that leaves the initial reply, the header-only NACK, as it is. -/
theorem State.default_handledWith {s t : State} {h : Header} (f : State → State) {m : MlPhase}
    (ht : t = { f s with reply := (s.replyInit h).reply, replyLen := 6, ml := m }) :
    HandledWith s t.handlerDone h 0xFF [] f := by
  subst ht
  rw [State.handlerDone_of_reply (by show (6 : Byte) ≠ 0; decide)]
  exact ⟨State.replyInit_repliesWith s h, rfl⟩

/-- A reply of any length either fits and is left for ML, or stops the handler (log 24). -/
theorem replyWith_eq {op : Byte} {pl : List Byte} {s : State} (h : pl.length ≤ 247) :
    replyWith op pl s = .next (s.setReply op pl).handlerDone := by
  simp [replyWith, h]

/-! ### The flash (R270, R271) -/

/-- The erase of a page of the application region. -/
theorem State.erasePage_of_mem {s : State} {p : Nat} (h1 : firstPage s.cfg ≤ p) (h2 : p ≤ lastPage s.cfg) :
    s.erasePage p = { s with flash := s.flash.fill (p * 128) 128 s.cfg.erasedByte } :=
  if_pos ⟨h1, h2⟩

/-- A page write changes no byte outside its page, and none unless it succeeds. -/
theorem State.writePage_byteAt (s : State) (i : Byte) (data : List Byte) {k : Nat}
    (h : s.pageResult i ≠ .ok ∨ k < i.toNat * 128 ∨ i.toNat * 128 + data.length ≤ k) :
    (s.writePage i data).flash.byteAt k = s.flash.byteAt k := by
  cases hr : s.pageResult i with
  | ok =>
    simp only [State.writePage, hr]
    exact Memory.byteAt_writeBytes_of_not_mem (by simpa [hr] using h)
  | errProtected => simp [State.writePage, hr]
  | errBadAddr => simp [State.writePage, hr]

/-- A successful page write lies in the application region (R271). -/
theorem State.pageResult_ok {s : State} {i : Byte} (h : s.pageResult i = .ok) :
    s.cfg.appStart ≤ i.toNat * 128 ∧ i.toNat * 128 + 128 ≤ s.cfg.appEnd + 1 := by
  have hc : pageCheck s.cfg i = .ok := by
    cases hp : pageCheck s.cfg i <;> simp [State.pageResult, hp] at h ⊢
  simp only [pageCheck] at hc
  split at hc
  · cases hc
  · split at hc
    · constructor <;> omega
    · split at hc <;> cases hc

/-! ### The scheduler (R282, R283, R285) -/

/-- A receiver reset during a transmission only emits its request. -/
theorem State.rxReset_of_transmitting {s : State} (h : s.transmitting = true) : s.rxReset = s.emit .rxReset := if_pos h

/-- A receiver reset otherwise discards a deposited packet and arms the receiver. -/
theorem State.rxReset_of_not_transmitting {s : State} (h : s.transmitting = false) :
    s.rxReset = { s.emit .rxReset with rxFull := false, rxArmed := true } := by
  simp [State.rxReset, h]

theorem State.transmitting_iff {s : State} : s.transmitting = true ↔ s.txBusy = true ∨ s.ml = .ranging := by
  simp [State.transmitting]

theorem State.postpone_of_accepted {s : State} {x : U32} (h : x.toNat ≤ s.cfg.postponeMax) :
    s.postpone x = { s.logCall (.postpone x true) with deadline := s.uptime + x } := by
  simp [State.postpone, postponeAccepted, h]

theorem State.postpone_of_too_long {s : State} {x : U32} (h : s.cfg.postponeMax < x.toNat) :
    s.postpone x = s.logCall (.postpone x false) := by
  simp [State.postpone, postponeAccepted, h]

/-! ### The checksum (R168) -/

@[simp] theorem crcOf_nil (b : CrcBinding) : crcOf b [] = 0xFFFF := rfl

theorem crcOf_append_singleton (b : CrcBinding) (x : List Byte) (y : Byte) :
    crcOf b (x ++ [y]) = crcStep b (crcOf b x) y := by
  simp [crcOf]

/-! ### A step -/

/-- On a turn of ML that goes on with the service in progress, what is presented is ML's own step, and what is left of
the queue is what the turn leaves. -/
theorem State.turn_of_mlBusy {s : State} {left : List Stim} (hr : s.rebootLine = false) (ht : turnOfMl s left)
    (hb : s.mlBusy = true) :
    s.fetch = s.mlUnit ∧ s.advance = { s with stim := left, cmdRecognized := false } ∧ s.mlTurn = true := by
  rcases ht with h | ⟨h, rfl | ⟨rest, rfl | ⟨p, rfl⟩⟩⟩
  · simp [State.fetch, hr, h, State.stimUnit, State.advance, State.consumes, State.controllerWrites, State.dropStrobe,
      State.mlTurn]
  · simp [State.fetch, hr, h, State.advance, State.dropStrobe, State.mlTurn]
  · simp [State.fetch, hr, h, State.stimUnit, State.serviceUnit, hb, State.advance, State.consumes, State.dropStrobe,
      State.mlTurn]
  · simp [State.fetch, hr, h, State.stimUnit, State.serviceUnit, hb, State.advance, State.consumes, State.dropStrobe,
      State.mlTurn]

/-- Everything a step that goes on can have done: with a legal configuration, either no unit was presented and the
step was `State.pass`, or the unit presented was decoded and its instruction ran. -/
theorem step_next {s t : State} (h : step s = .next t) :
    configLegal s.cfg = true ∧
      ((s.fetch = none ∧ t = s.pass) ∨
        ∃ u i, s.fetch = some u ∧ decode u = .ok i ∧ exec i s.advance = .next t) := by
  unfold step at h
  split at h
  · rename_i hc
    refine ⟨hc, ?_⟩
    split at h
    · rename_i hf; exact .inl ⟨hf, by cases h; rfl⟩
    · rename_i u hf
      split at h
      · rename_i i hd; exact .inr ⟨u, i, hf, hd, h⟩
      · cases h
  · cases h

end Sys2Proof.Machine
end

