-- ==== Sys2Proof/Laws/Decode.lean ====
section
/-! SUPPORT. The opcode map said once: what `instrOfOpcode` can answer, so that a proof about every Message row splits
into the rows without unfolding the map. -/

namespace Sys2Proof

/-- The opcode map by cases: each assigned opcode's row, the two rows of 0x12, and the unassigned opcodes. -/
theorem instrOfOpcode_cases {motive : Byte → Instr → Prop} (op : Byte) (h : Header) (pl : List Byte)
    (ping : motive 0x00 (.ping h pl))
    (bootloaderAck : motive 0x01 (.bootloaderAck h pl))
    (writePage : motive 0x02 (.writePage h pl))
    (erase : motive 0x0C (.erase h pl))
    (bootloaderNack : motive 0x0F (.bootloaderNack h pl))
    (ack : motive 0x10 (.ack h pl))
    (ascii : motive 0x11 (.ascii h pl))
    (reboot : pl = [] → motive 0x12 (.reboot h))
    (rebootPostpone : pl ≠ [] → motive 0x12 (.rebootPostpone h pl))
    (getTime : motive 0x13 (.getTime h pl))
    (setTime : motive 0x14 (.setTime h pl))
    (ranging : motive 0x15 (.ranging h pl))
    (rangingAck : motive 0x16 (.rangingAck h pl))
    (getTelem : motive 0x17 (.getTelem h pl))
    (telem : motive 0x18 (.telem h pl))
    (getCallsign : motive 0x19 (.getCallsign h pl))
    (setCallsign : motive 0x1A (.setCallsign h pl))
    (callsign : motive 0x1B (.callsign h pl))
    (nack : motive 0xFF (.nack h pl))
    (unassigned : assignedOpcodes.contains op = false → motive op (.unassigned op h pl)) :
    motive op (instrOfOpcode op h pl) := by
  unfold instrOfOpcode
  by_cases h0 : op = 0x00
  · subst h0; rw [if_pos rfl]; exact ping
  rw [if_neg h0]
  by_cases h1 : op = 0x01
  · subst h1; rw [if_pos rfl]; exact bootloaderAck
  rw [if_neg h1]
  by_cases h2 : op = 0x02
  · subst h2; rw [if_pos rfl]; exact writePage
  rw [if_neg h2]
  by_cases h3 : op = 0x0C
  · subst h3; rw [if_pos rfl]; exact erase
  rw [if_neg h3]
  by_cases h4 : op = 0x0F
  · subst h4; rw [if_pos rfl]; exact bootloaderNack
  rw [if_neg h4]
  by_cases h5 : op = 0x10
  · subst h5; rw [if_pos rfl]; exact ack
  rw [if_neg h5]
  by_cases h6 : op = 0x11
  · subst h6; rw [if_pos rfl]; exact ascii
  rw [if_neg h6]
  by_cases h7 : op = 0x12
  · subst h7; rw [if_pos rfl]
    cases pl with
    | nil => exact reboot rfl
    | cons b pl => exact rebootPostpone (by simp)
  rw [if_neg h7]
  by_cases h8 : op = 0x13
  · subst h8; rw [if_pos rfl]; exact getTime
  rw [if_neg h8]
  by_cases h9 : op = 0x14
  · subst h9; rw [if_pos rfl]; exact setTime
  rw [if_neg h9]
  by_cases h10 : op = 0x15
  · subst h10; rw [if_pos rfl]; exact ranging
  rw [if_neg h10]
  by_cases h11 : op = 0x16
  · subst h11; rw [if_pos rfl]; exact rangingAck
  rw [if_neg h11]
  by_cases h12 : op = 0x17
  · subst h12; rw [if_pos rfl]; exact getTelem
  rw [if_neg h12]
  by_cases h13 : op = 0x18
  · subst h13; rw [if_pos rfl]; exact telem
  rw [if_neg h13]
  by_cases h14 : op = 0x19
  · subst h14; rw [if_pos rfl]; exact getCallsign
  rw [if_neg h14]
  by_cases h15 : op = 0x1A
  · subst h15; rw [if_pos rfl]; exact setCallsign
  rw [if_neg h15]
  by_cases h16 : op = 0x1B
  · subst h16; rw [if_pos rfl]; exact callsign
  rw [if_neg h16]
  by_cases h17 : op = 0xFF
  · subst h17; rw [if_pos rfl]; exact nack
  rw [if_neg h17]
  refine unassigned ?_
  have key : op ∉ assignedOpcodes := by
    intro hm
    simp only [assignedOpcodes, List.mem_cons, List.not_mem_nil, or_false] at hm
    rcases hm with hm | hm | hm | hm | hm | hm | hm | hm | hm | hm | hm | hm | hm | hm | hm | hm | hm | hm
    · exact h0 hm
    · exact h1 hm
    · exact h2 hm
    · exact h3 hm
    · exact h4 hm
    · exact h5 hm
    · exact h6 hm
    · exact h7 hm
    · exact h8 hm
    · exact h9 hm
    · exact h10 hm
    · exact h11 hm
    · exact h12 hm
    · exact h13 hm
    · exact h14 hm
    · exact h15 hm
    · exact h16 hm
    · exact h17 hm
  simpa using key

/-- The opcode map on an unassigned opcode. -/
theorem instrOfOpcode_unassigned {op : Byte} (h : Header) (pl : List Byte) (ho : assignedOpcodes.contains op = false) :
    instrOfOpcode op h pl = .unassigned op h pl := by
  revert ho
  refine instrOfOpcode_cases (motive := fun op i => assignedOpcodes.contains op = false → i = .unassigned op h pl) op h pl
    (fun ho => absurd ho (by decide)) (fun ho => absurd ho (by decide)) (fun ho => absurd ho (by decide)) (fun ho => absurd ho (by decide)) (fun ho => absurd ho (by decide)) (fun ho => absurd ho (by decide)) (fun ho => absurd ho (by decide))
    (fun _ ho => absurd ho (by decide)) (fun _ ho => absurd ho (by decide))
    (fun ho => absurd ho (by decide)) (fun ho => absurd ho (by decide)) (fun ho => absurd ho (by decide)) (fun ho => absurd ho (by decide)) (fun ho => absurd ho (by decide)) (fun ho => absurd ho (by decide)) (fun ho => absurd ho (by decide)) (fun ho => absurd ho (by decide)) (fun ho => absurd ho (by decide)) (fun ho => absurd ho (by decide))
    (fun _ _ => rfl)

/-- The decoder on a Message: the opcode map on its opcode, where the payload fits (R93). -/
theorem decode_encodeMessage {op : Byte} {h : Header} {pl : List Byte} (hp : payloadFits pl = true) :
    decode (encodeMessage op h pl) = .ok (instrOfOpcode op h pl) := by
  simp [decode, encodeMessage, messageBytes, le16, decodeMessage, hp, Machine.u16le_le16]

/-- What the decoder reads from a Message, if it reads anything: header and payload as R93 lays them out. -/
theorem decodeMessage_ok {bs : List Byte} {i : Instr} (hd : decodeMessage bs = .ok i) :
    ∃ op h pl, payloadFits pl = true ∧ bs = messageBytes h op pl ∧ i = instrOfOpcode op h pl := by
  unfold decodeMessage at hd
  split at hd
  · rename_i id0 id1 sq0 sq1 sub op pl
    split at hd
    · rename_i hp
      cases hd
      exact ⟨op, ⟨u16le id0 id1, u16le sq0 sq1, sub⟩, pl, hp, by simp [messageBytes, Machine.le16_u16le], rfl⟩
    · cases hd
  · cases hd

/-! ### Message rows and the others -/

/-- Whether an instruction is a Message matched by its opcode (30_encoding.md section 4). -/
def Instr.isMessage : Instr → Bool
  | .ping _ _ | .bootloaderAck _ _ | .writePage _ _ | .erase _ _ | .bootloaderNack _ _ | .ack _ _ | .ascii _ _
  | .reboot _ | .rebootPostpone _ _ | .getTime _ _ | .setTime _ _ | .ranging _ _ | .rangingAck _ _ | .getTelem _ _
  | .telem _ _ | .getCallsign _ _ | .setCallsign _ _ | .callsign _ _ | .nack _ _ | .unassigned _ _ _ => true
  | .serRxWaitStart0 _ _ | .serRxWaitStart1 _ _ | .serRxWaitLengthBad _ _ | .serRxWaitLengthNofree _ _
  | .serRxWaitLengthOk _ _ | .serRxReceiveData _ _ | .poll _ | .serSend _ _ | .rfRx _ | .mlRadio | .radioSend _ _
  | .rfTxDone | .dispatch | .tick | .rst _ => false

/-- A well-formed instruction is a row of the opcode map with a payload that fits, or no Message at all. -/
theorem Instr.message_or_not {i : Instr} (h : i.wf = true) :
    (∃ op hd pl, payloadFits pl = true ∧ i = instrOfOpcode op hd pl) ∨ i.isMessage = false := by
  cases i
  case rebootPostpone hd pl =>
    simp only [Instr.wf, Bool.and_eq_true] at h
    cases pl with
    | nil => simp at h
    | cons b pl => exact .inl ⟨0x12, hd, b :: pl, h.2, rfl⟩
  case unassigned op hd pl =>
    simp only [Instr.wf, Bool.and_eq_true, Bool.not_eq_true'] at h
    exact .inl ⟨op, hd, pl, h.2, (instrOfOpcode_unassigned hd pl h.1).symm⟩
  case ping hd pl => exact .inl ⟨0x00, hd, pl, h, rfl⟩
  case bootloaderAck hd pl => exact .inl ⟨0x01, hd, pl, h, rfl⟩
  case writePage hd pl => exact .inl ⟨0x02, hd, pl, h, rfl⟩
  case erase hd pl => exact .inl ⟨0x0C, hd, pl, h, rfl⟩
  case bootloaderNack hd pl => exact .inl ⟨0x0F, hd, pl, h, rfl⟩
  case ack hd pl => exact .inl ⟨0x10, hd, pl, h, rfl⟩
  case ascii hd pl => exact .inl ⟨0x11, hd, pl, h, rfl⟩
  case reboot hd => exact .inl ⟨0x12, hd, [], rfl, rfl⟩
  case getTime hd pl => exact .inl ⟨0x13, hd, pl, h, rfl⟩
  case setTime hd pl => exact .inl ⟨0x14, hd, pl, h, rfl⟩
  case ranging hd pl => exact .inl ⟨0x15, hd, pl, h, rfl⟩
  case rangingAck hd pl => exact .inl ⟨0x16, hd, pl, h, rfl⟩
  case getTelem hd pl => exact .inl ⟨0x17, hd, pl, h, rfl⟩
  case telem hd pl => exact .inl ⟨0x18, hd, pl, h, rfl⟩
  case getCallsign hd pl => exact .inl ⟨0x19, hd, pl, h, rfl⟩
  case setCallsign hd pl => exact .inl ⟨0x1A, hd, pl, h, rfl⟩
  case callsign hd pl => exact .inl ⟨0x1B, hd, pl, h, rfl⟩
  case nack hd pl => exact .inl ⟨0xFF, hd, pl, h, rfl⟩
  all_goals exact .inr rfl

/-- Only the Message carrier presents a Message. -/
theorem decode_message_or_not {u : WireUnit} {i : Instr} (hd : decode u = .ok i) :
    (u.carrier = .message ∧ ∃ op h pl, payloadFits pl = true ∧ u.bytes = messageBytes h op pl ∧ i = instrOfOpcode op h pl) ∨
      (u.carrier ≠ .message ∧ i.isMessage = false) := by
  obtain ⟨c, bs⟩ := u
  cases c
  case message => exact .inl ⟨rfl, decodeMessage_ok hd⟩
  case serialIn p st f =>
    refine .inr ⟨by simp, ?_⟩
    simp only [decode] at hd
    split at hd
    · cases hd
      cases st <;> simp only [decodeSerialByte] <;> first | rfl | skip
      cases frameLengthOk _ <;> cases f <;> rfl
    · cases hd
  case serialOut p =>
    refine .inr ⟨by simp, ?_⟩
    simp only [decode] at hd; split at hd <;> cases hd; rfl
  case radioOut f =>
    refine .inr ⟨by simp, ?_⟩
    simp only [decode] at hd; split at hd <;> cases hd; rfl
  case radioIn =>
    refine .inr ⟨by simp, ?_⟩
    simp only [decode] at hd
    split at hd
    · cases hd
    · split at hd <;> cases hd; rfl
  all_goals
    refine .inr ⟨by simp, ?_⟩
    simp only [decode] at hd
    cases bs <;> simp only [decodeBare] at hd <;> cases hd
    rfl

end Sys2Proof
end

