-- ==== Sys2Proof/Laws/Handlers.lean ====
section
/-! SUPPORT. Local delivery said once: what a handler starts from (R204, R205, R238), and the three ways it ends (R206,
R207). A proof about one opcode rewrites with the delivery of its variant and closes with one of the endings. -/

namespace Sys2Proof.Machine

/-! ### What a handler starts from -/

/-- The state a handler of the table runs in: recognized, with the header-only NACK as its reply. -/
theorem State.replyInit_recognize (s : State) (h : Header) :
    (s.replyInit h).recognize = { withRecognized s with reply := (s.replyInit h).reply, replyLen := 6 } := by
  rw [State.recognize_eq]; rfl

theorem deliverBootloader_entry {op : Byte} {h : Header} {pl : List Byte}
    {handler : State → Host.Outcome State Fault Refusal} {s : State} (hv : s.cfg.variant = .bootloader) :
    deliverBootloader op h pl handler s =
      handler { withRecognized s with reply := (s.replyInit h).reply, replyLen := 6 } := by
  simp only [deliverBootloader, hv, State.replyInit_recognize]

theorem deliverBootloader_unmatched {op : Byte} {h : Header} {pl : List Byte}
    {handler : State → Host.Outcome State Fault Refusal} {s : State} (hv : s.cfg.variant = .application) :
    deliverBootloader op h pl handler s = unmatched op h pl (s.replyInit h) := by
  simp only [deliverBootloader, hv]

theorem deliverApplication_entry {op : Byte} {h : Header} {pl : List Byte}
    {handler : State → Host.Outcome State Fault Refusal} {s : State} (hv : s.cfg.variant = .application) :
    deliverApplication op h pl handler s =
      handler { withRecognized s with reply := (s.replyInit h).reply, replyLen := 6 } := by
  simp only [deliverApplication, hv, State.replyInit_recognize]

theorem deliverApplication_unmatched {op : Byte} {h : Header} {pl : List Byte}
    {handler : State → Host.Outcome State Fault Refusal} {s : State} (hv : s.cfg.variant = .bootloader) :
    deliverApplication op h pl handler s = unmatched op h pl (s.replyInit h) := by
  simp only [deliverApplication, hv]

theorem deliverBlocking_entry {v : Variant} {op : Byte} {h : Header} {pl : List Byte}
    {handler : State → Host.Outcome State Fault Refusal} {s : State} (hv : s.cfg.variant = v) :
    deliverBlocking v op h pl handler s = handler (s.replyInit h) := if_pos hv

theorem deliverBlocking_unmatched {v : Variant} {op : Byte} {h : Header} {pl : List Byte}
    {handler : State → Host.Outcome State Fault Refusal} {s : State} (hv : s.cfg.variant ≠ v) :
    deliverBlocking v op h pl handler s = unmatched op h pl (s.replyInit h) := if_neg hv

theorem unmatched_bootloader {op : Byte} {h : Header} {pl : List Byte} {s : State}
    (hv : s.cfg.variant = .bootloader) :
    unmatched op h pl (s.replyInit h) = .next ((s.replyInit h).raiseEvent (.unknownOpcode op)).handlerDone := by
  simp only [unmatched, State.replyInit_cfg, hv]

theorem unmatched_application {op : Byte} {h : Header} {pl : List Byte} {s : State}
    (hv : s.cfg.variant = .application) :
    unmatched op h pl (s.replyInit h) =
      match extAnswer s.cfg.ext op (messageBytes h op pl) with
      | none =>
        .next (((s.replyInit h).logCall (.ext (messageBytes h op pl) none)).raiseEvent (.unknownOpcode op)).handlerDone
      | some .silent =>
        .next (((s.replyInit h).logCall (.ext (messageBytes h op pl) (some .silent))).recognize.noReply).handlerDone
      | some (.reply rop rpl) =>
        replyWith rop rpl ((s.replyInit h).logCall (.ext (messageBytes h op pl) (some (.reply rop rpl)))).recognize := by
  cases he : extAnswer s.cfg.ext op (messageBytes h op pl) with
  | none => simp only [unmatched, State.replyInit_cfg, hv, he]
  | some a => cases a <;> simp only [unmatched, State.replyInit_cfg, hv, he]

/-! ### The handlers that block (R357): the first step, the next ones, and the other variant -/

theorem execErase_start {h : Header} {pl : List Byte} {s : State} (hv : s.cfg.variant = .bootloader)
    (hm : ∀ p, s.ml ≠ .erasing p) : execErase h pl s = .next (s.replyInit h).beginErase := by
  unfold execErase
  split
  · exact absurd ‹_› (hm _)
  · exact deliverBlocking_entry hv

theorem execErase_next {h : Header} {pl : List Byte} {s : State} {p : Nat} (hv : s.cfg.variant = .bootloader)
    (hm : s.ml = .erasing p) : execErase h pl s = eraseNext p s := by
  simp only [execErase, hv, hm]

theorem execErase_unmatched {h : Header} {pl : List Byte} {s : State} (hv : s.cfg.variant = .application) :
    execErase h pl s = unmatched 0x0C h pl (s.replyInit h) := by
  simp only [execErase, hv]
  exact deliverBlocking_unmatched (by rw [hv]; simp)

theorem execWritePage_start {h : Header} {pl : List Byte} {s : State} (hv : s.cfg.variant = .bootloader)
    (hm : s.ml ≠ .programming) : execWritePage h pl s = writePageStart pl (s.replyInit h).recognize := by
  unfold execWritePage
  split
  · exact absurd ‹_› hm
  · exact deliverBlocking_entry hv

theorem execWritePage_done {h : Header} {pl : List Byte} {s : State} (hv : s.cfg.variant = .bootloader)
    (hm : s.ml = .programming) : execWritePage h pl s = writePageDone pl s := by
  simp only [execWritePage, hv, hm]

theorem execWritePage_unmatched {h : Header} {pl : List Byte} {s : State} (hv : s.cfg.variant = .application) :
    execWritePage h pl s = unmatched 0x02 h pl (s.replyInit h) := by
  simp only [execWritePage, hv]
  exact deliverBlocking_unmatched (by rw [hv]; simp)

theorem execRanging_start {h : Header} {pl : List Byte} {s : State} (hv : s.cfg.variant = .application)
    (hm : s.ml ≠ .ranging) : execRanging h pl s = rangingStart (s.replyInit h) := by
  unfold execRanging
  split
  · exact absurd ‹_› hm
  · exact deliverBlocking_entry hv

theorem execRanging_done {h : Header} {pl : List Byte} {s : State} (hv : s.cfg.variant = .application)
    (hm : s.ml = .ranging) : execRanging h pl s = rangingDone s := by
  simp only [execRanging, hv, hm]

theorem execRanging_unmatched {h : Header} {pl : List Byte} {s : State} (hv : s.cfg.variant = .bootloader) :
    execRanging h pl s = unmatched 0x15 h pl (s.replyInit h) := by
  simp only [execRanging, hv]
  exact deliverBlocking_unmatched (by rw [hv]; simp)

/-! ### How it ends -/

/-- With a reply set over the initial one. -/
theorem handled_setReply {s t : State} {h : Header} {op : Byte} {pl : List Byte}
    {o : Host.Outcome State Fault Refusal} (f : State → State) (ho : o = .next (t.setReply op pl).handlerDone)
    (ht : t = { f s with reply := (s.replyInit h).reply, replyLen := 6, ml := s.ml }) (hl : pl.length ≤ 247) :
    ∃ t, o = .next t ∧ HandledWith s t h op pl f :=
  ⟨_, ho, State.setReply_handledWith f ht hl⟩

/-- With a reply set by a handler that goes on after it was blocked: the header is there from its first step. -/
theorem handled_resumed {s t : State} {h : Header} {op : Byte} {pl : List Byte}
    {o : Host.Outcome State Fault Refusal} (f : State → State) (ho : o = .next (t.setReply op pl).handlerDone)
    (ht : t = { f s with reply := s.reply, ml := s.ml }) (hr : s.reply.readBytes 0 5 = replyHeader s.cfg h)
    (hl : pl.length ≤ 247) : ∃ t, o = .next t ∧ HandledWith s t h op pl f := by
  subst ht
  rw [State.handlerDone_of_reply (State.setReply_replyLen_ne hl)] at ho
  exact ⟨_, ho, State.setReply_repliesWith_of_header hr (fun _ _ => rfl) hl, rfl⟩

/-- With the initial reply, the header-only NACK. -/
theorem handled_default {s t : State} {h : Header} {o : Host.Outcome State Fault Refusal} (f : State → State)
    (ho : o = .next t.handlerDone)
    (ht : t = { f s with reply := (s.replyInit h).reply, replyLen := 6, ml := s.ml }) :
    ∃ t, o = .next t ∧ HandledWith s t h 0xFF [] f :=
  ⟨_, ho, State.default_handledWith f ht⟩

/-- With no reply: the dispatch is over. -/
theorem handled_silently {s t : State} {h : Header} {o : Host.Outcome State Fault Refusal} (f : State → State)
    (ho : o = .next t.noReply.handlerDone)
    (ht : t = { f s with reply := (s.replyInit h).reply, replyLen := 6 }) (hm : (f s).ml = s.ml)
    (hs : (f s).msgSrc = s.msgSrc) : ∃ t, o = .next t ∧ HandledSilently s t h f := by
  subst ht
  rw [State.handlerDone_of_none rfl] at ho
  refine ⟨_, ho, rfl, rfl, ?_⟩
  unfold State.endService
  rw [State.endPhase_eq]
  simp [State.noReply, serviceLeft, hm, hs]

end Sys2Proof.Machine
end

