-- ==== Sys2Proof/Laws/Delivery.lean ====
section
/-! SUPPORT. What a local delivery can do to the machine, said once for every opcode (R204, R206): `exec_delivers`. A
claim about all handlers is a claim about `Kept` and the end of the service. -/

namespace Sys2Proof.Machine

/-- What no handler changes before it ends (R61, R211), what it keeps in order, and the flash it may not touch
(R270, R271). -/
structure Kept (s t : State) : Prop where
  cfg : t.cfg = s.cfg
  port0 : t.port0 = s.port0
  port1 : t.port1 = s.port1
  rxFull : t.rxFull = s.rxFull
  rxBuf : t.rxBuf = s.rxBuf
  txBusy : t.txBusy = s.txBusy
  txBuf : t.txBuf = s.txBuf
  radioGood : t.radioGood = s.radioGood
  radioRejCrc : t.radioRejCrc = s.radioRejCrc
  radioRejOther : t.radioRejOther = s.radioRejOther
  radioSent : t.radioSent = s.radioSent
  msg : t.msg = s.msg
  msgLen : t.msgLen = s.msgLen
  msgSrc : t.msgSrc = s.msgSrc
  msgFbit : t.msgFbit = s.msgFbit
  uptime : t.uptime = s.uptime
  idleTicks : t.idleTicks = s.idleTicks
  stim : t.stim = s.stim
  ml : t.ml = s.ml
  rebootLine : t.rebootLine = s.rebootLine
  reply : s.reply.wf → t.reply.wf
  callsign : s.callsign.wf → t.callsign.wf
  timeVal : s.timeVal.wf → t.timeVal.wf
  flash : s.flash.wf → t.flash.wf
  flashOutside : flashMapLegal s.cfg = true →
    ∀ a, (a < s.cfg.appStart ∨ s.cfg.appEnd < a) → t.flash.byteAt a = s.flash.byteAt a
  flashApplication : s.cfg.variant = .application → t.flash = s.flash
  handlers : handlersOk s → handlersOk t

theorem Kept.refl (s : State) : Kept s s := by constructor <;> intros <;> first | rfl | assumption

theorem Kept.trans {s t u : State} (h : Kept s t) (k : Kept t u) : Kept s u where
  cfg := k.cfg.trans h.cfg
  port0 := k.port0.trans h.port0
  port1 := k.port1.trans h.port1
  rxFull := k.rxFull.trans h.rxFull
  rxBuf := k.rxBuf.trans h.rxBuf
  txBusy := k.txBusy.trans h.txBusy
  txBuf := k.txBuf.trans h.txBuf
  radioGood := k.radioGood.trans h.radioGood
  radioRejCrc := k.radioRejCrc.trans h.radioRejCrc
  radioRejOther := k.radioRejOther.trans h.radioRejOther
  radioSent := k.radioSent.trans h.radioSent
  msg := k.msg.trans h.msg
  msgLen := k.msgLen.trans h.msgLen
  msgSrc := k.msgSrc.trans h.msgSrc
  msgFbit := k.msgFbit.trans h.msgFbit
  uptime := k.uptime.trans h.uptime
  idleTicks := k.idleTicks.trans h.idleTicks
  stim := k.stim.trans h.stim
  ml := k.ml.trans h.ml
  rebootLine := k.rebootLine.trans h.rebootLine
  reply := fun w => k.reply (h.reply w)
  callsign := fun w => k.callsign (h.callsign w)
  timeVal := fun w => k.timeVal (h.timeVal w)
  flash := fun w => k.flash (h.flash w)
  flashOutside := fun m a ha =>
    (k.flashOutside (by rw [h.cfg]; exact m) a (by rw [h.cfg]; exact ha)).trans (h.flashOutside m a ha)
  flashApplication := fun v => (k.flashApplication (by rw [h.cfg]; exact v)).trans (h.flashApplication v)
  handlers := fun w => k.handlers (h.handlers w)

/-! ### One lemma per update -/

theorem Kept.emit (s : State) (o : Output) : Kept s (s.emit o) := by constructor <;> intros <;> first | rfl | assumption
theorem Kept.raiseEvent (s : State) (e : Event) : Kept s (s.raiseEvent e) := by
  constructor <;> intros <;> first | rfl | assumption
theorem Kept.logCall (s : State) (c : Call) : Kept s (s.logCall c) := by
  constructor <;> intros <;> first | rfl | assumption
theorem Kept.noReply (s : State) : Kept s s.noReply := by constructor <;> intros <;> first | rfl | assumption
theorem Kept.replyInit (s : State) (h : Header) : Kept s (s.replyInit h) := by
  constructor <;> intros <;> first | rfl | assumption | exact Memory.wf_writeBytes ‹_› _ _
theorem Kept.setReply (s : State) (op : Byte) (pl : List Byte) : Kept s (s.setReply op pl) := by
  constructor <;> intros <;> first | rfl | assumption | exact Memory.wf_writeBytes ‹_› _ _
theorem Kept.rangingReply (s : State) : Kept s s.rangingReply := by
  constructor <;> intros <;> first | rfl | assumption | exact Memory.wf_writeBytes ‹_› _ _
theorem Kept.rangingTx (s : State) (m : List Byte) (b : Bool) : Kept s (s.rangingTx m b) := by
  constructor <;> intros <;> first | rfl | assumption
theorem Kept.drawTelemetry (s : State) : Kept s s.drawTelemetry := by
  constructor <;> intros <;> first | rfl | assumption
theorem Kept.verify (s : State) : Kept s s.verify := by constructor <;> intros <;> first | rfl | assumption
theorem Kept.keepalive (s : State) (v : Nat) : Kept s { s with keepalive := v } := by
  constructor <;> intros <;> first | rfl | assumption
theorem Kept.setTime (s : State) (bs : List Byte) (h : s.cfg.timeBytes ≤ 247) :
    Kept s { s with timeVal := s.timeVal.writeBytes 0 bs, timeSet := true } := by
  constructor <;> intros <;> first | rfl | assumption | exact Memory.wf_writeBytes ‹_› _ _ | skip
  rename_i w
  exact ⟨w.1, w.2.1, fun _ => h⟩
theorem Kept.setCallsign (s : State) (bs : List Byte) (h : bs.length ≤ s.cfg.callsignMax) (h' : bs.length ≤ 247) :
    Kept s { s with callsign := s.callsign.writeBytes 0 bs, callsignLen := bs.length } := by
  constructor <;> intros <;> first | rfl | assumption | exact Memory.wf_writeBytes ‹_› _ _ | skip
  rename_i w
  exact ⟨h', h, w.2.2⟩
theorem Kept.postpone (s : State) (x : U32) : Kept s (s.postpone x) := by
  unfold State.postpone; split <;> (constructor <;> intros <;> first | rfl | assumption)
theorem Kept.recognize (s : State) : Kept s s.recognize := by
  rw [State.recognize_eq]; constructor <;> intros <;> first | rfl | assumption

theorem Kept.erasePage (s : State) (p : Nat) (hv : s.cfg.variant = .bootloader) : Kept s (s.erasePage p) := by
  unfold State.erasePage
  split
  case isFalse => exact Kept.refl s
  rename_i hp
  constructor <;> intros <;> first | rfl | assumption | exact Memory.wf_fill ‹_› _ _ _ | skip
  rotate_left
  · rename_i ha; rw [hv] at ha; cases ha
  rename_i hm a ha
  simp only [flashMapLegal, Bool.and_eq_true, beq_iff_eq, decide_eq_true_eq] at hm
  obtain ⟨⟨⟨⟨⟨⟨h1, h2⟩, h3⟩, h4⟩, h5⟩, h6⟩, h7⟩ := hm
  simp only [firstPage, lastPage] at hp
  simp only [Memory.fill_eq_writeBytes]
  refine Memory.byteAt_writeBytes_of_not_mem ?_
  rw [List.length_replicate]
  omega

theorem Kept.writePage (s : State) (i : Byte) (data : List Byte) (hd : data.length ≤ 128)
    (hv : s.cfg.variant = .bootloader) :
    Kept s (s.writePage i data) := by
  constructor <;> intros <;> first | rfl | assumption | skip
  · rename_i w
    cases hr : s.pageResult i <;> simp only [State.writePage, hr]
    · exact Memory.wf_writeBytes w _ _
    · exact w
    · exact w
  · rename_i hm a ha
    cases hr : s.pageResult i with
    | ok =>
      obtain ⟨h1, h2⟩ := State.pageResult_ok hr
      exact State.writePage_byteAt s i data (.inr (by omega))
    | errProtected => exact State.writePage_byteAt s i data (.inl (by rw [hr]; simp))
    | errBadAddr => exact State.writePage_byteAt s i data (.inl (by rw [hr]; simp))
  · rename_i ha; rw [hv] at ha; cases ha

theorem Kept.pageTail (s : State) (i : Byte) : Kept s (s.pageTail i) := by
  unfold State.pageTail State.page255Tail
  split
  · split
    · exact (Kept.verify s).trans (Kept.keepalive _ _)
    · exact (Kept.verify s).trans (Kept.raiseEvent _ _)
  · exact Kept.refl s

/-! ### How a delivery ends -/

/-- A reply length is 0, for no reply, or 6..253 (R206). -/
def replyLenOk (n : Byte) : Prop := n = 0 ∨ (6 ≤ n.toNat ∧ n.toNat ≤ 253)

theorem replyLenOk_setReply {s : State} {op : Byte} {pl : List Byte} (h : pl.length ≤ 247) :
    replyLenOk (s.setReply op pl).replyLen := by
  right
  have : (BitVec.ofNat 8 (6 + pl.length)).toNat = 6 + pl.length := by
    rw [BitVec.toNat_ofNat]; exact Nat.mod_eq_of_lt (by omega)
  rw [State.setReply_replyLen, this]; omega

/-- If the delivery goes on, its state is one a handler may leave, after `handlerDone`, perhaps with a reboot
requested, or with the handler blocked in a collaborator, in a ranging transmission with the receiver disarmed. -/
def Delivers (s : State) (o : Host.Outcome State Fault Refusal) : Prop :=
  ∀ t, o = .next t → ∃ u, Kept s u ∧
    (replyLenOk u.replyLen ∧ (t = u.handlerDone ∨ t = u.handlerDone.requestReboot) ∨
      ∃ p, handling p = true ∧ (p = .ranging → u.rxArmed = false) ∧ t = { u with ml := p })

theorem Delivers.next {s u : State} (k : Kept s u) (hl : replyLenOk u.replyLen) : Delivers s (.next u.handlerDone) := by
  intro t h; cases h; exact ⟨u, k, .inl ⟨hl, .inl rfl⟩⟩

theorem Delivers.blocked {s u : State} {p : MlPhase} (k : Kept s u) (hp : handling p = true)
    (ha : p = .ranging → u.rxArmed = false) : Delivers s (.next { u with ml := p }) := by
  intro t h; cases h; exact ⟨u, k, .inr ⟨p, hp, ha, rfl⟩⟩

theorem Delivers.setReply {s u : State} {op : Byte} {pl : List Byte} (k : Kept s u) (hl : pl.length ≤ 247) :
    Delivers s (.next (u.setReply op pl).handlerDone) :=
  .next (k.trans (Kept.setReply u op pl)) (replyLenOk_setReply hl)

theorem Delivers.noReply {s u : State} (k : Kept s u) : Delivers s (.next u.noReply.handlerDone) :=
  .next (k.trans (Kept.noReply u)) (.inl rfl)

theorem Delivers.replyWith {s u : State} {op : Byte} {pl : List Byte} (k : Kept s u) :
    Delivers s (replyWith op pl u) := by
  unfold Machine.replyWith
  split
  · exact .setReply k ‹_›
  · intro t h; cases h

theorem Delivers.of_kept {s u : State} {o : Host.Outcome State Fault Refusal} (k : Kept s u) (d : Delivers u o) :
    Delivers s o := by
  intro t h
  obtain ⟨v, kv, hv⟩ := d t h
  exact ⟨v, k.trans kv, hv⟩

theorem delivers_unmatched (op : Byte) (h : Header) (pl : List Byte) (s : State) (hl : replyLenOk s.replyLen) :
    Delivers s (unmatched op h pl s) := by
  unfold unmatched
  split
  · exact .next (Kept.raiseEvent _ _) hl
  · dsimp only
    split
    · exact .next ((Kept.logCall _ _).trans (Kept.raiseEvent _ _)) hl
    · exact .noReply ((Kept.logCall _ _).trans (Kept.recognize _))
    · exact .replyWith ((Kept.logCall _ _).trans (Kept.recognize _))

theorem delivers_deliverUnmatched (op : Byte) (h : Header) (pl : List Byte) (s : State) :
    Delivers s (deliverUnmatched op h pl s) :=
  .of_kept (Kept.replyInit s h) (delivers_unmatched op h pl _ (.inr (by rw [State.replyInit_replyLen]; decide)))

theorem recognize_replyInit_replyLen (s : State) (h : Header) : (s.replyInit h).recognize.replyLen = 6 := by simp

theorem delivers_deliverBootloader {op : Byte} {h : Header} {pl : List Byte}
    {handler : State → Host.Outcome State Fault Refusal} {s : State}
    (d : ∀ u : State, u.cfg.variant = .bootloader → Delivers u (handler u)) :
    Delivers s (deliverBootloader op h pl handler s) := by
  unfold deliverBootloader
  split
  · exact .of_kept ((Kept.replyInit s h).trans (Kept.recognize _)) (d _ (by simpa using ‹_›))
  · exact delivers_deliverUnmatched op h pl s

theorem delivers_deliverBlocking {v : Variant} {op : Byte} {h : Header} {pl : List Byte}
    {handler : State → Host.Outcome State Fault Refusal} {s : State}
    (d : ∀ u : State, u.cfg.variant = v → Delivers u (handler u)) : Delivers s (deliverBlocking v op h pl handler s) := by
  unfold deliverBlocking
  split
  · exact .of_kept (Kept.replyInit s h) (d _ (by simpa using ‹_›))
  · exact delivers_deliverUnmatched op h pl s

theorem delivers_deliverApplication {op : Byte} {h : Header} {pl : List Byte}
    {handler : State → Host.Outcome State Fault Refusal} {s : State}
    (d : ∀ u : State, u.replyLen = 6 → Delivers u (handler u)) : Delivers s (deliverApplication op h pl handler s) := by
  unfold deliverApplication
  split
  · exact delivers_deliverUnmatched op h pl s
  · exact .of_kept ((Kept.replyInit s h).trans (Kept.recognize _)) (d _ (recognize_replyInit_replyLen s h))

theorem delivers_commonInbound (h : Header) (s : State) : Delivers s (commonInbound h s) := by
  unfold commonInbound
  split
  · exact .noReply ((Kept.replyInit s h).trans (Kept.recognize _))
  · exact .next ((Kept.replyInit s h).trans (Kept.recognize _))
      (.inr (by rw [recognize_replyInit_replyLen]; decide))

/-! ### The handlers -/

theorem replyLenOk_six {n : Byte} (h : n = 6) : replyLenOk n := .inr (by rw [h]; decide)

theorem delivers_writePageDone (pl : List Byte) (u : State) (hv : u.cfg.variant = .bootloader) :
    Delivers u (writePageDone pl u) := by
  unfold writePageDone
  have hd : (pageData pl).length ≤ 128 := by simp only [pageData, List.length_take]; omega
  dsimp only
  split
  · exact .setReply ((Kept.writePage _ _ _ hd hv).trans (Kept.pageTail _ _)) (by simp)
  · exact .setReply ((Kept.writePage _ _ _ hd hv).trans (Kept.raiseEvent _ _)) (by decide)

theorem delivers_execWritePage (h : Header) (pl : List Byte) (s : State) : Delivers s (execWritePage h pl s) := by
  unfold execWritePage
  split
  · exact delivers_writePageDone pl s ‹_›
  · refine delivers_deliverBlocking fun u hv => .of_kept (Kept.recognize u) ?_
    unfold writePageStart
    split
    · exact .setReply (Kept.raiseEvent _ _) (by decide)
    · split
      · exact .blocked (Kept.refl _) rfl nofun
      · exact delivers_writePageDone pl _ (by simpa using hv)

theorem delivers_execErase (h : Header) (pl : List Byte) (s : State) : Delivers s (execErase h pl s) := by
  unfold execErase
  split
  · unfold eraseNext
    split
    · exact .blocked (Kept.erasePage s _ ‹_›) rfl nofun
    · exact .setReply ((Kept.erasePage s _ ‹_›).trans (Kept.recognize _)) (by decide)
  · exact delivers_deliverBlocking fun u _ => .blocked (Kept.logCall u _) rfl nofun

theorem delivers_rebootHandler (u : State) : Delivers u (rebootHandler u) := by
  intro t h; cases h; exact ⟨u.noReply, Kept.noReply u, .inl ⟨.inl rfl, .inr rfl⟩⟩

theorem delivers_postponeHandler (pl : List Byte) (u : State) (h : u.replyLen = 6) :
    Delivers u (postponeHandler pl u) := by
  unfold postponeHandler
  split
  · exact .next (Kept.raiseEvent _ _) (replyLenOk_six h)
  · dsimp only
    split <;> exact .setReply (Kept.postpone _ _) (by decide)

theorem delivers_setTimeHandler (pl : List Byte) (hp : pl.length ≤ 247) (u : State) (h : u.replyLen = 6) :
    Delivers u (setTimeHandler pl u) := by
  unfold setTimeHandler
  split
  · exact .next (Kept.raiseEvent _ _) (replyLenOk_six h)
  · exact .setReply (Kept.setTime _ _ (by omega)) (by decide)

theorem delivers_setCallsignHandler (pl : List Byte) (hp : pl.length ≤ 247) (u : State) (h : u.replyLen = 6) :
    Delivers u (setCallsignHandler pl u) := by
  unfold setCallsignHandler
  split
  · exact .next (Kept.raiseEvent _ _) (replyLenOk_six h)
  · exact .setReply (Kept.setCallsign _ _ (by omega) hp) (by decide)

theorem delivers_getTimeHandler (u : State) (h : u.replyLen = 6) : Delivers u (getTimeHandler u) := by
  unfold getTimeHandler
  split
  · exact .replyWith (Kept.refl u)
  · exact .next (Kept.refl u) (replyLenOk_six h)

theorem Kept.rxArmed (s : State) (b : Bool) : Kept s { s with rxArmed := b } := by
  constructor <;> intros <;> first | rfl | assumption

theorem delivers_execRanging (h : Header) (pl : List Byte) (s : State) : Delivers s (execRanging h pl s) := by
  unfold execRanging
  split
  · exact .noReply (Kept.rxArmed s true)
  · exact delivers_deliverBlocking fun u _ =>
      .blocked ((Kept.recognize u).trans ((Kept.rangingReply _).trans (Kept.rangingTx _ _ _))) rfl fun _ => rfl

/-- Every opcode: what a local delivery can do. -/
theorem exec_delivers (op : Byte) (h : Header) (pl : List Byte) (s : State) (hp : payloadFits pl = true) :
    Delivers s (exec (instrOfOpcode op h pl) s) := by
  have hp' : pl.length ≤ 247 := by simpa [payloadFits] using hp
  refine instrOfOpcode_cases (motive := fun _ i => Delivers s (exec i s)) op h pl ?_ ?_ ?_ ?_ ?_ ?_ ?_ ?_ ?_ ?_ ?_ ?_
    ?_ ?_ ?_ ?_ ?_ ?_ ?_ ?_
  · exact delivers_deliverBootloader fun u _ => .setReply ((Kept.emit u _).trans (Kept.keepalive _ _)) (by decide)
  · exact delivers_deliverUnmatched _ _ _ _
  · exact delivers_execWritePage h pl s
  · exact delivers_execErase h pl s
  · exact delivers_deliverUnmatched _ _ _ _
  · exact delivers_commonInbound h s
  · exact delivers_commonInbound h s
  · exact fun _ => delivers_deliverApplication fun u _ => delivers_rebootHandler u
  · exact fun _ => delivers_deliverApplication fun u hu => delivers_postponeHandler pl u hu
  · exact delivers_deliverApplication fun u hu => delivers_getTimeHandler u hu
  · exact delivers_deliverApplication fun u hu => delivers_setTimeHandler pl hp' u hu
  · exact delivers_execRanging h pl s
  · exact delivers_deliverUnmatched _ _ _ _
  · exact delivers_deliverApplication fun u _ => .replyWith (Kept.drawTelemetry u)
  · exact delivers_deliverUnmatched _ _ _ _
  · exact delivers_deliverApplication fun u _ => .replyWith (Kept.refl u)
  · exact delivers_deliverApplication fun u hu => delivers_setCallsignHandler pl hp' u hu
  · exact delivers_deliverUnmatched _ _ _ _
  · exact delivers_commonInbound h s
  · exact fun _ => delivers_deliverUnmatched _ _ _ _

end Sys2Proof.Machine
end

