-- ==== Sys2Proof/Laws/Serial.lean ====
section
/-! SUPPORT. What a received serial byte can do, said once per state of the decoder (R131 to R136). -/

namespace Sys2Proof.Machine

/-- Writing a port leaves the record of events. -/
theorem State.setPort_withEvents (s : State) (p : Port) (v : SerialPort) :
    s.setPort p v = { s.setPort p v with events := s.events } := by cases p <;> rfl

/-- The row a byte selects, run: `feedByte` is `exec` of it where that goes on. -/
theorem feedByte_of_exec {p : Port} {b : Byte} {s t : State}
    (h : exec (decodeSerialByte p (s.port p).fdState (s.port p).hasFree b) s = .next t) : feedByte p b s = some t := by
  simp only [feedByte, h]

/-- R131. -/
theorem feedByte_waitStart0 {p : Port} {b : Byte} {s : State} (h : (s.port p).fdState = .waitStart0) :
    feedByte p b s =
      some (s.setPort p { s.port p with fdState := if b = marker0 then .waitStart1 else .waitStart0 }) := by
  apply feedByte_of_exec
  simp only [h, decodeSerialByte, exec, execSerRxWaitStart0]

/-- R132. -/
theorem feedByte_waitStart1 {p : Port} {b : Byte} {s : State} (h : (s.port p).fdState = .waitStart1) :
    feedByte p b s =
      some (if b = marker1 then s.setPort p { s.port p with fdState := .waitLength }
        else if b = marker0 then s else s.raiseEvent (.frameDesync p b)) := by
  apply feedByte_of_exec
  simp only [h, decodeSerialByte, exec, execSerRxWaitStart1]
  split
  · rfl
  · split <;> rfl

/-- R133. -/
theorem feedByte_waitLength_bad {p : Port} {b : Byte} {s : State} (h : (s.port p).fdState = .waitLength)
    (hb : frameLengthOk b = false) :
    feedByte p b s =
      some ((s.setPort p { s.port p with fdState := .waitStart1 }).raiseEvent (.badLength p b)) := by
  apply feedByte_of_exec
  simp only [h, decodeSerialByte, exec, execSerRxWaitLengthBad, hb, Bool.false_eq_true, if_false]

/-- R134. -/
theorem feedByte_waitLength_nofree {p : Port} {b : Byte} {s : State} (h : (s.port p).fdState = .waitLength)
    (hb : frameLengthOk b = true) (hf : (s.port p).firstSlot .free = none) :
    feedByte p b s =
      some ((s.setPort p { s.port p with fdState := .waitStart0 }).raiseEvent (.noFreeSlot p b)) := by
  have hh : (s.port p).hasFree = false := by simp only [SerialPort.hasFree, hf, Option.isSome_none]
  apply feedByte_of_exec
  simp only [h, decodeSerialByte, exec, execSerRxWaitLengthNofree, hb, hh, if_true, Bool.false_eq_true, if_false,
    Bool.not_false, Bool.and_true]

/-- R135. -/
theorem feedByte_waitLength_ok {p : Port} {b : Byte} {s : State} {k : Nat} (h : (s.port p).fdState = .waitLength)
    (hb : frameLengthOk b = true) (hf : (s.port p).firstSlot .free = some k) :
    feedByte p b s =
      some (s.setPort p { (s.port p).updateSlot k (fun sl => { sl with status := .filling }) with
        fdSlot := k, fdLen := b, fdOff := 0, fdState := .receiveData }) := by
  have hh : (s.port p).hasFree = true := by simp only [SerialPort.hasFree, hf, Option.isSome_some]
  apply feedByte_of_exec
  simp only [h, decodeSerialByte, exec, execSerRxWaitLengthOk, hb, hh, hf, if_true]

/-- R136. -/
theorem feedByte_receiveData {p : Port} {b : Byte} {s : State} (h : (s.port p).fdState = .receiveData) :
    feedByte p b s =
      some (s.setPort p
        (if (s.port p).fdOff.toNat + 1 = (s.port p).fdLen.toNat then (s.port p).completeFrame b
        else (s.port p).storeByte b)) := by
  apply feedByte_of_exec
  simp only [h, decodeSerialByte, exec, execSerRxReceiveData]
  split <;> rfl

/-- Every byte is received (R137), and touches nothing but its own port and the record of events (R130). -/
theorem feedByte_frame (p : Port) (b : Byte) (s : State) :
    ∃ q ev, feedByte p b s = some { s.setPort p q with events := ev } := by
  have self : s = { s.setPort p (s.port p) with events := s.events } := by cases p <;> rfl
  cases h : (s.port p).fdState with
  | waitStart0 => exact ⟨_, s.events, by rw [feedByte_waitStart0 h, ← State.setPort_withEvents]⟩
  | waitStart1 =>
    rw [feedByte_waitStart1 h]
    split
    · exact ⟨_, s.events, congrArg some (State.setPort_withEvents _ _ _)⟩
    · split
      · exact ⟨s.port p, s.events, by rw [← self]⟩
      · exact ⟨s.port p, s.events ++ [.frameDesync p b], by cases p <;> rfl⟩
  | waitLength =>
    cases hb : frameLengthOk b with
    | false => rw [feedByte_waitLength_bad h hb]; exact ⟨_, _, rfl⟩
    | true =>
      cases hf : (s.port p).firstSlot .free with
      | none => rw [feedByte_waitLength_nofree h hb hf]; exact ⟨_, _, rfl⟩
      | some k =>
        rw [feedByte_waitLength_ok h hb hf]
        exact ⟨_, s.events, congrArg some (State.setPort_withEvents _ _ _)⟩
  | receiveData =>
    rw [feedByte_receiveData h]
    exact ⟨_, s.events, congrArg some (State.setPort_withEvents _ _ _)⟩

end Sys2Proof.Machine
end

