-- ==== Sys2Proof/Laws/Invariant.lean ====
section
/-! SUPPORT. How each operation on a serial port keeps `portOk`, what a step can be presented with, and how the shared
operations keep `MachineInv`. -/

namespace Sys2Proof.Machine

/-! ### The port (R21 to R26) -/

theorem slotOk_reset : slotOk Slot.reset := ⟨Memory.wf_nil, fun h => by cases h⟩

theorem portOk_reset (n : Nat) : portOk n (SerialPort.reset n) := by
  refine ⟨by simp [SerialPort.reset], ?_, fun h => (by cases h), ?_⟩
  · intro sl h
    rw [List.eq_of_mem_replicate h]
    exact slotOk_reset
  · intro k sl h hs
    have := List.mem_of_getElem? h
    rw [List.eq_of_mem_replicate this] at hs
    cases hs

/-- Outside `ReceiveData` no slot is Filling. -/
theorem portOk.not_filling {n : Nat} {q : SerialPort} (h : portOk n q) (hs : q.fdState ≠ .receiveData) (sl : Slot)
    (hm : sl ∈ q.slots) : sl.status ≠ .filling := by
  intro hf
  obtain ⟨k, hk⟩ := List.mem_iff_getElem?.1 hm
  exact hs (h.2.2.2 k sl hk hf).1

/-- Moving between the states before the payload (R131 to R134). -/
theorem portOk.withState {n : Nat} {q : SerialPort} (h : portOk n q) (hs : q.fdState ≠ .receiveData) {st : FdState}
    (ht : st ≠ .receiveData) : portOk n { q with fdState := st } :=
  ⟨h.1, h.2.1, fun hr => absurd hr ht,
    fun _ sl hk hf => absurd hf (h.not_filling hs sl (List.mem_of_getElem? hk))⟩

/-- A slot of an updated pool: the updated slot, or one of the others. -/
theorem SerialPort.mem_updateSlot {q : SerialPort} {k : Nat} {f : Slot → Slot} {sl : Slot}
    (h : sl ∈ (q.updateSlot k f).slots) : sl ∈ q.slots ∨ ∃ sl', q.slots[k]? = some sl' ∧ sl = f sl' := by
  obtain ⟨j, hj⟩ := List.mem_iff_getElem?.1 h
  by_cases hk : j = k
  · subst hk
    cases hq : q.slots[j]? with
    | none =>
      simp [SerialPort.updateSlot, hq] at hj
    | some sl' =>
      rw [SerialPort.updateSlot_self hq] at hj
      exact .inr ⟨sl', rfl, (Option.some.inj hj).symm⟩
  · rw [SerialPort.updateSlot_of_ne hk] at hj
    exact .inl (List.mem_of_getElem? hj)

/-- Selecting a Free slot for a legal length (R135). -/
theorem portOk.select {n k : Nat} {q : SerialPort} {b : Byte} (h : portOk n q) (hs : q.fdState ≠ .receiveData)
    (hb : frameLengthOk b = true) (hk : q.firstSlot .free = some k) :
    portOk n { q.updateSlot k (fun sl => { sl with status := .filling }) with
      fdSlot := k, fdLen := b, fdOff := 0, fdState := .receiveData } := by
  obtain ⟨⟨sl, hsl, hfree⟩, -⟩ := SerialPort.firstSlot_some hk
  simp only [frameLengthOk, decide_eq_true_eq] at hb
  have hself := SerialPort.updateSlot_self (f := fun sl => { sl with status := .filling }) hsl
  refine ⟨by rw [← h.1]; exact SerialPort.length_updateSlot _ _ _, ?_, ?_, ?_⟩
  · intro sl' hm
    rcases SerialPort.mem_updateSlot hm with hm | ⟨sl'', hq, rfl⟩
    · exact h.2.1 sl' hm
    · exact ⟨(h.2.1 sl'' (List.mem_of_getElem? hq)).1, fun hr => by cases hr⟩
  · intro _
    exact ⟨hb.1, hb.2, hb.1, _, hself, rfl⟩
  · intro j sl' hj hf
    refine ⟨rfl, ?_⟩
    by_contra hne
    have hj' := (SerialPort.updateSlot_of_ne (q := q) (f := fun sl => { sl with status := .filling }) hne).symm.trans hj
    exact h.not_filling hs sl' (List.mem_of_getElem? hj') hf

/-- Storing a payload byte that does not complete the frame (R136). -/
theorem portOk.storeByte {n : Nat} {q : SerialPort} {b : Byte} (h : portOk n q) (hs : q.fdState = .receiveData)
    (hl : q.fdOff.toNat + 1 ≠ q.fdLen.toNat) : portOk n (q.storeByte b) := by
  obtain ⟨h1, h2, h3, sl, hsl, hfil⟩ := h.2.2.1 hs
  have hself := SerialPort.updateSlot_self
    (f := fun sl => { sl with data := sl.data.writeBytes q.fdOff.toNat [b] }) hsl
  have hoff : (q.fdOff + 1).toNat = q.fdOff.toNat + 1 := by
    have := q.fdLen.isLt
    rw [BitVec.toNat_add]
    exact Nat.mod_eq_of_lt (by show q.fdOff.toNat + 1 < 256; omega)
  refine ⟨by rw [← h.1]; exact SerialPort.length_updateSlot _ _ _, ?_, ?_, ?_⟩
  · intro sl' hm
    rcases SerialPort.mem_updateSlot hm with hm | ⟨sl'', hq, rfl⟩
    · exact h.2.1 sl' hm
    · have := h.2.1 sl'' (List.mem_of_getElem? hq)
      exact ⟨Memory.wf_writeBytes this.1 _ _, this.2⟩
  · intro _
    exact ⟨h1, h2, by show (q.fdOff + 1).toNat < q.fdLen.toNat; omega, _, hself, hfil⟩
  · intro j sl' hj hf
    refine ⟨hs, ?_⟩
    by_contra hne
    have hj' := (SerialPort.updateSlot_of_ne (q := q)
      (f := fun sl => { sl with data := sl.data.writeBytes q.fdOff.toNat [b] }) hne).symm.trans hj
    exact hne (h.2.2.2 j sl' hj' hf).2

/-- Storing the payload byte that completes the frame (R136). -/
theorem portOk.completeFrame {n : Nat} {q : SerialPort} {b : Byte} (h : portOk n q) (hs : q.fdState = .receiveData) :
    portOk n (q.completeFrame b) := by
  obtain ⟨h1, h2, -, -⟩ := h.2.2.1 hs
  refine ⟨?_, ?_, fun hr => (by cases hr), ?_⟩
  · rw [← h.1]
    exact (SerialPort.length_updateSlot _ _ _).trans (SerialPort.length_updateSlot _ _ _)
  · intro sl' hm
    rcases SerialPort.mem_updateSlot hm with hm | ⟨sl'', hq, rfl⟩
    · rcases SerialPort.mem_updateSlot hm with hm | ⟨sl'', hq, rfl⟩
      · exact h.2.1 sl' hm
      · have := h.2.1 sl'' (List.mem_of_getElem? hq)
        exact ⟨Memory.wf_writeBytes this.1 _ _, this.2⟩
    · refine ⟨?_, fun _ => ⟨h1, h2⟩⟩
      rcases SerialPort.mem_updateSlot (List.mem_of_getElem? hq) with hm | ⟨sl3, hq3, rfl⟩
      · exact (h.2.1 sl'' hm).1
      · exact Memory.wf_writeBytes (h.2.1 sl3 (List.mem_of_getElem? hq3)).1 _ _
  · intro j sl' hj hf
    exfalso
    by_cases hne : j = q.fdSlot
    · subst hne
      cases hq : q.slots[q.fdSlot]? with
      | none =>
        have : (q.completeFrame b).slots[q.fdSlot]? = none := by
          simp [SerialPort.completeFrame, SerialPort.storeByte, SerialPort.updateSlot, hq]
        rw [this] at hj; cases hj
      | some sl3 =>
        have : (q.completeFrame b).slots[q.fdSlot]? = _ :=
          SerialPort.updateSlot_self (SerialPort.updateSlot_self hq)
        rw [this] at hj
        cases hj
        cases hf
    · have hj' := ((SerialPort.updateSlot_of_ne hne).trans (SerialPort.updateSlot_of_ne hne)).symm.trans hj
      exact hne (h.2.2.2 j sl' hj' hf).2

/-- Freeing a Ready slot (R138). -/
theorem portOk.freeSlot {n k : Nat} {q : SerialPort} (h : portOk n q) (hk : q.firstSlot .ready = some k) :
    portOk n (q.updateSlot k (fun sl => { sl with status := .free })) := by
  obtain ⟨⟨sl, hsl, hready⟩, -⟩ := SerialPort.firstSlot_some hk
  have hself := SerialPort.updateSlot_self (f := fun sl => { sl with status := .free }) hsl
  refine ⟨by rw [← h.1]; exact SerialPort.length_updateSlot _ _ _, ?_, ?_, ?_⟩
  · intro sl' hm
    rcases SerialPort.mem_updateSlot hm with hm | ⟨sl'', hq, rfl⟩
    · exact h.2.1 sl' hm
    · exact ⟨(h.2.1 sl'' (List.mem_of_getElem? hq)).1, fun hr => by cases hr⟩
  · intro hs
    obtain ⟨h1, h2, h3, sl', hsl', hfil⟩ := h.2.2.1 hs
    refine ⟨h1, h2, h3, sl', ?_, hfil⟩
    have hne : q.fdSlot ≠ k := by
      intro he
      rw [he, hsl] at hsl'
      cases hsl'
      rw [hready] at hfil
      cases hfil
    exact (SerialPort.updateSlot_of_ne hne).trans hsl'
  · intro j sl' hj hf
    by_cases hne : j = k
    · subst hne
      rw [hself] at hj
      cases hj
      cases hf
    · exact h.2.2.2 j sl' ((SerialPort.updateSlot_of_ne hne).symm.trans hj) hf

/-- A received byte, whatever it is (R137). -/
theorem portOk.feedByte {n : Nat} {p : Port} {b : Byte} {s t : State} (h : portOk n (s.port p))
    (hf : feedByte p b s = some t) : portOk n (t.port p) := by
  have hev : ∀ (u : State) (e : Event), (u.raiseEvent e).port p = u.port p := by intro u e; cases p <;> rfl
  cases hs : (s.port p).fdState with
  | waitStart0 =>
    rw [feedByte_waitStart0 hs] at hf
    cases hf
    rw [State.setPort_port_same]
    exact h.withState (by rw [hs]; simp) (by split <;> simp)
  | waitStart1 =>
    rw [feedByte_waitStart1 hs] at hf
    cases hf
    split
    · rw [State.setPort_port_same]
      exact h.withState (by rw [hs]; simp) (by simp)
    · split
      · exact h
      · rw [hev]; exact h
  | waitLength =>
    cases hb : frameLengthOk b with
    | false =>
      rw [feedByte_waitLength_bad hs hb] at hf
      cases hf
      rw [hev, State.setPort_port_same]
      exact h.withState (by rw [hs]; simp) (by simp)
    | true =>
      cases hk : (s.port p).firstSlot .free with
      | none =>
        rw [feedByte_waitLength_nofree hs hb hk] at hf
        cases hf
        rw [hev, State.setPort_port_same]
        exact h.withState (by rw [hs]; simp) (by simp)
      | some k =>
        rw [feedByte_waitLength_ok hs hb hk] at hf
        cases hf
        rw [State.setPort_port_same]
        exact h.select (by rw [hs]; simp) hb hk
  | receiveData =>
    rw [feedByte_receiveData hs] at hf
    cases hf
    rw [State.setPort_port_same]
    split
    · exact h.completeFrame hs
    · exact h.storeByte hs ‹_›

/-! ### What a step can be presented with (R8, R105) -/

/-- The steps of ML: the dispatch, the handler, the reply's send, the forward's send. -/
theorem State.mlUnit_cases {s : State} {u : WireUnit} (h : s.mlUnit = some u) :
    (s.ml = .dispatch ∧ u = ⟨.mlDispatch, []⟩) ∨ (handling s.ml = true ∧ u = ⟨.message, s.msgBytes⟩) ∨
      (s.ml = .reply ∧ u = s.replyUnit) ∨ (s.ml = .forward ∧ u = s.forwardUnit) := by
  unfold State.mlUnit at h
  split at h <;> cases h <;> simp_all [handling]

/-- Inside a handler ML's next step is the handler's, with its own Message. -/
theorem State.mlUnit_of_handling {s : State} (h : handling s.ml = true) : s.mlUnit = some ⟨.message, s.msgBytes⟩ := by
  unfold State.mlUnit
  unfold handling at h
  split <;> simp_all

/-- A step of ML's service in progress, an input of R105, or the start of a service. -/
theorem State.fetch_cases {s : State} {u : WireUnit} (h : s.fetch = some u) :
    s.mlUnit = some u ∨ (∃ p b, u = ⟨.serialIn p (s.port p).fdState (s.port p).hasFree, [b]⟩) ∨
      (∃ p, u = ⟨.mlPoll p, []⟩) ∨ (∃ pkt rest, s.stim = .rfRx pkt :: rest ∧ u = ⟨.radioIn, pkt⟩) ∨
      u = ⟨.mlRadio, []⟩ ∨ (u = ⟨.txDone, []⟩ ∧ ∃ rest, s.stim = .txDone :: rest) ∨ u = ⟨.tick, []⟩ ∨
      ∃ c, u = ⟨.rst c, []⟩ := by
  unfold State.fetch at h
  split at h
  · cases h
    exact .inr (.inr (.inr (.inr (.inr (.inr (.inr ⟨_, rfl⟩))))))
  · split at h
    · exact .inl h
    · rename_i e rest hs
      have sv : ∀ v, s.serviceUnit v = some u → s.mlUnit = some u ∨ u = v := by
        intro v hv
        unfold State.serviceUnit at hv
        split at hv
        · exact .inl hv
        · exact .inr (Option.some.inj hv).symm
      cases e <;> simp only [State.stimUnit] at h
      case ml => exact .inl h
      case controller => cases h
      case poll p => rcases sv _ h with h | h <;> simp_all
      case radio => rcases sv _ h with h | h <;> simp_all
      all_goals (have h := Option.some.inj h; subst h; simp_all)

/-! ### The invariant, operation by operation -/

theorem MachineInv.advance {s : State} (h : MachineInv s) : MachineInv s.advance := by
  simpa [MachineInv, buffersOk, phaseOk, handlersOk] using h

theorem MachineInv.raiseEvent {s : State} (h : MachineInv s) (e : Event) : MachineInv (s.raiseEvent e) := h
theorem MachineInv.emit {s : State} (h : MachineInv s) (o : Output) : MachineInv (s.emit o) := h
theorem MachineInv.requestReboot {s : State} (h : MachineInv s) : MachineInv s.requestReboot := h

/-- No transmission is in flight unless ML waits for it. -/
theorem MachineInv.not_txBusy {s : State} (h : MachineInv s) (hm : s.ml ≠ .txWait) : s.txBusy = false := by
  cases hb : s.txBusy
  · rfl
  · exact absurd (h.2.2.2.2.1.2.2.2.1.1 hb) hm

/-- The end of a service. -/
theorem MachineInv.endService {s : State} (h : MachineInv s) (hm : s.ml ≠ .txWait) : MachineInv s.endService := by
  have hb := h.not_txBusy hm
  obtain ⟨h1, h2, h3, h4, h5, h6⟩ := h
  refine ⟨by simpa using h1, by simpa using h2, by simpa using h3, by simpa [buffersOk] using h4, ?_,
    by simpa [handlersOk] using h6⟩
  rcases s.endPhase_cases with he | he <;> simp [phaseOk, hb, he, handling]

/-- ML's own step after the dispatch of a radio Message. -/
theorem MachineInv.mlDrain {s : State} (h : MachineInv s) : MachineInv s.mlDrain := by
  unfold State.mlDrain
  split
  · rename_i hd
    have hb := h.not_txBusy (by rw [hd]; simp)
    obtain ⟨h1, h2, h3, h4, h5, h6⟩ := h
    exact ⟨h1, h2, h3, h4, by simp [phaseOk, hb, handling], h6⟩
  · exact h

/-- A step that runs no instruction. -/
theorem MachineInv.pass {s : State} (h : MachineInv s) : MachineInv s.pass := by
  unfold State.pass
  split
  · exact h.advance.mlDrain
  · exact h.advance

/-- A received byte. -/
theorem MachineInv.feedByte {p : Port} {b : Byte} {s t : State} (h : MachineInv s) (hf : feedByte p b s = some t) :
    MachineInv t := by
  obtain ⟨h1, h2, h3, h4, h5, h6⟩ := h
  obtain ⟨q, ev, hq⟩ := feedByte_frame p b s
  rw [hf] at hq
  cases hq
  cases p
  · exact ⟨h1, portOk.feedByte (p := .p0) (s := s) h2 hf, h3, h4, h5, h6⟩
  · exact ⟨h1, h2, portOk.feedByte (p := .p1) (s := s) h3 hf, h4, h5, h6⟩

/-- What a handler keeps, in any phase of a handler: for a ranging transmission, with the receiver disarmed. -/
theorem MachineInv.kept {s u : State} (h : MachineInv s) (hm : handling s.ml = true) (k : Kept s u) {p : MlPhase}
    (hp : handling p = true) (ha : p = .ranging → u.rxArmed = false) : MachineInv { u with ml := p } := by
  have hb : u.txBusy = false := by rw [k.txBusy]; exact h.not_txBusy (by rintro he; rw [he] at hm; cases hm)
  obtain ⟨h1, h2, h3, ⟨b1, b2, b3, b4, b5, b6, b7⟩, h5, h6⟩ := h
  refine ⟨by rw [k.cfg]; exact h1, by rw [k.cfg, k.port0]; exact h2, by rw [k.cfg, k.port1]; exact h3,
    ⟨by rw [k.rxBuf]; exact b1, by rw [k.txBuf]; exact b2, by rw [k.msg]; exact b3, k.reply b4, k.callsign b5,
      k.timeVal b6, k.flash b7⟩, ?_, k.handlers h6⟩
  have := h5.2.1 (.inl hm)
  cases p <;> simp_all [phaseOk, handling, k.msgLen]

/-- The end of a handler. -/
theorem MachineInv.handlerDone {s u : State} (h : MachineInv s) (hm : handling s.ml = true) (k : Kept s u)
    (hl : replyLenOk u.replyLen) : MachineInv u.handlerDone := by
  have hb : u.txBusy = false := by rw [k.txBusy]; exact h.not_txBusy (by rintro he; rw [he] at hm; cases hm)
  obtain ⟨g1, g2, g3, g4, -, g6⟩ := h.kept hm k (p := .deliver) rfl nofun
  unfold State.handlerDone
  split
  · refine ⟨g1, g2, g3, g4, ?_, g6⟩
    rcases u.endPhase_cases with he | he <;> simp [phaseOk, hb, he, handling]
  · rename_i h0
    refine ⟨g1, g2, g3, g4, ?_, g6⟩
    have := hl.resolve_left h0
    simpa [phaseOk, hb, handling] using this

end Sys2Proof.Machine
end

