-- ==== Sys2Proof/Laws/PerInstr.lean ====
section
/-! SUPPORT. Statements about every instruction, one lemma per constructor (LAWS.json). -/

namespace Sys2Proof.Laws

/-- No unit is longer than the longest buffer that carries it, the 256-byte packet buffer (R60, R97, R104). -/
def EncodedSize.Statement (i : Instr) : Prop := i.wf = true → (encode i).bytes.length ≤ 256

theorem EncodedSize.of_message {op : Byte} {h : Header} {pl : List Byte} (hp : payloadFits pl = true) :
    (encodeMessage op h pl).bytes.length ≤ 256 := by
  simp only [payloadFits, decide_eq_true_eq] at hp
  simp only [encodeMessage, Machine.length_messageBytes]
  omega

theorem EncodedSize.ping (h : Header) (pl : List Byte) : Statement (.ping h pl) := fun w => of_message w
theorem EncodedSize.bootloaderAck (h : Header) (pl : List Byte) : Statement (.bootloaderAck h pl) := fun w => of_message w
theorem EncodedSize.writePage (h : Header) (pl : List Byte) : Statement (.writePage h pl) := fun w => of_message w
theorem EncodedSize.erase (h : Header) (pl : List Byte) : Statement (.erase h pl) := fun w => of_message w
theorem EncodedSize.bootloaderNack (h : Header) (pl : List Byte) : Statement (.bootloaderNack h pl) := fun w => of_message w
theorem EncodedSize.ack (h : Header) (pl : List Byte) : Statement (.ack h pl) := fun w => of_message w
theorem EncodedSize.ascii (h : Header) (pl : List Byte) : Statement (.ascii h pl) := fun w => of_message w
theorem EncodedSize.reboot (h : Header) : Statement (.reboot h) := fun _ => of_message rfl
theorem EncodedSize.rebootPostpone (h : Header) (pl : List Byte) : Statement (.rebootPostpone h pl) := fun w =>
  of_message (by simp only [Instr.wf, Bool.and_eq_true] at w; exact w.2)
theorem EncodedSize.getTime (h : Header) (pl : List Byte) : Statement (.getTime h pl) := fun w => of_message w
theorem EncodedSize.setTime (h : Header) (pl : List Byte) : Statement (.setTime h pl) := fun w => of_message w
theorem EncodedSize.ranging (h : Header) (pl : List Byte) : Statement (.ranging h pl) := fun w => of_message w
theorem EncodedSize.rangingAck (h : Header) (pl : List Byte) : Statement (.rangingAck h pl) := fun w => of_message w
theorem EncodedSize.getTelem (h : Header) (pl : List Byte) : Statement (.getTelem h pl) := fun w => of_message w
theorem EncodedSize.telem (h : Header) (pl : List Byte) : Statement (.telem h pl) := fun w => of_message w
theorem EncodedSize.getCallsign (h : Header) (pl : List Byte) : Statement (.getCallsign h pl) := fun w => of_message w
theorem EncodedSize.setCallsign (h : Header) (pl : List Byte) : Statement (.setCallsign h pl) := fun w => of_message w
theorem EncodedSize.callsign (h : Header) (pl : List Byte) : Statement (.callsign h pl) := fun w => of_message w
theorem EncodedSize.nack (h : Header) (pl : List Byte) : Statement (.nack h pl) := fun w => of_message w
theorem EncodedSize.unassigned (op : Byte) (h : Header) (pl : List Byte) : Statement (.unassigned op h pl) := fun w =>
  of_message (by simp only [Instr.wf, Bool.and_eq_true] at w; exact w.2)
theorem EncodedSize.serRxWaitStart0 (p : Port) (b : Byte) : Statement (.serRxWaitStart0 p b) := fun _ => by simp [encode]
theorem EncodedSize.serRxWaitStart1 (p : Port) (b : Byte) : Statement (.serRxWaitStart1 p b) := fun _ => by simp [encode]
theorem EncodedSize.serRxWaitLengthBad (p : Port) (b : Byte) : Statement (.serRxWaitLengthBad p b) := fun _ => by simp [encode]
theorem EncodedSize.serRxWaitLengthNofree (p : Port) (b : Byte) : Statement (.serRxWaitLengthNofree p b) := fun _ => by simp [encode]
theorem EncodedSize.serRxWaitLengthOk (p : Port) (b : Byte) : Statement (.serRxWaitLengthOk p b) := fun _ => by simp [encode]
theorem EncodedSize.serRxReceiveData (p : Port) (b : Byte) : Statement (.serRxReceiveData p b) := fun _ => by simp [encode]
theorem EncodedSize.poll (p : Port) : Statement (.poll p) := fun _ => by simp [encode]
theorem EncodedSize.serSend (p : Port) (m : List Byte) : Statement (.serSend p m) := fun w => by
  simp only [Instr.wf, decide_eq_true_eq] at w
  simp only [encode]; omega
theorem EncodedSize.rfRx (pkt : List Byte) : Statement (.rfRx pkt) := fun w => by
  simp only [Instr.wf, Bool.and_eq_true, decide_eq_true_eq] at w
  have := (pkt.headD 0).isLt
  simp only [encode]; omega
theorem EncodedSize.mlRadio : Statement .mlRadio := fun _ => by simp [encode]
theorem EncodedSize.radioSend (m : List Byte) (fbit : Bool) : Statement (.radioSend m fbit) := fun w => by
  simp only [Instr.wf, decide_eq_true_eq] at w
  simp only [encode]; omega
theorem EncodedSize.rfTxDone : Statement .rfTxDone := fun _ => by simp [encode]
theorem EncodedSize.dispatch : Statement .dispatch := fun _ => by simp [encode]
theorem EncodedSize.tick : Statement .tick := fun _ => by simp [encode]
theorem EncodedSize.rst (cause : ResetCause) : Statement (.rst cause) := fun _ => by simp [encode]

end Sys2Proof.Laws
end

