-- ==== Sys2Proof/Tests/Slice0.lean ====
section
/-! SUPPORT. Small checks of the model against the spec's vectors, and for each statement of
Certificates/Slice0/Obligations.lean that has hypotheses a concrete state that meets them. -/

namespace Sys2Proof.Tests

open Sys2Proof Sys2Proof.Machine

set_option maxRecDepth 20000

/-! ### Helpers -/

/-- The header of the vectors of 95_test_vectors.md sections 6 and 7: id 0x1234, sequence 0x0021, subsystem 01. -/
def hdr : Header := ⟨0x1234, 0x0021, 0x01⟩

/-- The reply header of those vectors. -/
def rep (op : Byte) (pl : List Byte) : List Byte := [0x34, 0x12, 0x21, 0x00, 0x02, op] ++ pl

def bl : State := State.reset
def app : State := State.atReset { Config.cfgA with variant := .application }

/-- The next state, where there is one. -/
def nextOf (o : Host.Outcome State Fault Refusal) : Option State :=
  match o with
  | .next t => some t
  | _ => none

/-- Port 0 in a decoder state, with the given slots. -/
def port0In (st : FdState) (slots : List Slot) (s : State) : State :=
  { s with port0 := { s.port0 with fdState := st, slots := slots } }

/-- Port 0 in the middle of a frame of length `n` in slot 0, with `off` bytes stored. -/
def port0Receiving (n off : Byte) (s : State) : State :=
  { s with port0 := { s.port0 with
      fdState := .receiveData, fdLen := n, fdOff := off, fdSlot := 0, slots := [⟨.filling, 0, []⟩, Slot.reset] } }

/-- A Ready slot that holds `bs`. -/
def readySlot (bs : List Byte) : Slot := ⟨.ready, BitVec.ofNat 8 bs.length, Memory.writeBytes [] 0 bs⟩

/-- A packet has been deposited. -/
def holding (pkt : List Byte) (s : State) : State := { s with rxBuf := Memory.writeBytes [] 0 pkt, rxFull := true }

/-- ML is about to act on the Message `m` from `src`. -/
def withMessage (m : List Byte) (src : Transport) (ml : MlPhase) (s : State) : State :=
  { s with msg := Memory.writeBytes [] 0 m, msgLen := BitVec.ofNat 8 m.length, msgSrc := src, ml := ml }

/-- A handler blocked in a collaborator in phase `ml`, after its `reply_init` for the request of `hdr`. -/
def blockedIn (ml : MlPhase) (s : State) : State := { s.replyInit hdr with ml := ml }

/-! ### WellFormed refuses an ill-formed term, check by check -/

theorem test_wf_payload_248 : (Instr.ping hdr (List.replicate 248 0)).wf = false := by decide
theorem test_wf_payload_247 : (Instr.ping hdr (List.replicate 247 0)).wf = true := by decide
theorem test_wf_postpone_empty : (Instr.rebootPostpone hdr []).wf = false := by decide
theorem test_wf_postpone_248 : (Instr.rebootPostpone hdr (List.replicate 248 0)).wf = false := by decide
theorem test_wf_unassigned_assigned : (Instr.unassigned 0x0C hdr []).wf = false := by decide
theorem test_wf_unassigned_248 : (Instr.unassigned 0x42 hdr (List.replicate 248 0)).wf = false := by decide
theorem test_wf_length_bad : (Instr.serRxWaitLengthBad .p0 0x01).wf = false ∧ (Instr.serRxWaitLengthBad .p0 0xFB).wf = false := by
  decide
theorem test_wf_length_ok : (Instr.serRxWaitLengthOk .p0 0x00).wf = false ∧ (Instr.serRxWaitLengthOk .p0 0xFC).wf = false := by
  decide
theorem test_wf_length_nofree : (Instr.serRxWaitLengthNofree .p1 0xFF).wf = false := by decide
theorem test_wf_serSend_254 : (Instr.serSend .p0 (List.replicate 254 0)).wf = false := by decide
theorem test_wf_radioSend_short : (Instr.radioSend [1, 2, 3, 4, 5] false).wf = false := by decide
theorem test_wf_radioSend_254 : (Instr.radioSend (List.replicate 254 0) false).wf = false := by decide
theorem test_wf_rfRx_empty : (Instr.rfRx []).wf = false := by decide
theorem test_wf_rfRx_truncated : (Instr.rfRx [0x09, 0x00]).wf = false := by decide

/-! ### Decoding: a word written out from R93, R101, R105 for every constructor -/

/-- Opcodes of R101 behind the header 34 12 21 00 01. -/
theorem test_decode_bootloader_rows :
    decode ⟨.message, [0x34, 0x12, 0x21, 0x00, 0x01, 0x00]⟩ = .ok (.ping hdr []) ∧
      decode ⟨.message, [0x34, 0x12, 0x21, 0x00, 0x01, 0x01]⟩ = .ok (.bootloaderAck hdr []) ∧
      decode ⟨.message, [0x34, 0x12, 0x21, 0x00, 0x01, 0x02, 0x08, 0xA5]⟩ = .ok (.writePage hdr [0x08, 0xA5]) ∧
      decode ⟨.message, [0x34, 0x12, 0x21, 0x00, 0x01, 0x0C]⟩ = .ok (.erase hdr []) ∧
      decode ⟨.message, [0x34, 0x12, 0x21, 0x00, 0x01, 0x0F]⟩ = .ok (.bootloaderNack hdr []) ∧
      decode ⟨.message, [0x34, 0x12, 0x21, 0x00, 0x01, 0x10]⟩ = .ok (.ack hdr []) ∧
      decode ⟨.message, [0x34, 0x12, 0x21, 0x00, 0x01, 0x11, 0x68, 0x69]⟩ = .ok (.ascii hdr [0x68, 0x69]) ∧
      decode ⟨.message, [0x34, 0x12, 0x21, 0x00, 0x01, 0xFF]⟩ = .ok (.nack hdr []) := by decide

theorem test_decode_application_rows :
    decode ⟨.message, [0x34, 0x12, 0x21, 0x00, 0x01, 0x12]⟩ = .ok (.reboot hdr) ∧
      decode ⟨.message, [0x34, 0x12, 0x21, 0x00, 0x01, 0x12, 0x0A, 0x00, 0x00, 0x00]⟩ =
        .ok (.rebootPostpone hdr [0x0A, 0x00, 0x00, 0x00]) ∧
      decode ⟨.message, [0x34, 0x12, 0x21, 0x00, 0x01, 0x13]⟩ = .ok (.getTime hdr []) ∧
      decode ⟨.message, [0x34, 0x12, 0x21, 0x00, 0x01, 0x14, 0x78, 0x56, 0x34, 0x12]⟩ =
        .ok (.setTime hdr [0x78, 0x56, 0x34, 0x12]) ∧
      decode ⟨.message, [0x34, 0x12, 0x21, 0x00, 0x01, 0x15]⟩ = .ok (.ranging hdr []) ∧
      decode ⟨.message, [0x34, 0x12, 0x21, 0x00, 0x01, 0x16]⟩ = .ok (.rangingAck hdr []) ∧
      decode ⟨.message, [0x34, 0x12, 0x21, 0x00, 0x01, 0x17]⟩ = .ok (.getTelem hdr []) ∧
      decode ⟨.message, [0x34, 0x12, 0x21, 0x00, 0x01, 0x18]⟩ = .ok (.telem hdr []) ∧
      decode ⟨.message, [0x34, 0x12, 0x21, 0x00, 0x01, 0x19]⟩ = .ok (.getCallsign hdr []) ∧
      decode ⟨.message, [0x34, 0x12, 0x21, 0x00, 0x01, 0x1A, 0x4B]⟩ = .ok (.setCallsign hdr [0x4B]) ∧
      decode ⟨.message, [0x34, 0x12, 0x21, 0x00, 0x01, 0x1B]⟩ = .ok (.callsign hdr []) ∧
      decode ⟨.message, [0x34, 0x12, 0x21, 0x00, 0x01, 0x42]⟩ = .ok (.unassigned 0x42 hdr []) := by decide

/-- The six rows of a received byte (R131 to R136): the length byte splits at 1..251 and on a Free slot. -/
theorem test_decode_serial_rows :
    decode ⟨.serialIn .p0 .waitStart0 true, [0x22]⟩ = .ok (.serRxWaitStart0 .p0 0x22) ∧
      decode ⟨.serialIn .p1 .waitStart1 true, [0x69]⟩ = .ok (.serRxWaitStart1 .p1 0x69) ∧
      decode ⟨.serialIn .p0 .waitLength true, [0x00]⟩ = .ok (.serRxWaitLengthBad .p0 0x00) ∧
      decode ⟨.serialIn .p0 .waitLength true, [0xFC]⟩ = .ok (.serRxWaitLengthBad .p0 0xFC) ∧
      decode ⟨.serialIn .p0 .waitLength false, [0xFB]⟩ = .ok (.serRxWaitLengthNofree .p0 0xFB) ∧
      decode ⟨.serialIn .p0 .waitLength true, [0x01]⟩ = .ok (.serRxWaitLengthOk .p0 0x01) ∧
      decode ⟨.serialIn .p0 .receiveData true, [0x69]⟩ = .ok (.serRxReceiveData .p0 0x69) := by decide

theorem test_decode_transaction_rows :
    decode ⟨.mlPoll .p1, []⟩ = .ok (.poll .p1) ∧
      decode ⟨.serialOut .p1, [0xFF, 0xFF, 0x00, 0x00, 0x01, 0x10]⟩ = .ok (.serSend .p1 [0xFF, 0xFF, 0x00, 0x00, 0x01, 0x10]) ∧
      decode ⟨.radioIn, [0x02, 0x40, 0x34]⟩ = .ok (.rfRx [0x02, 0x40, 0x34]) ∧
      decode ⟨.mlRadio, []⟩ = .ok .mlRadio ∧
      decode ⟨.radioOut true, [0xCD, 0xAB, 0x34, 0x12, 0x01, 0x10]⟩ = .ok (.radioSend [0xCD, 0xAB, 0x34, 0x12, 0x01, 0x10] true) ∧
      decode ⟨.txDone, []⟩ = .ok .rfTxDone ∧
      decode ⟨.mlDispatch, []⟩ = .ok .dispatch ∧
      decode ⟨.tick, []⟩ = .ok .tick ∧
      decode ⟨.rst .watchdog, []⟩ = .ok (.rst .watchdog) := by decide

/-- What is no unit is rejected by name. -/
theorem test_decode_rejects :
    decode ⟨.message, [1, 2, 3, 4, 5]⟩ = .error .messageShort ∧
      decode ⟨.serialIn .p0 .waitStart0 true, []⟩ = .error .notOneByte ∧
      decode ⟨.radioIn, [0x02, 0x40]⟩ = .error .packetLength ∧
      decode ⟨.radioOut false, [1, 2, 3, 4, 5]⟩ = .error .messageLength ∧
      decode ⟨.tick, [0x00]⟩ = .error .operandBytes := by decide

theorem test_tableWord : decodeTableWord 8 0x0C = some (.erase ⟨0, 0, 0⟩ []) ∧
    decodeTableWord 8 0x12 = some (.reboot ⟨0, 0, 0⟩) ∧
    decodeTableWord 16 0x0A12 = some (.rebootPostpone ⟨0, 0, 0⟩ [0x0A]) := by decide

/-! ### Checksums (95_test_vectors.md section 2) -/

theorem test_crc_empty : crcOf .crc16x8005 [] = 0xFFFF := by decide
theorem test_crc_00 : crcOf .crc16x8005 [0x00] = 0xFD02 := by decide
theorem test_crc_FF : crcOf .crc16x8005 [0xFF] = 0xFF00 := by decide
theorem test_crc_check :
    crcOf .crc16x8005 [0x31, 0x32, 0x33, 0x34, 0x35, 0x36, 0x37, 0x38, 0x39] = 0xAEE7 := by decide

/-! ### Received bytes (vectors S1 to S12) -/

theorem test_waitStart0_69 : (nextOf (exec (.serRxWaitStart0 .p0 0x69) bl)).map (fun t => t.port0.fdState) = some .waitStart0 := by
  decide
theorem test_waitStart0_22 : (nextOf (exec (.serRxWaitStart0 .p1 0x22) bl)).map (fun t => (t.port0.fdState, t.port1.fdState)) =
    some (.waitStart0, .waitStart1) := by decide
theorem test_waitStart1_noise : (nextOf (exec (.serRxWaitStart1 .p0 0x00) (port0In .waitStart1 [] bl))).map
    (fun t => (t.port0.fdState, t.events)) = some (.waitStart1, [.frameDesync .p0 0x00]) := by decide
theorem test_waitStart1_22 : (nextOf (exec (.serRxWaitStart1 .p0 0x22) (port0In .waitStart1 [] bl))).map
    (fun t => (t.port0.fdState, t.events)) = some (.waitStart1, []) := by decide
theorem test_waitLength_FC : (nextOf (exec (.serRxWaitLengthBad .p0 0xFC) (port0In .waitLength [] bl))).map
    (fun t => (t.port0.fdState, t.events)) = some (.waitStart1, [.badLength .p0 0xFC]) := by decide
theorem test_waitLength_nofree : (nextOf (exec (.serRxWaitLengthNofree .p0 0x05)
    (port0In .waitLength [readySlot [0xAA, 0xBB]] bl))).map (fun t => (t.port0.fdState, t.events)) =
    some (.waitStart0, [.noFreeSlot .p0 0x05]) := by decide
theorem test_waitLength_ok : (nextOf (exec (.serRxWaitLengthOk .p0 0x05)
    (port0In .waitLength [readySlot [0x01], Slot.reset] bl))).map
    (fun t => (t.port0.fdState, t.port0.fdSlot, t.port0.fdLen, t.port0.fdOff)) = some (.receiveData, 1, 5, 0) := by decide
theorem test_receiveData_marker : (nextOf (exec (.serRxReceiveData .p0 0x22) (port0Receiving 4 1 bl))).map
    (fun t => (t.port0.fdState, t.port0.fdOff, (t.port0.slots[0]?).map (fun sl => sl.data.byteAt 1))) =
    some (.receiveData, 2, some 0x22) := by decide
theorem test_receiveData_last : (nextOf (exec (.serRxReceiveData .p0 0x7E) (port0Receiving 1 0 bl))).map
    (fun t => (t.port0.fdState, t.port0.rxFrames, t.port0.slots)) =
    some (.waitStart0, 1, [readySlot [0x7E], Slot.reset]) := by decide

/-! ### Poll and serial send (R138, vectors S13 to S15) -/

theorem test_poll_lowest : (nextOf (exec (.poll .p0) (port0In .waitStart0 [readySlot [0x42], readySlot [0x41]] bl))).map
    (fun t => (t.msgBytes, t.ml, t.port0.slots.map Slot.status)) = some ([0x42], .dispatch, [.free, .ready]) := by decide
theorem test_poll_slot1 : (nextOf (exec (.poll .p0) (port0In .waitStart0 [Slot.reset, readySlot [0x01, 0x02]] bl))).map
    (fun t => (t.msgBytes, t.msgSrc, t.port0.slots.map Slot.status)) = some ([0x01, 0x02], .s0, [.free, .free]) := by decide
theorem test_serSend_S14 : (nextOf (exec (.serSend .p1 [0xFF, 0xFF, 0x00, 0x00, 0x01, 0x10]) bl)).map State.outs =
    some [.serTx .p1 [0x22, 0x69, 0x06, 0xFF, 0xFF, 0x00, 0x00, 0x01, 0x10]] := by decide
theorem test_serSend_S15 : (nextOf (exec (.serSend .p0 (List.replicate 252 0)) bl)).map (fun t => (t.outs, t.events)) =
    some ([], [.serialTxRange .p0 252]) := by decide

/-! ### Radio codec (vectors C1 to C10) -/

theorem test_rfRx_deposit : (nextOf (exec (.rfRx [0x09, 0x00, 0x01, 0x00, 0x01, 0x10, 0xFF, 0xFF, 0xB1, 0x2A]) bl)).map
    (fun t => (t.rxFull, t.rxBuf.readBytes 0 10)) =
    some (true, [0x09, 0x00, 0x01, 0x00, 0x01, 0x10, 0xFF, 0xFF, 0xB1, 0x2A]) := by decide
theorem test_rfRx_lost : (nextOf (exec (.rfRx [0x00]) { bl with rxFull := true })).map (fun t => (t.rxBuf, t.events)) =
    some ([], [.radioLost]) := by decide
theorem test_mlRadio_C4 :
    (nextOf (exec .mlRadio (holding [0x09, 0x40, 0x34, 0x12, 0x01, 0x10, 0xCD, 0xAB, 0xD0, 0x31] bl))).map
      (fun t => (t.msgBytes, t.msgFbit, t.radioGood, t.rxFull)) =
    some ([0xCD, 0xAB, 0x34, 0x12, 0x01, 0x10], true, 1, true) := by decide
theorem test_mlRadio_C3 :
    (nextOf (exec .mlRadio (holding [0x09, 0x40, 0x34, 0x12, 0x01, 0x11, 0xCD, 0xAB, 0xD0, 0x31] bl))).map
      (fun t => (t.radioGood, t.radioRejCrc, t.rxFull, t.rxArmed)) = some (0, 1, false, true) := by decide
theorem test_radioSend_C10 : (nextOf (exec (.radioSend [0xCD, 0xAB, 0x34, 0x12, 0x01, 0x10] true) bl)).map
    (fun t => (t.outs, t.txBusy, t.rxArmed)) =
    some ([.rfTx [0x09, 0x40, 0x34, 0x12, 0x01, 0x10, 0xCD, 0xAB, 0xD0, 0x31]], true, false) := by decide
theorem test_radioSend_C8 : (nextOf (exec (.radioSend (List.replicate 253 0) false) bl)).map
    (fun t => (t.outs, t.txBusy, t.events)) = some ([], false, [.sendOversize 253]) := by decide
theorem test_rfTxDone : (nextOf (exec .rfTxDone { bl with txBusy := true, rxArmed := false, ml := .txWait })).map
    (fun t => (t.txBusy, t.rxArmed, t.radioSent, t.ml)) = some (false, true, 1, .idle) := by decide

/-- R167, R9: after `rf_tx_done` the slot of a radio Message is still full, and a packet that comes before the drain is
lost. -/
theorem test_rfTxDone_then_packet : (nextOf (step { bl with
      rxFull := true, msgSrc := .r, ml := .drain, stim := [.rfRx [0x00], .ml] })).map
    (fun t => (t.events, t.rxFull, t.ml)) = some ([.radioLost], true, .drain) := by decide
theorem test_drain : (nextOf (step { bl with rxFull := true, rxArmed := false, msgSrc := .r, ml := .drain })).map
    (fun t => (t.rxFull, t.rxArmed, t.ml)) = some (false, true, .idle) := by decide
/-- R162, R167: the service of a radio Message leaves the drain, whichever way its dispatch ends. -/
theorem test_radio_service_ends_in_drain :
    (nextOf (exec .rfTxDone { bl with txBusy := true, rxArmed := false, msgSrc := .r, ml := .txWait })).map State.ml =
        some .drain ∧
      (nextOf (exec (.serSend .p1 [0x00]) { bl with msgSrc := .r, ml := .forward })).map State.ml = some .drain ∧
      (nextOf (exec (.ack hdr []) { bl with msgSrc := .r, ml := .deliver })).map State.ml = some .drain := by decide
theorem test_rfTxDone_idle : exec .rfTxDone bl = .refused .txDoneIdle := rfl

/-! ### Dispatch (vectors D-1 to D-8) -/

theorem test_dispatch_local :
    (nextOf (exec .dispatch (withMessage [0x34, 0x12, 0x07, 0x00, 0x01, 0x00] .s0 .dispatch bl))).map State.ml =
      some .deliver := by decide
theorem test_dispatch_other_subsystem :
    (nextOf (exec .dispatch (withMessage [0x34, 0x12, 0x01, 0x00, 0x05, 0x00] .s0 .dispatch bl))).map State.ml =
      some .forward := by decide

/-! ### Bootloader handlers (vectors B1 to B17, E8.5) -/

theorem test_ping_B1 : (nextOf (exec (.ping hdr []) { bl with keepalive := 3 })).map
    (fun t => (t.replyBytes, t.keepalive, t.outs)) =
    some (rep 0x01 [0x70, 0x6F, 0x6E, 0x67], 100, [.cmdRecognized, .wdtKick]) := by decide
theorem test_ping_A1 : (nextOf (exec (.ping hdr []) app)).map (fun t => (t.replyBytes, t.cmdRecognized, t.events)) =
    some (rep 0xFF [], false, [.unknownOpcode 0x00]) := by decide
theorem test_erase_B2 : (nextOf (exec (.erase hdr []) bl)).map
    (fun t => (t.calls, t.ml, t.cmdRecognized)) = some ([.eraseApp], .erasing 8, false) := by decide
theorem test_erase_B2_last : (nextOf (exec (.erase hdr []) (blockedIn (.erasing 0xD7)
      { bl with flash := [(0x03FF, 1), (0x6B7F, 2), (0x6B80, 3), (0x6BFF, 4), (0x6C00, 5)] }))).map
    (fun t => (t.replyBytes, t.flash, t.cmdRecognized)) =
    some (rep 0x01 [0x65, 0x72, 0x61, 0x73, 0x65, 0x64], [(0x03FF, 1), (0x6B7F, 2), (0x6C00, 5)], true) := by decide
theorem test_writePage_B3 : (nextOf (exec (.writePage hdr (0x08 :: List.replicate 128 0xA5)) bl)).map
    (fun t => (t.ml, t.flash, t.cmdRecognized)) = some (.programming, [], true) := by decide
theorem test_writePage_B3_done : (nextOf (exec (.writePage hdr (0x08 :: List.replicate 128 0xA5)) (blockedIn .programming bl))).map
    (fun t => (t.replyBytes, t.flash.byteAt 0x03FF, t.flash.byteAt 0x0400, t.flash.byteAt 0x047F, t.flash.byteAt 0x0480)) =
    some (rep 0x01 [0x08], 0xFF, 0xA5, 0xA5, 0xFF) := by decide
theorem test_writePage_B10 : (nextOf (exec (.writePage hdr (0x08 :: List.replicate 127 0xA5)) bl)).map
    (fun t => (t.replyBytes, t.flash, t.cmdRecognized, t.events)) =
    some (rep 0x0F [], [], true, [.missingArgument 0x02]) := by decide
theorem test_pageCheck_E8_5 :
    pageCheck Config.cfgA 0x03 = .errProtected ∧ pageCheck Config.cfgA 0x08 = .ok ∧ pageCheck Config.cfgA 0xD7 = .ok ∧
      pageCheck Config.cfgA 0xD8 = .errProtected ∧ pageCheck Config.cfgA 0xFF = .errProtected ∧
      pageCheck { Config.cfgA with flashSize := 0x7000 } 0xE0 = .errBadAddr := by decide

/-! ### The signature (vector E8.6: the toy primitive, the image 00 01 .. 1F) -/

def toyImage : List Byte := (List.range 32).map (BitVec.ofNat 8)

theorem test_cbcMac_key2 : cbcMac .toyAdd (List.replicate 16 0x22) toyImage =
    [0x54, 0x54, 0x58, 0x58, 0x54, 0x54, 0x60, 0x60, 0x54, 0x54, 0x58, 0x58, 0x54, 0x54, 0x50, 0x50] := by decide
theorem test_cbcMac_key1 : cbcMac .toyAdd (List.replicate 16 0x11) toyImage =
    [0x12, 0x14, 0x12, 0x18, 0x12, 0x14, 0x12, 0x20, 0x12, 0x14, 0x12, 0x18, 0x12, 0x14, 0x12, 0x50] := by decide

/-- Vector B8, under a key of zeros and the toy primitive: the signature of an image of zeros is 16 zeros. -/
def b8Cfg : Config := { Config.cfgA with
  appStart := 0x7F80, appEnd := 0x7FFF, sigOffset := 0x7FF0, cipher := .toyAdd, key0 := List.replicate 16 0x00 }
theorem test_writePage_B8 : (nextOf (exec (.writePage hdr (0xFF :: List.replicate 128 0x00))
      (blockedIn .programming (State.atReset b8Cfg)))).map (fun t => (t.replyBytes, t.keepalive, t.events)) =
    some (rep 0x01 [0xFF], 150, []) := by decide

/-! ### Common and unmatched opcodes (vectors B11 to B17, A18, A19) -/

theorem test_ack_B11 : (nextOf (exec (.ack hdr []) bl)).map (fun t => (t.replyLen, t.ml, t.cmdRecognized)) =
    some (0, .idle, true) := by decide
theorem test_ack_B12 : (nextOf (exec (.ack hdr []) (State.atReset { Config.cfgA with inboundReply := .nack }))).map
    State.replyBytes = some (rep 0xFF []) := by decide
theorem test_ascii_B13 : (nextOf (exec (.ascii hdr [0x68, 0x69]) bl)).map (fun t => (t.replyLen, t.cmdRecognized)) =
    some (0, true) := by decide
theorem test_nack_B14 : (nextOf (exec (.nack hdr []) app)).map (fun t => (t.replyLen, t.cmdRecognized)) = some (0, true) := by
  decide
theorem test_bootloaderAck_B15 : (nextOf (exec (.bootloaderAck hdr []) bl)).map
    (fun t => (t.replyBytes, t.cmdRecognized, t.events)) = some (rep 0xFF [], false, [.unknownOpcode 0x01]) := by decide
theorem test_bootloaderNack_B16 : (nextOf (exec (.bootloaderNack hdr []) bl)).map (fun t => (t.replyBytes, t.events)) =
    some (rep 0xFF [], [.unknownOpcode 0x0F]) := by decide
theorem test_rangingAck : (nextOf (exec (.rangingAck hdr []) app)).map (fun t => (t.replyBytes, t.events)) =
    some (rep 0xFF [], [.unknownOpcode 0x16]) := by decide
theorem test_telem_A19 : (nextOf (exec (.telem hdr []) app)).map (fun t => (t.replyBytes, t.events)) =
    some (rep 0xFF [], [.unknownOpcode 0x18]) := by decide
theorem test_callsign_ext : (nextOf (exec (.callsign hdr []) (State.atReset { Config.cfgA with
      variant := .application, ext := .table [⟨0x1B, .reply 0x77 [0x05]⟩] }))).map
    (fun t => (t.replyBytes, t.cmdRecognized)) = some (rep 0x77 [0x05], true) := by decide
theorem test_unassigned_A18 : (nextOf (exec (.unassigned 0x42 hdr []) app)).map (fun t => (t.replyBytes, t.events)) =
    some (rep 0xFF [], [.unknownOpcode 0x42]) := by decide
theorem test_unassigned_ext_silent : (nextOf (exec (.unassigned 0x42 hdr []) (State.atReset { Config.cfgA with
      variant := .application, ext := .table [⟨0x42, .silent⟩] }))).map
    (fun t => (t.replyLen, t.cmdRecognized)) = some (0, true) := by decide

/-! ### Application handlers (vectors A2 to A17) -/

theorem test_reboot_A2 : (nextOf (exec (.reboot hdr) app)).map (fun t => (t.replyLen, t.outs, t.rebootLine)) =
    some (0, [.cmdRecognized, .rebootReq], true) := by decide
theorem test_postpone_A3 : (nextOf (exec (.rebootPostpone hdr [0x0A, 0x00, 0x00, 0x00]) { app with uptime := 100 })).map
    (fun t => (t.replyBytes, t.deadline)) = some (rep 0x10 [], 110) := by decide
theorem test_postpone_A5 : (nextOf (exec (.rebootPostpone hdr [0xE9, 0x03, 0x00, 0x00]) { app with deadline := 500 })).map
    (fun t => (t.replyBytes, t.deadline)) = some (rep 0xFF [], 500) := by decide
theorem test_getTime_A7 : (nextOf (exec (.getTime hdr []) app)).map State.replyBytes = some (rep 0xFF []) := by decide
theorem test_getTime_A9 : (nextOf (exec (.getTime hdr []) { app with
      timeSet := true, timeVal := [(0, 0x78), (1, 0x56), (2, 0x34), (3, 0x12)] })).map State.replyBytes =
    some (rep 0x14 [0x78, 0x56, 0x34, 0x12]) := by decide
theorem test_setTime_A8 : (nextOf (exec (.setTime hdr [0x78, 0x56, 0x34, 0x12]) app)).map
    (fun t => (t.replyBytes, t.timeSet, t.timeVal.readBytes 0 4)) = some (rep 0x10 [], true, [0x78, 0x56, 0x34, 0x12]) := by
  decide
theorem test_setTime_A10 : (nextOf (exec (.setTime hdr [0x01, 0x02]) app)).map (fun t => (t.replyBytes, t.timeSet, t.events)) =
    some (rep 0xFF [], false, [.missingArgument 0x14]) := by decide
theorem test_getCallsign_A11 : (nextOf (exec (.getCallsign hdr []) app)).map State.replyBytes = some (rep 0x1B []) := by decide
theorem test_getCallsign_A13 : (nextOf (exec (.getCallsign hdr []) { app with
      callsign := Memory.writeBytes [] 0 [0x4B, 0x4B, 0x36, 0x41, 0x42, 0x43], callsignLen := 6 })).map State.replyBytes =
    some (rep 0x1B [0x4B, 0x4B, 0x36, 0x41, 0x42, 0x43]) := by decide
theorem test_setCallsign_A12 : (nextOf (exec (.setCallsign hdr [0x4B, 0x4B, 0x36, 0x41, 0x42, 0x43]) app)).map
    (fun t => (t.replyBytes, t.callsignLen)) = some (rep 0x10 [], 6) := by decide
theorem test_setCallsign_A14 : (nextOf (exec (.setCallsign hdr (List.replicate 9 0x41)) app)).map
    (fun t => (t.replyBytes, t.callsignLen, t.callsign)) = some (rep 0xFF [], 0, []) := by decide
theorem test_getTelem_A15 : (nextOf (exec (.getTelem hdr []) (State.atReset { Config.cfgA with
      variant := .application, telem := .fixed [0x06, 0x00, 0x00, 0x00] }))).map State.replyBytes =
    some (rep 0x18 [0x06, 0x00, 0x00, 0x00]) := by decide
theorem test_ranging_A16 : (nextOf (exec (.ranging hdr []) app)).map (fun t => (t.ml, t.rxArmed, t.outs)) =
    some (.ranging, false, [.cmdRecognized, .rngTx [0x0B, 0x00, 0x21, 0x00, 0x02, 0x16, 0x01, 0x02, 0x34, 0x12, 0xFC, 0xE5]]) := by decide
theorem test_ranging_A16_done : (nextOf (exec (.ranging hdr []) (blockedIn .ranging { app with rxArmed := false }))).map
    (fun t => (t.replyLen, t.rxArmed, t.ml)) = some (0, true, .idle) := by decide
theorem test_ranging_A17 : (nextOf (exec (.ranging hdr []) { app with msgFbit := true })).map State.outs =
    some [.cmdRecognized, .rngTx [0x0B, 0x40, 0x21, 0x00, 0x02, 0x16, 0x01, 0x02, 0x34, 0x12, 0xFF, 0x21]] := by decide

/-! ### Scheduler and reset (vectors T1, T3, R1) -/

theorem test_tick_T1 : (nextOf (exec .tick { bl with uptime := 2, deadline := 2, idleTicks := 2 })).map
    (fun t => (t.uptime, t.outs, t.rebootLine)) = some (3, [.rebootReq], true) := by decide
theorem test_tick_T3 : (nextOf (exec .tick { bl with idleTicks := 5, txBusy := true, rxArmed := false, rxFull := true })).map
    (fun t => (t.rxArmed, t.rxFull, t.idleTicks)) = some (false, true, 0) := by decide
/-- R357: a receiver reset during a ranging transmission changes nothing, and a packet that arrives then is lost. -/
theorem test_tick_ranging : (nextOf (exec .tick { app with idleTicks := 5, ml := .ranging, rxArmed := false })).map
    (fun t => (t.rxArmed, t.idleTicks, t.outs)) = some (false, 0, [.rxReset]) := by decide
theorem test_rst_R1 : (nextOf (exec (.rst .rstInput) { bl with
      radioSent := 7, uptime := 9, callsignLen := 3, txBusy := true, ml := .txWait })).map
    (fun t => (t.radioSent, t.uptime, t.callsignLen, t.txBusy, t.ml)) = some (0, 0, 0, false, .idle) := by decide
theorem test_rst_R2 : (nextOf (exec (.rst .watchdog) { bl with flash := [(0x0400, 0xA5)] })).map
    (fun t => (t.flash, t.events)) = some ([(0x0400, 0xA5)], [.watchdogReset]) := by decide

/-- The host's probe: the word of `erase`, run as the first instruction after reset. -/
theorem test_withFetchWord : (nextOf (step (bl.withFetchWord 8 0x0C))).map State.calls = some [.eraseApp] := by decide

theorem test_reset_memory_wf : bl.flash.wf ∧ bl.msg.wf ∧ bl.reply.wf ∧ bl.rxBuf.wf ∧ bl.txBuf.wf := by decide

/-! ### Witnesses: the hypotheses of each statement, met together by a concrete state and operands -/

/-- Encoding: well-formed instructions at the ends of their lengths. -/
theorem witness_DecodeOfEncodeIsTheInstruction :
    (Instr.nack hdr (List.replicate 247 0xFF)).wf = true ∧ (Instr.rebootPostpone hdr [0]).wf = true ∧
      (Instr.unassigned 0xFE hdr []).wf = true ∧ (Instr.serRxWaitLengthOk .p1 0xFB).wf = true ∧
      (Instr.serRxWaitLengthBad .p0 0xFC).wf = true ∧ (Instr.serSend .p0 (List.replicate 253 0)).wf = true ∧
      (Instr.radioSend (List.replicate 253 0) true).wf = true ∧ (Instr.rfRx [0x00]).wf = true := by decide

theorem witness_DecodedInstructionsAreWellFormed : decode ⟨.radioIn, [0x01, 0x40]⟩ = .ok (.rfRx [0x01, 0x40]) := by decide

theorem witness_EncodeOfDecodedMessageIsTheMessage :
    decode ⟨.message, [0x34, 0x12, 0x21, 0x00, 0x01, 0x12, 0x00]⟩ = .ok (.rebootPostpone hdr [0x00]) := by decide

theorem witness_MessagesDecodeExactlyAtLegalLengths :
    (6 ≤ (List.replicate 6 (0 : Byte)).length ∧ (List.replicate 6 (0 : Byte)).length ≤ 253) ∧
      (6 ≤ (List.replicate 253 (0 : Byte)).length ∧ (List.replicate 253 (0 : Byte)).length ≤ 253) ∧
      (List.replicate 5 (0 : Byte)).length < 6 ∧ 253 < (List.replicate 254 (0 : Byte)).length := by decide

/-- A state with the given queue. -/
def queued (stim : List Stim) (s : State) : State := { s with stim := stim }

/-- The turns of ML over the queue of any state: one given to it, the empty queue, and a service that waits. -/
theorem turns (s : State) : turnOfMl (queued [.ml, .tick] s) [.tick] ∧ turnOfMl (queued [] s) [] ∧
    turnOfMl (queued [.radio] s) [.radio] ∧ turnOfMl (queued [.poll .p1] s) [.poll .p1] :=
  ⟨.inl rfl, .inr ⟨rfl, .inl rfl⟩, .inr ⟨rfl, .inr ⟨_, .inl rfl⟩⟩, .inr ⟨rfl, .inr ⟨_, .inr ⟨_, rfl⟩⟩⟩⟩

/-- ML's turn runs a handler; a received byte runs its row. -/
theorem witness_StepRunsTheDecodedInstruction :
    configLegal (bl.withFetchWord 8 0x0C).cfg = true ∧
      (bl.withFetchWord 8 0x0C).fetch = some ⟨.message, [0, 0, 0, 0, 0, 0x0C]⟩ ∧
      decode ⟨.message, [0, 0, 0, 0, 0, 0x0C]⟩ = .ok (.erase ⟨0, 0, 0⟩ []) ∧
      (queued [.serRx .p0 0x22] bl).fetch = some ⟨.serialIn .p0 .waitStart0 true, [0x22]⟩ ∧
      decode ⟨.serialIn .p0 .waitStart0 true, [0x22]⟩ = .ok (.serRxWaitStart0 .p0 0x22) := by decide

/-- The reset line; each stimulus, with the shortest and the longest packet. -/
theorem witness_StepRuns_stimuli :
    ({ app with rebootLine := true } : State).rebootLine = true ∧ bl.rebootLine = false ∧ configLegal bl.cfg = true ∧
      (queued [.serRx .p1 0xFF] bl).stim = [.serRx .p1 0xFF] ∧ (Instr.rfRx [0x00]).wf = true ∧
      (Instr.rfRx (0xFF :: List.replicate 255 0x00)).wf = true ∧ (queued [.tick, .txDone] bl).stim = .tick :: [.txDone] ∧
      (queued [.rst .watchdog] bl).stim = [.rst .watchdog] ∧ (queued [.controller 7] bl).stim = [.controller 7] ∧
      (queued [.poll .p0, .radio] bl).stim = .poll .p0 :: [.radio] ∧ (queued [.radio] bl).ml = .idle := by decide

/-- Turns of ML; each step of the service; the shortest and the longest Message. -/
theorem witness_StepRuns_turns :
    turnOfMl (queued [.ml, .tick] bl) [.tick] ∧ turnOfMl (queued [.poll .p1] bl) [.poll .p1] ∧
      (withMessage [] .s0 .dispatch bl).ml = .dispatch ∧ handling (blockedIn .deliver bl).ml = true ∧
      handling (blockedIn (.erasing 8) bl).ml = true ∧ handling (blockedIn .programming bl).ml = true ∧
      handling (blockedIn .ranging app).ml = true ∧ (blockedIn .drain bl).ml = .drain ∧
      6 ≤ (withMessage (List.replicate 6 0) .r .deliver bl).msgLen.toNat ∧
      (withMessage (List.replicate 253 0) .r .deliver bl).msgLen.toNat ≤ 253 :=
  ⟨(turns bl).1, (turns bl).2.2.2, by decide⟩

theorem witness_WaitStart0AdvancesOnMarker0Only : (bl.port .p0).fdState = .waitStart0 ∧ (bl.port .p1).fdState = .waitStart0 := by
  decide

theorem witness_WaitStart1LeavesOnMarker1Only : ((port0In .waitStart1 [] bl).port .p0).fdState = .waitStart1 := by decide

theorem witness_BadLengthReturnsToWaitStart1 :
    ((port0In .waitLength [Slot.reset] bl).port .p0).fdState = .waitLength ∧
      ((0x00 : Byte).toNat < 1 ∨ 251 < (0x00 : Byte).toNat) ∧ ((0xFC : Byte).toNat < 1 ∨ 251 < (0xFC : Byte).toNat) := by
  decide

theorem witness_NoFreeSlotDropsTheFrame :
    ((port0In .waitLength [readySlot [0x01], readySlot [0x02]] bl).port .p0).fdState = .waitLength ∧
      1 ≤ (0x01 : Byte).toNat ∧ (0xFB : Byte).toNat ≤ 251 ∧
      ∀ sl ∈ ((port0In .waitLength [readySlot [0x01], readySlot [0x02]] bl).port .p0).slots, sl.status ≠ .free := by
  decide

/-- A pool whose lowest slot of the wanted status is the second. -/
theorem only_slot_below_one {slots : List Slot} {first : Slot} (st : SlotStatus) (h : slots[0]? = some first)
    (hs : first.status ≠ st) : ∀ j sl', j < 1 → slots[j]? = some sl' → sl'.status ≠ st := by
  intro j sl' hj hk
  obtain rfl : j = 0 := by omega
  rw [h] at hk
  cases hk
  exact hs

theorem witness_LowestFreeSlotIsSelected :
    ((port0In .waitLength [readySlot [0x01], Slot.reset] bl).port .p0).fdState = .waitLength ∧
      1 ≤ (0x01 : Byte).toNat ∧ (0x01 : Byte).toNat ≤ 251 ∧ (0xFB : Byte).toNat ≤ 251 ∧
      ((port0In .waitLength [readySlot [0x01], Slot.reset] bl).port .p0).slots[1]? = some Slot.reset ∧
      Slot.reset.status = .free ∧
      ∀ j sl', j < 1 → ((port0In .waitLength [readySlot [0x01], Slot.reset] bl).port .p0).slots[j]? = some sl' →
        sl'.status ≠ .free :=
  ⟨rfl, by decide, by decide, by decide, rfl, rfl, only_slot_below_one .free rfl (by decide)⟩

/-- Both ends: a byte that does not complete the frame, and the one that does. -/
theorem witness_ReceiveDataAppendsAndCompletes :
    ((port0Receiving 2 0 bl).port .p0).fdState = .receiveData ∧
      ((port0Receiving 2 0 bl).port .p0).slots[((port0Receiving 2 0 bl).port .p0).fdSlot]? = some ⟨.filling, 0, []⟩ ∧
      ((port0Receiving 2 0 bl).port .p0).fdOff.toNat + 1 ≠ ((port0Receiving 2 0 bl).port .p0).fdLen.toNat ∧
      ((port0Receiving 251 250 bl).port .p0).slots[((port0Receiving 251 250 bl).port .p0).fdSlot]? =
        some ⟨.filling, 0, []⟩ ∧
      ((port0Receiving 251 250 bl).port .p0).fdOff.toNat + 1 = ((port0Receiving 251 250 bl).port .p0).fdLen.toNat := by
  decide

theorem witness_FramedPayloadIsReceivedWhole :
    1 ≤ [(0x22 : Byte)].length ∧ (List.replicate 251 (0x69 : Byte)).length ≤ 251 ∧
      ((port0In .waitStart0 [readySlot [0x01], Slot.reset] bl).port .p0).fdState = .waitStart0 ∧
      ((port0In .waitStart0 [readySlot [0x01], Slot.reset] bl).port .p0).slots[1]? = some Slot.reset ∧
      Slot.reset.status = .free ∧
      ∀ j sl', j < 1 → ((port0In .waitStart0 [readySlot [0x01], Slot.reset] bl).port .p0).slots[j]? = some sl' →
        sl'.status ≠ .free :=
  ⟨by decide, by decide, rfl, rfl, rfl, only_slot_below_one .free rfl (by decide)⟩

theorem witness_WaitStart1IsSticky :
    ((port0In .waitStart1 [] bl).port .p0).fdState = .waitStart1 ∧ ∀ b ∈ [(0x22 : Byte), 0x00, 0xFF], b ≠ 0x69 := by decide

theorem witness_PortsShareNoState : ∃ t, feedBytes .p0 [0x22, 0x69, 0xFC] bl = some t ∧ Port.p1 ≠ Port.p0 :=
  ⟨_, rfl, by decide⟩

theorem witness_PollTakesTheLowestReadySlot :
    (port0In .waitStart0 [Slot.reset, readySlot [0x01]] bl).ml = .idle ∧
      ((port0In .waitStart0 [Slot.reset, readySlot [0x01]] bl).port .p0).slots[1]? = some (readySlot [0x01]) ∧
      (readySlot [0x01]).status = .ready ∧
      ∀ j sl', j < 1 → ((port0In .waitStart0 [Slot.reset, readySlot [0x01]] bl).port .p0).slots[j]? = some sl' →
        sl'.status ≠ .ready :=
  ⟨rfl, rfl, rfl, only_slot_below_one .ready rfl (by decide)⟩

theorem witness_ServicesNotEnabledDoNothing :
    (∀ sl ∈ (bl.port .p0).slots, sl.status ≠ .ready) ∧ bl.rxFull = false ∧
      ({ bl with ml := .txWait, txBusy := true } : State).ml ≠ .idle ∧
      ({ bl with rxFull := true, txBusy := true } : State).txBusy = true := by decide

theorem witness_PacketIsDepositedOrLost :
    (bl.rxArmed = true ∧ bl.rxFull = false) ∧
      ¬ ((({ bl with rxFull := true } : State).rxArmed = true) ∧ ({ bl with rxFull := true } : State).rxFull = false) := by
  decide

theorem witness_ShortPacketIsRejected :
    (holding [0x08, 0, 0, 0, 0, 0, 0, 0, 0] bl).rxFull = true ∧ (holding [0x08, 0, 0, 0, 0, 0, 0, 0, 0] bl).txBusy = false ∧
      (holding [0x08, 0, 0, 0, 0, 0, 0, 0, 0] bl).ml = .idle ∧
      ((holding [0x08, 0, 0, 0, 0, 0, 0, 0, 0] bl).rxBuf.byteAt 0).toNat < 9 ∧
      ((holding [0x00] bl).rxBuf.byteAt 0).toNat < 9 := by decide

/-- The packet of vector C4 (`L = 9`). -/
def c4 : State := holding [0x09, 0x40, 0x34, 0x12, 0x01, 0x10, 0xCD, 0xAB, 0xD0, 0x31] bl

/-- The same packet with bit 0 of its opcode flipped (E8.2). -/
def c3 : State := holding [0x09, 0x40, 0x34, 0x12, 0x01, 0x11, 0xCD, 0xAB, 0xD0, 0x31] bl

theorem witness_ChecksumMismatchIsRejected :
    c3.rxFull = true ∧ c3.txBusy = false ∧ c3.ml = .idle ∧ 9 = (c3.rxBuf.byteAt 0).toNat ∧
      le16 0x31D0 = [c3.rxBuf.byteAt 8, c3.rxBuf.byteAt 9] ∧ crcOf c3.cfg.crc (c3.rxBuf.readBytes 0 6) ≠ 0x31D0 := by decide

theorem witness_GoodPacketBecomesTheMessage :
    c4.rxFull = true ∧ c4.txBusy = false ∧ c4.ml = .idle ∧ 9 = (c4.rxBuf.byteAt 0).toNat ∧
      le16 (crcOf c4.cfg.crc (c4.rxBuf.readBytes 0 (9 - 3))) = [c4.rxBuf.byteAt (9 - 1), c4.rxBuf.byteAt 9] := by decide

theorem witness_RadioSendBuildsThePacket :
    6 ≤ (List.replicate 6 (0 : Byte)).length ∧ (List.replicate 252 (0 : Byte)).length + 3 ≤ bl.cfg.radioLenMax ∧
      bl.cfg.radioLenMax < (List.replicate 253 (0 : Byte)).length + 3 := by decide

theorem witness_TxDoneCompletesTheTransmission :
    ({ bl with txBusy := true, rxArmed := false, ml := .txWait } : State).txBusy = true ∧ bl.txBusy = false := by decide

theorem witness_RadioRoundTripKeepsTheMessage :
    6 ≤ (List.replicate 6 (0 : Byte)).length ∧ (List.replicate 252 (0 : Byte)).length + 3 ≤ bl.cfg.radioLenMax ∧
      bl.cfg.radioLenMax ≤ 255 ∧ app.cfg.crc = bl.cfg.crc ∧ app.rxArmed = true ∧ app.rxFull = false ∧
      app.txBusy = false ∧ app.ml = .idle := by decide

theorem witness_OneChangedByteIsDetected :
    c4.cfg.crc = .crc16x8005 ∧ c4.rxFull = true ∧ c4.txBusy = false ∧ c4.ml = .idle ∧ 9 = (c4.rxBuf.byteAt 0).toNat ∧
      le16 (crcOf .crc16x8005 (c4.rxBuf.readBytes 0 (9 - 3))) = [c4.rxBuf.byteAt (9 - 1), c4.rxBuf.byteAt 9] ∧
      (1 ≤ 1 ∧ 1 ≤ 9 - 4) ∧ (1 ≤ 5 ∧ 5 ≤ 9 - 4) ∧ 8 = 9 - 1 ∧ (0x00 : Byte) ≠ c4.rxBuf.byteAt 1 ∧
      (0x11 : Byte) ≠ c4.rxBuf.byteAt 5 ∧ (0x00 : Byte) ≠ c4.rxBuf.byteAt 8 ∧ (0x00 : Byte) ≠ c4.rxBuf.byteAt 9 := by decide

/-- A state in which ML forwards a Message of `n` bytes from `src`, or replies with it, under the given queue. -/
def forwarding (n : Nat) (src : Transport) (stim : List Stim) : State :=
  queued stim (withMessage (List.replicate n 0x05) src .forward bl)
def replying (n : Nat) (src : Transport) (stim : List Stim) : State :=
  { bl with stim := stim, ml := .reply, msgSrc := src, replyLen := BitVec.ofNat 8 n }

theorem witness_ForwardingSendsTheMessageUnmodified :
    configLegal (forwarding 6 .r []).cfg = true ∧ (forwarding 6 .r []).rebootLine = false ∧
      turnOfMl (forwarding 6 .s0 [.ml, .tick]) [.tick] ∧ turnOfMl (forwarding 6 .r [.poll .p1]) [.poll .p1] ∧
      (forwarding 6 .s0 []).ml = .forward ∧ 6 ≤ (forwarding 6 .r []).msgLen.toNat ∧
      (forwarding 253 .r []).msgLen.toNat ≤ 253 :=
  ⟨by decide, rfl, (turns _).1, (turns _).2.2.2, rfl, by decide, by decide⟩

theorem witness_ReplyLeavesByTheOriginatingTransport :
    configLegal (replying 6 .r []).cfg = true ∧ (replying 6 .r []).rebootLine = false ∧
      turnOfMl (replying 6 .s1 []) [] ∧ turnOfMl (replying 6 .r [.radio]) [.radio] ∧
      (replying 6 .s0 []).ml = .reply ∧ 6 ≤ (replying 6 .r []).replyLen.toNat ∧
      (replying 253 .r []).replyLen.toNat ≤ 253 :=
  ⟨by decide, rfl, (turns (replying 6 .s1 [])).2.1, (turns (replying 6 .r [])).2.2.1, rfl, by decide, by decide⟩

theorem witness_BlockedSendStopsMl :
    configLegal ({ bl with ml := .txWait, stim := [.poll .p1, .radio, .ml] } : State).cfg = true ∧ bl.rebootLine = false ∧
      ({ bl with ml := .txWait, stim := [.poll .p1, .radio, .ml] } : State).stim = .poll .p1 :: [.radio, .ml] := by decide

theorem witness_bootloader_handlers : bl.cfg.variant = .bootloader ∧ flashMapLegal bl.cfg = true := by decide

/-- Outside `erase_app`; inside it, at the first page, and at the last one but one and the last. -/
theorem witness_EraseClearsTheApplicationRegion :
    (∀ p, (blockedIn .deliver bl).ml ≠ .erasing p) ∧ (blockedIn (.erasing 8) bl).ml = .erasing 8 ∧
      bl.cfg.appStart ≤ 8 * 128 ∧ 8 * 128 + 128 ≤ bl.cfg.appEnd ∧ 0xD6 * 128 + 128 ≤ bl.cfg.appEnd ∧
      0xD7 * 128 ≤ bl.cfg.appEnd ∧ bl.cfg.appEnd < 0xD7 * 128 + 128 ∧
      (blockedIn (.erasing 0xD7) bl).reply.readBytes 0 5 = replyHeader bl.cfg hdr :=
  ⟨fun _ h => (by cases h), by decide⟩

theorem witness_application_handlers : app.cfg.variant = .application ∧ configLegal app.cfg = true := by decide

/-- Each clause, at the pages where it begins and ends. -/
theorem witness_PageAddressesAreChecked :
    (0x07 : Byte).toNat * 128 < Config.cfgA.appStart ∧
      (Config.cfgA.appStart ≤ (0x08 : Byte).toNat * 128 ∧ (0xD7 : Byte).toNat * 128 + 128 ≤ Config.cfgA.appEnd + 1) ∧
      (Config.cfgA.appEnd + 1 < (0xD8 : Byte).toNat * 128 + 128 ∧
        (0xFF : Byte).toNat * 128 + 128 ≤ Config.cfgA.flashSize) ∧
      ({ Config.cfgA with flashSize := 0x7000 } : Config).flashSize < (0xE0 : Byte).toNat * 128 + 128 := by decide

theorem witness_WritePageStoresThePage :
    bl.cfg.variant = .bootloader ∧ (List.replicate 128 (0xA5 : Byte)).length = 128 ∧
      bl.cfg.appStart ≤ (0x08 : Byte).toNat * 128 ∧ (0xD7 : Byte).toNat * 128 + 128 ≤ bl.cfg.appEnd + 1 ∧
      bl.ml ≠ .programming ∧ (blockedIn .programming bl).ml = .programming ∧
      (blockedIn .programming bl).flashAnswers.headD true = true ∧ (0xD7 : Byte) ≠ 0xFF ∧
      (blockedIn .programming bl).reply.readBytes 0 5 = replyHeader bl.cfg hdr := by decide

/-- A configuration whose application region reaches page 255. -/
def topCfg : Config := { Config.cfgA with appEnd := 0x7FFF, sigOffset := 0x7FF0 }

theorem witness_Page255VerifiesTheImage :
    configLegal topCfg = true ∧ topCfg.keepaliveForm = .exact ∧ (State.atReset topCfg).cfg.variant = .bootloader ∧
      (List.replicate 128 (0xA5 : Byte)).length = 128 ∧ (State.atReset topCfg).cfg.appStart ≤ 0x7F80 ∧
      0x7FFF ≤ (State.atReset topCfg).cfg.appEnd ∧ (State.atReset topCfg).flashAnswers.headD true = true ∧
      (State.atReset topCfg).ml ≠ .programming ∧ (blockedIn .programming (State.atReset topCfg)).ml = .programming ∧
      (blockedIn .programming (State.atReset topCfg)).reply.readBytes 0 5 = replyHeader topCfg hdr := by decide

/-- An image that verifies, as in `test_writePage_B8`. -/
theorem witness_Page255_authentic :
    configLegal b8Cfg = true ∧ b8Cfg.variant = .bootloader ∧ b8Cfg.keepaliveForm = .exact ∧ b8Cfg.appStart ≤ 0x7F80 ∧
      0x7FFF ≤ b8Cfg.appEnd ∧
      ({ State.atReset b8Cfg with flash := Memory.writeBytes [] 0x7F80 (List.replicate 128 0x00) } : State).verifies = true := by
  decide

/-- Refused by the address, on both sides of the region and past the flash; by the flash; and for its length. -/
theorem witness_RejectedWritesLeaveFlashAlone :
    bl.cfg.variant = .bootloader ∧ 129 ≤ (0x03 :: List.replicate 128 (0xA5 : Byte)).length ∧ bl.ml ≠ .programming ∧
      pageCheck bl.cfg 0x07 = .errProtected ∧ pageCheck bl.cfg 0xD8 = .errProtected ∧
      pageCheck { Config.cfgA with flashSize := 0x7000 } 0xE0 = .errBadAddr ∧
      pageCheck bl.cfg (pageIndex (0x08 :: List.replicate 128 (0xA5 : Byte))) = .ok ∧
      (blockedIn .programming { bl with flashAnswers := [false] }).flashAnswers.headD true = false ∧
      (blockedIn .programming { bl with flashAnswers := [false] }).reply.readBytes 0 5 = replyHeader bl.cfg hdr ∧
      (List.replicate 128 (0xA5 : Byte)).length < 129 ∧ ([] : List Byte).length < 129 := by decide

/-- A chain of no block and of one, and the block that follows. -/
theorem witness_VerifyTriesAllThreeKeys :
    ([] : List Byte).length % 16 = 0 ∧ (List.replicate 16 (0x5A : Byte)).length % 16 = 0 ∧
      (List.replicate 16 (0xA5 : Byte)).length = 16 := by decide

theorem witness_MacComparisonIsEquality : (List.replicate 16 (0x11 : Byte)).length = (List.replicate 16 (0x22 : Byte)).length := by
  decide

theorem witness_CommonOpcodesAreNotAnswered :
    bl.cfg.inboundReply = .none ∧ (State.atReset { Config.cfgA with inboundReply := .nack }).cfg.inboundReply = .nack := by decide

theorem witness_UnmatchedOpcodesAreNackedByTheBootloader :
    bl.cfg.variant = .bootloader ∧ hasEntry .bootloader 0x01 = false ∧ hasEntry .bootloader 0x13 = false ∧
      hasEntry .bootloader 0xFE = false := by decide

/-- An application whose extension takes 0x0C in silence and answers 0x42 with the longest payload. -/
def extApp : State := State.atReset { Config.cfgA with
  variant := .application, ext := .table [⟨0x0C, .silent⟩, ⟨0x42, .reply 0x43 (List.replicate 247 0x01)⟩] }

theorem witness_UnmatchedOpcodesGoToTheExtension :
    extApp.cfg.variant = .application ∧ hasEntry .application 0x0C = false ∧ hasEntry .application 0x42 = false ∧
      hasEntry .application 0x00 = false ∧
      extAnswer extApp.cfg.ext 0x00 (messageBytes hdr 0x00 []) = none ∧
      extAnswer extApp.cfg.ext 0x0C (messageBytes hdr 0x0C []) = some .silent ∧
      extAnswer extApp.cfg.ext 0x42 (messageBytes hdr 0x42 []) = some (.reply 0x43 (List.replicate 247 0x01)) ∧
      (List.replicate 247 (0x01 : Byte)).length ≤ 247 := by decide

/-- Both sides: an opcode with an entry, and one that nobody takes. -/
theorem witness_RecognizedExactlyByEntriesAndTheExtension :
    bl.cmdRecognized = false ∧ (∃ t, exec (instrOfOpcode 0x10 hdr []) bl = .next t) ∧
      ∃ t, exec (instrOfOpcode 0x42 hdr []) bl = .next t := ⟨rfl, ⟨_, rfl⟩, ⟨_, rfl⟩⟩

/-- Erase in its first step and in its last; write-page and ranging in their last. -/
theorem witness_Recognized_blocked :
    (nextOf (exec (instrOfOpcode 0x0C hdr []) bl)).map (fun t => handling t.ml) = some true ∧
      (nextOf (exec (instrOfOpcode 0x0C hdr []) (blockedIn (.erasing 0xD7) bl))).map (fun t => handling t.ml) = some false ∧
      (blockedIn .programming bl).ml = .programming ∧
      (∃ t, exec (instrOfOpcode 0x02 hdr []) (blockedIn .programming bl) = .next t) ∧
      (blockedIn .ranging app).ml = .ranging ∧ ∃ t, exec (instrOfOpcode 0x15 hdr []) (blockedIn .ranging app) = .next t :=
  ⟨by decide, by decide, rfl, ⟨_, rfl⟩, rfl, _, rfl⟩

theorem witness_RangingAnswersByTheRangingPath :
    app.cfg.variant = .application ∧ app.ml ≠ .ranging ∧ (blockedIn .ranging app).ml = .ranging := by decide

theorem witness_RebootIsFollowedByReset :
    app.cfg.variant = .application ∧ configLegal app.cfg = true ∧ ∃ t, exec (.reboot hdr) app = .next t :=
  ⟨rfl, by decide, _, rfl⟩

/-- At the cap, one past it, and the longest short argument. -/
theorem witness_PostponeSetsTheDeadlineWithinTheCap :
    app.cfg.variant = .application ∧ (u32le 0xE8 0x03 0x00 0x00).toNat ≤ app.cfg.postponeMax ∧
      app.cfg.postponeMax < (u32le 0xE9 0x03 0x00 0x00).toNat ∧ [(0xE8 : Byte), 0x03, 0x00].length < 4 := by decide

theorem witness_GetTimeRepliesTheStoredTime :
    app.cfg.variant = .application ∧ ({ app with timeSet := true } : State).timeSet = true ∧ app.cfg.timeBytes ≤ 247 ∧
      app.timeSet = false := by decide

theorem witness_SetTimeStoresTheTime :
    app.cfg.variant = .application ∧ app.cfg.timeBytes ≤ [(0x78 : Byte), 0x56, 0x34, 0x12].length ∧
      [(0x78 : Byte), 0x56, 0x34].length < app.cfg.timeBytes := by decide

theorem witness_CallsignIsStoredAndReplied :
    app.cfg.variant = .application ∧ ({ app with callsignLen := 247 } : State).callsignLen ≤ 247 ∧
      (List.replicate 8 (0x41 : Byte)).length ≤ app.cfg.callsignMax ∧
      app.cfg.callsignMax < (List.replicate 9 (0x41 : Byte)).length := by decide

/-- One past each bound. -/
theorem witness_OversizeRepliesAreFaults :
    (State.atReset { Config.cfgA with variant := .application, timeBytes := 248 }).cfg.variant = .application ∧
      ({ State.atReset { Config.cfgA with variant := .application, timeBytes := 248 } with timeSet := true } : State).timeSet =
        true ∧
      247 < (State.atReset { Config.cfgA with variant := .application, timeBytes := 248 }).cfg.timeBytes ∧
      247 < (State.atReset { Config.cfgA with
        variant := .application, telem := .fixed (List.replicate 248 0x00) }).telemetry.length ∧
      247 < ({ app with callsignLen := 248 } : State).callsignLen ∧
      hasEntry .application 0x42 = false ∧
      extAnswer (.table [⟨0x42, .reply 0x43 (List.replicate 248 0x01)⟩]) 0x42 (messageBytes hdr 0x42 []) =
        some (.reply 0x43 (List.replicate 248 0x01)) ∧
      247 < (List.replicate 248 (0x01 : Byte)).length := by decide

theorem witness_TickAdvancesTheScheduler :
    true = decide (bl.cfg.rxIdleMax < (({ bl with idleTicks := 5 } : State).idleTicks + 1).toNat) ∧
      false = decide (bl.cfg.rxIdleMax < (({ bl with idleTicks := 4 } : State).idleTicks + 1).toNat) ∧
      true = decide (({ bl with deadline := 2, uptime := 2 } : State).deadline.toNat <
        (({ bl with deadline := 2, uptime := 2 } : State).uptime + 1).toNat) ∧
      false = decide (bl.deadline.toNat < (bl.uptime + 1).toNat) := by decide

/-- A step that goes on, of each variant: an erase, and an unmatched opcode. -/
theorem witness_step : (∃ t, step (bl.withFetchWord 8 0x0C) = .next t) ∧ ∃ t, step (app.withFetchWord 8 0x42) = .next t :=
  ⟨⟨_, rfl⟩, ⟨_, rfl⟩⟩

theorem witness_CountersHaveTheirWriters :
    (Instr.serRxReceiveData .p0 0x7E).wf = true ∧ (∃ t, exec (.serRxReceiveData .p0 0x7E) (port0Receiving 1 0 bl) = .next t) ∧
      ∀ c, Instr.serRxReceiveData .p0 0x7E ≠ .rst c := ⟨rfl, ⟨_, rfl⟩, fun _ h => (by cases h)⟩

/-- Port 0 in the middle of a frame of 2 bytes, a Message from port 1 in dispatch, a byte still to come. -/
def busy : State :=
  { port0Receiving 2 1 bl with
    ml := .dispatch, msgLen := 6, msgSrc := .s1, stim := [.serRx .p0 0x7E, .ml], callsignLen := 3 }

theorem busy_port0Ok : portOk 2 busy.port0 := by
  refine ⟨rfl, ?_, fun _ => ⟨by decide, by decide, by decide, _, rfl, rfl⟩, ?_⟩
  · intro sl h
    fin_cases h
    · exact ⟨Memory.wf_nil, fun h => (by cases h)⟩
    · exact ⟨Memory.wf_nil, fun h => (by cases h)⟩
  · intro k sl h hs
    match k with
    | 0 => exact ⟨rfl, rfl⟩
    | 1 => cases h; cases hs
    | k + 2 => cases h

/-- A state inside a frame and a service meets the invariant, its step goes on, and its surroundings keep their
contracts. -/
theorem witness_EveryStepKeepsTheInvariant :
    MachineInv busy ∧ (∃ t, step busy = .next t) ∧ extContract busy.cfg ∧ stimulusAllowed busy := by
  refine ⟨⟨by decide, busy_port0Ok, portOk_reset _, ?_, ?_, ?_⟩, ⟨_, rfl⟩, fun _ _ _ _ h => (by cases h), trivial⟩
  · exact ⟨Memory.wf_nil, Memory.wf_nil, Memory.wf_nil, Memory.wf_nil, Memory.wf_nil, Memory.wf_nil, Memory.wf_nil⟩
  · simp [phaseOk, busy, port0Receiving, bl, State.reset, State.atReset]
  · simp [handlersOk, busy, port0Receiving, bl, State.reset, State.atReset, Config.cfgA]

end Sys2Proof.Tests
end

section
/-! SUPPORT. O6: which instruction a step runs, from what the reset line, the first stimulus and ML's phase present. -/

namespace Sys2Proof.Machine

/-! ### The step, from the unit presented -/

theorem step_of_fetch {s : State} {u : WireUnit} {i : Instr} (hc : configLegal s.cfg = true) (hf : s.fetch = some u)
    (hd : decode u = .ok i) : step s = exec i s.advance := by
  simp [step, hc, hf, hd]

theorem step_of_fetch_none {s : State} (hc : configLegal s.cfg = true) (hf : s.fetch = none) :
    step s = .next s.pass := by
  simp [step, hc, hf]

/-! ### The queue -/

/-- A stimulus that is taken leaves the rest of the queue; of the state it writes `keepalive` at most. -/
theorem State.advance_of_consumes {s : State} {e : Stim} {rest : List Stim} (hr : s.rebootLine = false)
    (hs : s.stim = e :: rest) (hk : s.consumes e = true) :
    s.advance = { s.controllerWrites e with stim := rest, cmdRecognized := false } := by
  simp [State.advance, hr, hs, hk, State.dropStrobe]

/-- The controller's write is the one stimulus that writes a field, and it presents no unit. -/
theorem State.controllerWrites_of_stimUnit {s : State} {e : Stim} {u : WireUnit} (h : s.stimUnit e = some u) :
    s.controllerWrites e = s := by
  cases e with
  | controller v => cases h
  | _ => rfl

/-- A step that runs an instruction takes at most the first stimulus off the queue and drops the strobe. -/
theorem State.advance_of_fetch {s : State} {u : WireUnit} (hf : s.fetch = some u) :
    s.advance = { s with cmdRecognized := false, stim := s.advance.stim } ∧
      (s.advance.stim = s.stim ∨ ∃ e, s.stim = e :: s.advance.stim) := by
  cases hr : s.rebootLine with
  | true => simp [State.advance, hr, State.dropStrobe]
  | false =>
    cases hs : s.stim with
    | nil => simp [State.advance, hr, hs, State.dropStrobe]
    | cons e rest =>
      cases hk : s.consumes e with
      | false => simp [State.advance, hr, hs, hk, State.dropStrobe]
      | true =>
        have hu : s.stimUnit e = some u := by simpa [State.fetch, hr, hs] using hf
        rw [State.advance_of_consumes hr hs hk, State.controllerWrites_of_stimUnit hu]
        exact ⟨by simp [hr], .inr ⟨e, rfl⟩⟩

/-! ### Which instruction the step selects -/

/-- R286: a requested reset comes before any stimulus. -/
theorem step_of_rebootLine {s : State} (hc : configLegal s.cfg = true) (hr : s.rebootLine = true) :
    step s = exec (.rst .rebootReq) { s with cmdRecognized := false } := by
  have hf : s.fetch = some ⟨.rst .rebootReq, []⟩ := by simp [State.fetch, hr]
  have ha : s.advance = { s with cmdRecognized := false } := by simp [State.advance, hr, State.dropStrobe]
  rw [step_of_fetch hc hf rfl, ha]

/-- A stimulus that is taken and presents a unit has that unit's instruction run. -/
theorem step_of_stimulus {s : State} {e : Stim} {rest : List Stim} {u : WireUnit} {i : Instr}
    (hc : configLegal s.cfg = true) (hr : s.rebootLine = false) (hs : s.stim = e :: rest)
    (hk : s.consumes e = true) (hu : s.stimUnit e = some u) (hd : decode u = .ok i) :
    step s = exec i { s with stim := rest, cmdRecognized := false } := by
  have hf : s.fetch = some u := by simpa [State.fetch, hr, hs] using hu
  rw [step_of_fetch hc hf hd, State.advance_of_consumes hr hs hk, State.controllerWrites_of_stimUnit hu]

theorem State.mlBusy_of_idle {s : State} (h : s.ml = .idle) : s.mlBusy = false := by
  simp [State.mlBusy, State.mlUnit, h]

theorem State.serviceUnit_of_idle {s : State} (h : s.ml = .idle) (u : WireUnit) : s.serviceUnit u = some u := by
  simp [State.serviceUnit, State.mlBusy_of_idle h]

/-- R139, R162: with ML idle, the turn for a service starts that service. -/
theorem step_of_service {s : State} {e : Stim} {rest : List Stim} {u : WireUnit} {i : Instr}
    (hc : configLegal s.cfg = true) (hr : s.rebootLine = false) (hs : s.stim = e :: rest) (hi : s.ml = .idle)
    (hk : s.consumes e = !s.mlBusy) (hu : s.stimUnit e = s.serviceUnit u) (hd : decode u = .ok i) :
    step s = exec i { s with stim := rest, cmdRecognized := false } :=
  step_of_stimulus hc hr hs (by rw [hk, State.mlBusy_of_idle hi]; rfl) (hu.trans (State.serviceUnit_of_idle hi u)) hd

/-- R39: the controller's write runs no instruction, and its step is no turn of ML. -/
theorem step_of_controller {s : State} {v : Nat} {rest : List Stim} (hc : configLegal s.cfg = true)
    (hr : s.rebootLine = false) (hs : s.stim = .controller v :: rest) :
    step s = .next { s with keepalive := v, stim := rest, cmdRecognized := false } := by
  have hf : s.fetch = none := by simp [State.fetch, hr, hs, State.stimUnit]
  have ht : s.mlTurn = false := by simp [State.mlTurn, hs]
  have ha := State.advance_of_consumes hr hs rfl
  simp [step_of_fetch_none hc hf, State.pass, ht, ha, State.controllerWrites]

/-! ### Turns of ML -/

/-- A turn of ML runs the instruction of the service's next step. -/
theorem step_of_turn {s : State} {left : List Stim} {u : WireUnit} {i : Instr} (hc : configLegal s.cfg = true)
    (hr : s.rebootLine = false) (ht : turnOfMl s left) (hu : s.mlUnit = some u) (hd : decode u = .ok i) :
    step s = exec i { s with stim := left, cmdRecognized := false } := by
  obtain ⟨hf, ha, -⟩ := State.turn_of_mlBusy hr ht (by simp [State.mlBusy, hu])
  rw [step_of_fetch hc (hf.trans hu) hd, ha]

/-- R167: a turn of ML whose service has only the drain left drains the receive slot and ends the service. -/
theorem step_of_turn_drain {s : State} {left : List Stim} (hc : configLegal s.cfg = true)
    (hr : s.rebootLine = false) (ht : turnOfMl s left) (hm : s.ml = .drain) :
    step s = .next { s with
      rxFull := false, rxArmed := true, ml := .idle, stim := left, cmdRecognized := false } := by
  obtain ⟨hf, ha, hturn⟩ := State.turn_of_mlBusy hr ht (by simp [State.mlBusy, hm])
  have hu : s.mlUnit = none := by simp [State.mlUnit, hm]
  have hd : s.advance.ml = .drain := (State.advance_ml s).trans hm
  rw [step_of_fetch_none hc (hf.trans hu), State.pass, if_pos hturn, State.mlDrain_of_drain hd, ha]

/-! ### What the decoder reads from a packet and from `msg` -/

theorem decode_radioIn {pkt : List Byte} (h : (Instr.rfRx pkt).wf = true) :
    decode ⟨.radioIn, pkt⟩ = .ok (.rfRx pkt) := by
  cases pkt with
  | nil => cases h
  | cons l rest =>
    have hl : rest.length = l.toNat := by simpa [Instr.wf] using h
    simp [decode, hl]

/-- The buffer `msg` as R93 lays a Message out: the six header bytes, then the payload. -/
theorem State.msgBytes_eq_messageBytes {s : State} (h : 6 ≤ s.msgLen.toNat) :
    s.msgBytes = messageBytes
      ⟨u16le (s.msg.byteAt 0) (s.msg.byteAt 1), u16le (s.msg.byteAt 2) (s.msg.byteAt 3), s.msg.byteAt 4⟩
      (s.msg.byteAt 5) (s.msg.readBytes 6 (s.msgLen.toNat - 6)) := by
  have hcut : s.msgBytes = s.msg.readBytes 0 6 ++ s.msg.readBytes (0 + 6) (s.msgLen.toNat - 6) := by
    rw [← Memory.readBytes_add, Nat.add_sub_cancel' h, State.msgBytes]
  simp [hcut, messageBytes, le16_u16le, Memory.readBytes, List.range_succ]

/-- A Message of a legal length in `msg` decodes to the row of its opcode (R93, R230). -/
theorem decode_msgBytes {s : State} (h6 : 6 ≤ s.msgLen.toNat) (h253 : s.msgLen.toNat ≤ 253) :
    decode ⟨.message, s.msgBytes⟩ = .ok (instrOfOpcode (s.msg.byteAt 5)
      ⟨u16le (s.msg.byteAt 0) (s.msg.byteAt 1), u16le (s.msg.byteAt 2) (s.msg.byteAt 3), s.msg.byteAt 4⟩
      (s.msg.readBytes 6 (s.msgLen.toNat - 6))) := by
  have hp : payloadFits (s.msg.readBytes 6 (s.msgLen.toNat - 6)) = true := by
    simp only [payloadFits, Memory.length_readBytes, decide_eq_true_eq]
    omega
  rw [State.msgBytes_eq_messageBytes h6]
  exact decode_encodeMessage hp

/-! ### The obligation -/

/-- Settles O6, by what the reset line, each stimulus and each phase of ML presents. -/
theorem stepRunsTheDecodedInstruction : Obligations.StepRunsTheDecodedInstruction := by
  intro s hc
  refine ⟨fun u i hf hd => ⟨step_of_fetch hc hf hd, State.advance_of_fetch hf⟩, step_of_rebootLine hc,
    fun hr rest => ⟨?serRx, ?rfRx, ?txDone, ?tick, ?rst, ?controller, ?poll, ?radio⟩,
    fun left hr ht => ⟨?dispatch, ?handler, ?drain⟩⟩
  case serRx => exact fun p b hs => step_of_stimulus hc hr hs rfl rfl rfl
  case rfRx => exact fun pkt hs hw => step_of_stimulus hc hr hs rfl rfl (decode_radioIn hw)
  case txDone => exact fun hs => step_of_stimulus hc hr hs rfl rfl rfl
  case tick => exact fun hs => step_of_stimulus hc hr hs rfl rfl rfl
  case rst => exact fun c hs => step_of_stimulus hc hr hs rfl rfl rfl
  case controller => exact fun v hs => step_of_controller hc hr hs
  case poll => exact fun p hs hi => step_of_service hc hr hs hi rfl rfl rfl
  case radio => exact fun hs hi => step_of_service hc hr hs hi rfl rfl rfl
  case dispatch =>
    intro hm
    have hu : s.mlUnit = some ⟨.mlDispatch, []⟩ := by simp [State.mlUnit, hm]
    exact step_of_turn hc hr ht hu rfl
  case handler => exact fun hm h6 h253 => step_of_turn hc hr ht (State.mlUnit_of_handling hm) (decode_msgBytes h6 h253)
  case drain => exact fun hm => step_of_turn_drain hc hr ht hm

end Sys2Proof.Machine
end

section
/-! SUPPORT. O59: each instruction keeps `MachineInv` in the phase of ML in which a step runs it. -/

namespace Sys2Proof.Machine

/-! ### The phase -/

/-- Between services, and with only the drain left of one, nothing is promised but that no transmission is in flight. -/
theorem phaseOk_of_quiet {s : State} (hm : s.ml = .idle ∨ s.ml = .drain) (hb : s.txBusy = false) : phaseOk s := by
  rcases hm with hm | hm <;> simp [phaseOk, hm, hb, handling]

/-! ### The serial ports -/

/-- Each port of the machine has the pool its configuration gives it (R25). -/
theorem MachineInv.portOk_port {s : State} (h : MachineInv s) (p : Port) : ∃ n, portOk n (s.port p) := by
  obtain ⟨-, h0, h1, -⟩ := h
  cases p with
  | p0 => exact ⟨_, h0⟩
  | p1 => exact ⟨_, h1⟩

theorem MachineInv.setPort {s : State} {p : Port} {q : SerialPort} (h : MachineInv s)
    (hq : ∀ n, portOk n (s.port p) → portOk n q) : MachineInv (s.setPort p q) := by
  obtain ⟨hc, h0, h1, hbuf, hph, hh⟩ := h
  cases p with
  | p0 => exact ⟨hc, hq _ h0, h1, hbuf, hph, hh⟩
  | p1 => exact ⟨hc, h0, hq _ h1, hbuf, hph, hh⟩

/-- The frame of a Ready slot has a legal length (R26, R91). -/
theorem portOk.length_frameOf {n k : Nat} {q : SerialPort} (h : portOk n q) (hk : q.firstSlot .ready = some k) :
    1 ≤ (q.frameOf k).length ∧ (q.frameOf k).length ≤ 251 := by
  obtain ⟨⟨sl, hsl, hready⟩, -⟩ := SerialPort.firstSlot_some hk
  obtain ⟨-, hslots, -⟩ := h
  simpa [SerialPort.frameOf, hsl] using (hslots sl (List.mem_of_getElem? hsl)).2 hready

/-! ### The services of ML -/

/-- A Message of a length that its buffer has goes to dispatch (R139, R166). -/
theorem MachineInv.takeMessage {s : State} {d : List Byte} (src : Transport) (fbit : Bool) (h : MachineInv s)
    (hm : s.ml = .idle) (h1 : 1 ≤ d.length) (h2 : d.length ≤ 253) : MachineInv (s.takeMessage d src fbit) := by
  have hb : s.txBusy = false := h.not_txBusy (by simp [hm])
  have hlen : (BitVec.ofNat 8 d.length).toNat = d.length := by
    rw [BitVec.toNat_ofNat]; exact Nat.mod_eq_of_lt (by omega)
  obtain ⟨hc, hp0, hp1, ⟨w1, w2, w3, w4, w5, w6, w7⟩, -, hh⟩ := h
  refine ⟨hc, hp0, hp1, ⟨w1, w2, Memory.wf_writeBytes w3 _ _, w4, w5, w6, w7⟩, ?_, hh⟩
  simp [phaseOk, handling, hb, hlen, h1, h2]

/-- Listening resumes where no transmission is in flight (R167). -/
theorem MachineInv.drain {s : State} (h : MachineInv s) (hm : s.ml = .idle) : MachineInv s.drain := by
  have hb : s.txBusy = false := h.not_txBusy (by simp [hm])
  obtain ⟨hc, hp0, hp1, hbuf, -, hh⟩ := h
  exact ⟨hc, hp0, hp1, hbuf, phaseOk_of_quiet (.inl hm) hb, hh⟩

theorem MachineInv.execPoll {p : Port} {s t : State} (h : MachineInv s) (he : execPoll p s = .next t) :
    MachineInv t := by
  unfold Machine.execPoll at he
  split at he
  case h_2 => cases he; exact h
  case h_1 hm =>
    dsimp only at he
    split at he
    case h_1 => cases he; exact h
    case h_2 k hk =>
      cases he
      obtain ⟨n, hp⟩ := h.portOk_port p
      obtain ⟨h1, h2⟩ := hp.length_frameOf hk
      exact (h.setPort fun n hn => hn.freeSlot hk).takeMessage _ _ (by simpa using hm) h1 (by omega)

/-- The Message of a packet of 9..255 bytes has a legal length (R163, R166). -/
theorem MachineInv.acceptPacket {s : State} {L : Nat} (h : MachineInv s) (hm : s.ml = .idle) (h9 : 9 ≤ L)
    (h255 : L ≤ 255) : MachineInv (s.acceptPacket L) := by
  have hd : (s.rxMessage L).length = L - 3 := by
    simp only [State.rxMessage, List.length_append, Memory.length_readBytes]; omega
  exact h.takeMessage .r (flagsFbit (s.rxBuf.byteAt 1)) hm (d := s.rxMessage L) (by omega) (by omega)

theorem MachineInv.execMlRadio {s t : State} (h : MachineInv s) (he : execMlRadio s = .next t) : MachineInv t := by
  unfold Machine.execMlRadio at he
  split at he
  case isFalse => cases he; exact h
  case isTrue hen =>
    have hm : s.ml = .idle := by
      simp only [State.radioEnabled, Bool.and_eq_true, decide_eq_true_eq] at hen
      exact hen.2
    have hL : s.rxLen < 256 := (s.rxBuf.byteAt 0).isLt
    dsimp only at he
    split at he
    case isTrue => cases he; exact MachineInv.drain (s := State.raiseEvent _ _) h hm
    case isFalse h9 =>
      split at he
      case isFalse => cases he; exact MachineInv.drain (s := State.raiseEvent _ _) h hm
      case isTrue => cases he; exact h.acceptPacket hm (by omega) (by omega)

theorem MachineInv.execDispatch {s t : State} (h : MachineInv s) (hm : s.ml = .dispatch)
    (he : execDispatch s = .next t) : MachineInv t := by
  have hnw : s.ml ≠ .txWait := by simp [hm]
  have hb := h.not_txBusy hnw
  unfold Machine.execDispatch at he
  split at he
  case isTrue => cases he; exact (h.raiseEvent _).endService hnw
  case isFalse h6 =>
    obtain ⟨hc, hp0, hp1, hbuf, hph, hh⟩ := id h
    obtain ⟨-, h253⟩ := hph.1 hm
    split at he
    case isTrue =>
      cases he
      exact ⟨hc, hp0, hp1, hbuf, by simp [phaseOk, handling, hb, h253]; omega, hh⟩
    case isFalse =>
      split at he
      case isTrue =>
        cases he
        exact ⟨hc, hp0, hp1, hbuf, by simp [phaseOk, handling, hb, h253]; omega, hh⟩
      case isFalse => cases he; exact (h.raiseEvent _).endService hnw

/-- The handler's next step (R204, R357). -/
theorem MachineInv.delivered {s t : State} {o : Host.Outcome State Fault Refusal} (h : MachineInv s)
    (hm : handling s.ml = true) (d : Delivers s o) (ho : o = .next t) : MachineInv t := by
  obtain ⟨u, k, ⟨hl, rfl | rfl⟩ | ⟨p, hp, ha, rfl⟩⟩ := d t ho
  · exact h.handlerDone hm k hl
  · exact (h.handlerDone hm k hl).requestReboot
  · exact h.kept hm k hp ha

/-! ### The sends -/

theorem MachineInv.execSerSend {p : Port} {m : List Byte} {s t : State} (h : MachineInv s) (hm : s.ml ≠ .txWait)
    (he : execSerSend p m s = .next t) : MachineInv t := by
  unfold Machine.execSerSend at he
  split at he
  · cases he; exact (h.raiseEvent _).endService hm
  · cases he; exact (h.emit _).endService hm

theorem MachineInv.execRadioSend {m : List Byte} {fbit : Bool} {s t : State} (h : MachineInv s)
    (hm : s.ml ≠ .txWait) (he : execRadioSend m fbit s = .next t) : MachineInv t := by
  unfold Machine.execRadioSend at he
  split at he
  · cases he; exact (h.raiseEvent _).endService hm
  · cases he
    obtain ⟨hc, hp0, hp1, ⟨w1, w2, w3, w4, w5, w6, w7⟩, -, hh⟩ := h
    exact ⟨hc, hp0, hp1, ⟨w1, Memory.wf_writeBytes w2 _ _, w3, w4, w5, w6, w7⟩, by simp [phaseOk, handling], hh⟩

/-- A reply or a forward is a send (R207, R208). -/
theorem MachineInv.execSend {u : WireUnit} {i : Instr} {s t : State} (h : MachineInv s) (hm : s.ml ≠ .txWait)
    (hu : (∃ p, u.carrier = .serialOut p) ∨ ∃ b, u.carrier = .radioOut b) (hd : decode u = .ok i)
    (he : exec i s = .next t) : MachineInv t := by
  rcases hu with ⟨p, hp⟩ | ⟨b, hb⟩
  · simp only [decode, hp] at hd
    split at hd
    · cases hd; exact h.execSerSend hm he
    · cases hd
  · simp only [decode, hb] at hd
    split at hd
    · cases hd; exact h.execRadioSend hm he
    · cases hd

theorem State.replyUnit_carrier (s : State) :
    (∃ p, s.replyUnit.carrier = .serialOut p) ∨ ∃ b, s.replyUnit.carrier = .radioOut b := by
  unfold State.replyUnit
  cases s.msgSrc with
  | s0 => exact .inl ⟨_, rfl⟩
  | s1 => exact .inl ⟨_, rfl⟩
  | r => exact .inr ⟨_, rfl⟩

theorem State.forwardUnit_carrier (s : State) :
    (∃ p, s.forwardUnit.carrier = .serialOut p) ∨ ∃ b, s.forwardUnit.carrier = .radioOut b := by
  unfold State.forwardUnit
  cases s.msgSrc with
  | s0 => exact .inr ⟨_, rfl⟩
  | s1 => exact .inr ⟨_, rfl⟩
  | r => exact .inl ⟨_, rfl⟩

/-! ### The radio, the clock and the reset -/

/-- What the PHY presents is a received packet (R105). -/
theorem decode_radioIn_row {pkt : List Byte} {i : Instr} (hd : decode ⟨.radioIn, pkt⟩ = .ok i) : i = .rfRx pkt := by
  cases pkt with
  | nil => cases hd
  | cons l rest =>
    simp only [decode] at hd
    split at hd
    · cases hd; rfl
    · cases hd

theorem MachineInv.execRfRx {pkt : List Byte} {s t : State} (h : MachineInv s) (he : execRfRx pkt s = .next t) :
    MachineInv t := by
  unfold Machine.execRfRx at he
  split at he
  · cases he
    obtain ⟨hc, hp0, hp1, ⟨w1, w2, w3, w4, w5, w6, w7⟩, hph, hh⟩ := h
    exact ⟨hc, hp0, hp1, ⟨Memory.wf_writeBytes w1 _ _, w2, w3, w4, w5, w6, w7⟩, hph, hh⟩
  · cases he; exact h.raiseEvent _

/-- The end of a transmission leaves the wait for it and the transmission together (R178). -/
theorem MachineInv.execRfTxDone {s t : State} (h : MachineInv s) (he : execRfTxDone s = .next t) : MachineInv t := by
  unfold Machine.execRfTxDone at he
  split at he
  · cases he
    obtain ⟨hc, hp0, hp1, hbuf, -, hh⟩ := h
    exact ⟨hc, hp0, hp1, hbuf, phaseOk_of_quiet (State.endPhase_cases _) rfl, hh⟩
  · cases he

/-- A receiver reset arms the receiver only where nothing is transmitted (R285; log 37). -/
theorem MachineInv.rxReset {s : State} (h : MachineInv s) : MachineInv s.rxReset := by
  cases ht : s.transmitting with
  | true => rw [State.rxReset_of_transmitting ht]; exact h.emit _
  | false =>
    rw [State.rxReset_of_not_transmitting ht]
    have hnt : ¬(s.txBusy = true ∨ s.ml = .ranging) := by rw [← State.transmitting_iff, ht]; simp
    obtain ⟨hc, hp0, hp1, hbuf, ⟨hdisp, hmsg, hreply, hwait, -⟩, hh⟩ := h
    exact ⟨hc, hp0, hp1, hbuf, ⟨hdisp, hmsg, hreply, hwait, fun hx => absurd hx hnt⟩, hh⟩

theorem MachineInv.execTick {s t : State} (h : MachineInv s) (he : execTick s = .next t) : MachineInv t := by
  cases he
  have hcount : MachineInv s.countTick := h
  have hidle : MachineInv s.countTick.tickIdle := by
    unfold State.tickIdle
    split
    · exact hcount.rxReset
    · exact hcount
  unfold State.tickDeadline
  split
  · exact hidle.requestReboot
  · exact hidle

theorem MachineInv.recordCause {s : State} (h : MachineInv s) (c : ResetCause) : MachineInv (s.recordCause c) := by
  cases c with
  | watchdog => exact h.raiseEvent _
  | _ => exact h

/-- After a reset the pools are free, ML is idle, and only the flash is as it was (R341, R342). -/
theorem MachineInv.resetBlock {s : State} (h : MachineInv s) : MachineInv s.resetBlock := by
  obtain ⟨hc, -, -, ⟨-, -, -, -, -, -, wflash⟩, -, -⟩ := h
  exact ⟨hc, portOk_reset _, portOk_reset _,
    ⟨Memory.wf_nil, Memory.wf_nil, Memory.wf_nil, Memory.wf_nil, Memory.wf_nil, Memory.wf_nil, wflash⟩,
    phaseOk_of_quiet (.inl rfl) rfl, Nat.zero_le _, Nat.zero_le _, nofun⟩

/-! ### A received byte -/

/-- The row that the decoder's state selects (R130). -/
theorem MachineInv.execSerialByte {p : Port} {b : Byte} {s t : State} (h : MachineInv s)
    (he : exec (decodeSerialByte p (s.port p).fdState (s.port p).hasFree b) s = .next t) : MachineInv t :=
  h.feedByte (feedByte_of_exec he)

/-! ### The step -/

theorem State.advance_port (s : State) (p : Port) : s.advance.port p = s.port p := by
  cases p with
  | p0 => exact s.advance_port0
  | p1 => exact s.advance_port1

/-- ML's next step in the service in progress, by its phase. -/
theorem MachineInv.mlStep {s t : State} {u : WireUnit} {i : Instr} (h : MachineInv s) (hu : s.mlUnit = some u)
    (hd : decode u = .ok i) (he : exec i s.advance = .next t) : MachineInv t := by
  have ha := h.advance
  rcases State.mlUnit_cases hu with ⟨hm, rfl⟩ | ⟨hm, rfl⟩ | ⟨hm, rfl⟩ | ⟨hm, rfl⟩
  · cases hd
    exact ha.execDispatch (by simpa using hm) he
  · obtain ⟨op, hdr, pl, hfit, -, rfl⟩ := decodeMessage_ok hd
    exact ha.delivered (by simpa using hm) (exec_delivers op hdr pl _ hfit) he
  · exact ha.execSend (by simp [hm]) s.replyUnit_carrier hd he
  · exact ha.execSend (by simp [hm]) s.forwardUnit_carrier hd he

/-- A step that runs an instruction: ML's own, or one of an input or of the start of a service. -/
theorem MachineInv.fetched {s t : State} {u : WireUnit} {i : Instr} (h : MachineInv s) (hf : s.fetch = some u)
    (hd : decode u = .ok i) (he : exec i s.advance = .next t) : MachineInv t := by
  have ha := h.advance
  rcases State.fetch_cases hf with
    hml | ⟨p, b, rfl⟩ | ⟨p, rfl⟩ | ⟨pkt, rest, -, rfl⟩ | rfl | ⟨rfl, -⟩ | rfl | ⟨c, rfl⟩
  · exact h.mlStep hml hd he
  · cases hd
    rw [← s.advance_port] at he
    exact ha.execSerialByte he
  · cases hd; exact ha.execPoll he
  · obtain rfl := decode_radioIn_row hd
    exact ha.execRfRx he
  · cases hd; exact ha.execMlRadio he
  · cases hd; exact ha.execRfTxDone he
  · cases hd; exact ha.execTick he
  · cases hd
    cases he
    exact (ha.recordCause c).resetBlock

/-- Settles O59, from the step without an instruction and the step of the instruction that is presented. -/
theorem everyStepKeepsTheInvariant : Obligations.EveryStepKeepsTheInvariant := by
  intro s t h hstep
  obtain ⟨-, ⟨-, rfl⟩ | ⟨u, i, hf, hd, he⟩⟩ := step_next hstep
  · exact h.pass
  · exact h.fetched hf hd he

end Sys2Proof.Machine
end

section
/-! SUPPORT. O55, O57: what each instruction can do to the configuration and to the counters, said once: `Counts`. -/

namespace Sys2Proof.Machine

/-! ### The counters (R27, R32) -/

/-- The counters of the block. -/
inductive Counter where
  | radioSent | radioGood | radioRejCrc | radioRejOther
  | rxFrames (p : Port)
deriving DecidableEq

def State.count (s : State) : Counter → U32
  | .radioSent => s.radioSent
  | .radioGood => s.radioGood
  | .radioRejCrc => s.radioRejCrc
  | .radioRejOther => s.radioRejOther
  | .rxFrames p => (s.port p).rxFrames

/-- The instruction that moves a counter (R136, R163, R165, R166, R178). -/
def Counter.WrittenBy : Counter → Instr → Prop
  | .radioSent, i => i = .rfTxDone
  | .radioGood, i => i = .mlRadio
  | .radioRejCrc, i => i = .mlRadio
  | .radioRejOther, i => i = .mlRadio
  | .rxFrames p, i => ∃ b, i = .serRxReceiveData p b

/-- Every counter but `c` is the same, and `c` is one up. -/
def Bumps (c : Counter) (s t : State) : Prop := t.count = Function.update s.count c (s.count c + 1)

/-- Completing a frame moves the port's own counter (R136). -/
theorem bumps_completeFrame (s : State) (p : Port) (b : Byte) :
    Bumps (.rxFrames p) s (s.setPort p ((s.port p).completeFrame b)) := by
  funext c
  cases c with
  | rxFrames r =>
    by_cases hr : r = p
    · subst hr; simp [State.count, SerialPort.completeFrame, SerialPort.storeByte, SerialPort.updateSlot, bump]
    · simp [State.count, State.setPort_port_ne s _ hr, hr]
  | _ => cases p <;> rfl

/-- The configuration and every counter are the same. -/
structure Steady (s t : State) : Prop where
  cfg : t.cfg = s.cfg
  count : t.count = s.count

section
variable {s t : State} (h : Steady s t)
include h

theorem Steady.raiseEvent (e : Event) : Steady s (t.raiseEvent e) := ⟨h.cfg, h.count⟩
theorem Steady.takeMessage (d : List Byte) (src : Transport) (fbit : Bool) : Steady s (t.takeMessage d src fbit) :=
  ⟨h.cfg, h.count⟩
theorem Steady.requestReboot : Steady s t.requestReboot := ⟨h.cfg, h.count⟩
theorem Steady.setMl (p : MlPhase) : Steady s { t with ml := p } := ⟨h.cfg, h.count⟩

theorem Steady.handlerDone : Steady s t.handlerDone := by
  unfold State.handlerDone
  split <;> exact ⟨h.cfg, h.count⟩

theorem Steady.rxReset : Steady s t.rxReset := by
  unfold State.rxReset
  split <;> exact ⟨h.cfg, h.count⟩

theorem Steady.tickIdle : Steady s t.tickIdle := by
  unfold State.tickIdle
  split
  · obtain ⟨hc, hn⟩ := h.rxReset
    exact ⟨hc, hn⟩
  · exact h

theorem Steady.tickDeadline : Steady s t.tickDeadline := by
  unfold State.tickDeadline
  split
  · exact h.requestReboot
  · exact h

end

/-- Writing a port leaves the counters where the port's own is the same. -/
theorem Steady.setPort {s : State} {p : Port} {q : SerialPort} (h : q.rxFrames = (s.port p).rxFrames) :
    Steady s (s.setPort p q) := by
  refine ⟨s.setPort_cfg p q, funext fun c => ?_⟩
  cases c with
  | rxFrames r =>
    by_cases hr : r = p
    · subst hr; simpa [State.count] using h
    · simp [State.count, State.setPort_port_ne s q hr]
  | _ => cases p <;> rfl

/-- What a handler keeps (R211). -/
theorem Kept.steady {s t : State} (k : Kept s t) : Steady s t := by
  refine ⟨k.cfg, funext fun c => ?_⟩
  cases c with
  | radioSent => exact k.radioSent
  | radioGood => exact k.radioGood
  | radioRejCrc => exact k.radioRejCrc
  | radioRejOther => exact k.radioRejOther
  | rxFrames p =>
    cases p with
    | p0 => exact congrArg SerialPort.rxFrames k.port0
    | p1 => exact congrArg SerialPort.rxFrames k.port1

/-! ### What an instruction does to the configuration and to the counters -/

/-- No instruction writes the configuration (R36), and but for a reset each counter stays, or goes one up by the
instruction that moves it. -/
structure Counts (i : Instr) (s t : State) : Prop where
  cfg : t.cfg = s.cfg
  count : (∀ c, i ≠ .rst c) → ∀ c, t.count c = s.count c ∨ c.WrittenBy i ∧ t.count c = s.count c + 1

theorem Counts.steady {i : Instr} {s t : State} (h : Steady s t) : Counts i s t :=
  ⟨h.cfg, fun _ c => .inl (by rw [h.count])⟩

theorem Counts.bumps {i : Instr} {s t : State} (c : Counter) (hw : c.WrittenBy i) (hc : t.cfg = s.cfg)
    (hb : Bumps c s t) : Counts i s t := by
  refine ⟨hc, fun _ d => ?_⟩
  rw [hb]
  by_cases hd : d = c
  · subst hd; exact .inr ⟨hw, by simp⟩
  · exact .inl (by simp [hd])

/-! ### The Messages -/

theorem Delivers.counts {i : Instr} {s t : State} {o : Host.Outcome State Fault Refusal} (d : Delivers s o)
    (ho : o = .next t) : Counts i s t := by
  obtain ⟨u, k, ⟨-, rfl | rfl⟩ | ⟨p, -, -, rfl⟩⟩ := d t ho
  · exact .steady k.steady.handlerDone
  · exact .steady k.steady.handlerDone.requestReboot
  · exact .steady (k.steady.setMl p)

/-! ### The serial port -/

theorem counts_serRxWaitStart0 {p : Port} {b : Byte} {s t : State} (he : execSerRxWaitStart0 p b s = .next t) :
    Counts (.serRxWaitStart0 p b) s t := by
  unfold execSerRxWaitStart0 at he
  dsimp only at he
  split at he <;> cases he
  · exact .steady (.setPort rfl)
  · exact .steady ⟨rfl, rfl⟩

theorem counts_serRxWaitStart1 {p : Port} {b : Byte} {s t : State} (he : execSerRxWaitStart1 p b s = .next t) :
    Counts (.serRxWaitStart1 p b) s t := by
  unfold execSerRxWaitStart1 at he
  dsimp only at he
  split at he
  · split at he
    · cases he; exact .steady (.setPort rfl)
    · split at he <;> cases he <;> exact .steady ⟨rfl, rfl⟩
  · cases he; exact .steady ⟨rfl, rfl⟩

theorem counts_serRxWaitLengthBad {p : Port} {b : Byte} {s t : State} (he : execSerRxWaitLengthBad p b s = .next t) :
    Counts (.serRxWaitLengthBad p b) s t := by
  unfold execSerRxWaitLengthBad at he
  dsimp only at he
  split at he
  · split at he <;> cases he
    · exact .steady ⟨rfl, rfl⟩
    · exact .steady (.raiseEvent (.setPort (by rfl)) _)
  · cases he; exact .steady ⟨rfl, rfl⟩

theorem counts_serRxWaitLengthNofree {p : Port} {b : Byte} {s t : State}
    (he : execSerRxWaitLengthNofree p b s = .next t) : Counts (.serRxWaitLengthNofree p b) s t := by
  unfold execSerRxWaitLengthNofree at he
  dsimp only at he
  split at he
  · split at he <;> cases he
    · exact .steady (.raiseEvent (.setPort (by rfl)) _)
    · exact .steady ⟨rfl, rfl⟩
  · cases he; exact .steady ⟨rfl, rfl⟩

theorem counts_serRxWaitLengthOk {p : Port} {b : Byte} {s t : State} (he : execSerRxWaitLengthOk p b s = .next t) :
    Counts (.serRxWaitLengthOk p b) s t := by
  unfold execSerRxWaitLengthOk at he
  dsimp only at he
  split at he
  · split at he
    · split at he <;> cases he
      · exact .steady (.setPort rfl)
      · exact .steady ⟨rfl, rfl⟩
    · cases he; exact .steady ⟨rfl, rfl⟩
  · cases he; exact .steady ⟨rfl, rfl⟩

theorem counts_serRxReceiveData {p : Port} {b : Byte} {s t : State} (he : execSerRxReceiveData p b s = .next t) :
    Counts (.serRxReceiveData p b) s t := by
  unfold execSerRxReceiveData at he
  dsimp only at he
  split at he
  · split at he <;> cases he
    · exact .bumps (.rxFrames p) ⟨b, rfl⟩ (s.setPort_cfg p _) (bumps_completeFrame s p b)
    · exact .steady (.setPort rfl)
  · cases he; exact .steady ⟨rfl, rfl⟩

theorem counts_poll {p : Port} {s t : State} (he : execPoll p s = .next t) : Counts (.poll p) s t := by
  unfold execPoll at he
  split at he
  · dsimp only at he
    split at he <;> cases he
    · exact .steady ⟨rfl, rfl⟩
    · exact .steady (.takeMessage (.setPort (by rfl)) _ _ _)
  · cases he; exact .steady ⟨rfl, rfl⟩

theorem counts_serSend {p : Port} {m : List Byte} {s t : State} (he : execSerSend p m s = .next t) :
    Counts (.serSend p m) s t := by
  unfold execSerSend at he
  split at he <;> cases he <;> exact .steady ⟨rfl, rfl⟩

/-! ### The radio -/

theorem counts_rfRx {pkt : List Byte} {s t : State} (he : execRfRx pkt s = .next t) : Counts (.rfRx pkt) s t := by
  unfold execRfRx at he
  split at he <;> cases he <;> exact .steady ⟨rfl, rfl⟩

/-- Each end of the radio service has its counter (R163, R165, R166). -/
theorem counts_mlRadio {s t : State} (he : execMlRadio s = .next t) : Counts .mlRadio s t := by
  unfold execMlRadio at he
  split at he
  · dsimp only at he
    split at he
    · cases he; exact .bumps .radioRejOther rfl rfl (funext fun c => by cases c <;> rfl)
    · split at he <;> cases he
      · exact .bumps .radioGood rfl rfl (funext fun c => by cases c <;> rfl)
      · exact .bumps .radioRejCrc rfl rfl (funext fun c => by cases c <;> rfl)
  · cases he; exact .steady ⟨rfl, rfl⟩

theorem counts_radioSend {m : List Byte} {fbit : Bool} {s t : State} (he : execRadioSend m fbit s = .next t) :
    Counts (.radioSend m fbit) s t := by
  unfold execRadioSend at he
  split at he <;> cases he <;> exact .steady ⟨rfl, rfl⟩

theorem counts_rfTxDone {s t : State} (he : execRfTxDone s = .next t) : Counts .rfTxDone s t := by
  unfold execRfTxDone at he
  split at he <;> cases he
  exact .bumps .radioSent rfl rfl (funext fun c => by cases c <;> rfl)

/-! ### The dispatch, the clock and the reset -/

theorem counts_dispatch {s t : State} (he : execDispatch s = .next t) : Counts .dispatch s t := by
  unfold execDispatch at he
  split at he
  · cases he; exact .steady ⟨rfl, rfl⟩
  · split at he
    · cases he; exact .steady ⟨rfl, rfl⟩
    · split at he <;> cases he <;> exact .steady ⟨rfl, rfl⟩

theorem counts_tick {s t : State} (he : execTick s = .next t) : Counts .tick s t := by
  cases he
  have hcount : Steady s s.countTick := ⟨rfl, rfl⟩
  exact .steady hcount.tickIdle.tickDeadline

theorem counts_rst {c : ResetCause} {s t : State} (he : execRst c s = .next t) : Counts (.rst c) s t := by
  cases he
  exact ⟨by cases c <;> rfl, fun hr => absurd rfl (hr c)⟩

/-! ### Every instruction -/

theorem exec_counts_of_not_message {i : Instr} {s t : State} (hi : i.isMessage = false) (he : exec i s = .next t) :
    Counts i s t := by
  cases i
  case serRxWaitStart0 => exact counts_serRxWaitStart0 he
  case serRxWaitStart1 => exact counts_serRxWaitStart1 he
  case serRxWaitLengthBad => exact counts_serRxWaitLengthBad he
  case serRxWaitLengthNofree => exact counts_serRxWaitLengthNofree he
  case serRxWaitLengthOk => exact counts_serRxWaitLengthOk he
  case serRxReceiveData => exact counts_serRxReceiveData he
  case poll => exact counts_poll he
  case serSend => exact counts_serSend he
  case rfRx => exact counts_rfRx he
  case mlRadio => exact counts_mlRadio he
  case radioSend => exact counts_radioSend he
  case rfTxDone => exact counts_rfTxDone he
  case dispatch => exact counts_dispatch he
  case tick => exact counts_tick he
  case rst => exact counts_rst he
  all_goals cases hi

theorem exec_counts {i : Instr} {s t : State} (hw : i.wf = true) (he : exec i s = .next t) : Counts i s t := by
  rcases Instr.message_or_not hw with ⟨op, h, pl, hfit, rfl⟩ | hi
  · exact (exec_delivers op h pl s hfit).counts he
  · exact exec_counts_of_not_message hi he

/-- Settles O57, from what every instruction does to the counters. -/
theorem countersHaveTheirWriters : Obligations.CountersHaveTheirWriters := by
  intro i s t hw he hr
  have h := (exec_counts hw he).count hr
  exact ⟨h .radioSent, h .radioGood, h .radioRejCrc, h .radioRejOther, fun p => h (.rxFrames p)⟩

/-! ### The configuration (R36) -/

theorem State.pass_cfg (s : State) : s.pass.cfg = s.cfg := by
  unfold State.pass
  split <;> simp

/-- What the decoder reads from any unit keeps the configuration. -/
theorem exec_cfg_of_decode {u : WireUnit} {i : Instr} {s t : State} (hd : decode u = .ok i)
    (he : exec i s = .next t) : t.cfg = s.cfg := by
  rcases decode_message_or_not hd with ⟨-, op, h, pl, hfit, -, rfl⟩ | ⟨-, hi⟩
  · exact ((exec_delivers op h pl s hfit).counts (i := instrOfOpcode op h pl) he).cfg
  · exact (exec_counts_of_not_message hi he).cfg

/-- Settles O55, from the step without an instruction and the step of an instruction. -/
theorem configurationNeverChanges : Obligations.ConfigurationNeverChanges := by
  intro s t hstep
  obtain ⟨-, ⟨-, rfl⟩ | ⟨u, i, -, hd, he⟩⟩ := step_next hstep
  · exact s.pass_cfg
  · exact (exec_cfg_of_decode hd he).trans s.advance_cfg

end Sys2Proof.Machine
end

section
/-! SUPPORT. O1 to O5: the decoder and the encoder, row by row (30_encoding.md). -/

namespace Sys2Proof

/-! ### The Message rows (R93, R101) -/

/-- Each row of the opcode map is encoded under the opcode that selects it. -/
theorem encode_instrOfOpcode (op : Byte) (h : Header) (pl : List Byte) :
    encode (instrOfOpcode op h pl) = encodeMessage op h pl := by
  apply instrOfOpcode_cases (motive := fun op i => encode i = encodeMessage op h pl) op h pl
  case reboot => rintro rfl; rfl
  all_goals intros; rfl

/-- Each row of the opcode map is well formed where its payload fits. -/
theorem wf_instrOfOpcode (op : Byte) (h : Header) {pl : List Byte} (hp : payloadFits pl = true) :
    (instrOfOpcode op h pl).wf = true := by
  apply instrOfOpcode_cases (motive := fun _ i => i.wf = true) op h pl
  case reboot => intro _; rfl
  case rebootPostpone => intro hne; simp [Instr.wf, hne, hp]
  case unassigned => intro ho; simp only [Instr.wf, ho, hp]; rfl
  all_goals exact hp

/-- Any bytes that are at least a header are laid out as R93 says. -/
theorem exists_messageBytes {bs : List Byte} (h6 : 6 ≤ bs.length) : ∃ op h pl, bs = messageBytes h op pl := by
  match bs, h6 with
  | id0 :: id1 :: sq0 :: sq1 :: sub :: op :: pl, _ =>
    exact ⟨op, ⟨u16le id0 id1, u16le sq0 sq1, sub⟩, pl, by simp [messageBytes, Machine.le16_u16le]⟩

/-- A Message that is longer than its buffer is rejected (R94). -/
theorem decode_encodeMessage_of_not_fits {op : Byte} {h : Header} {pl : List Byte} (hp : payloadFits pl = false) :
    decode (encodeMessage op h pl) = .error .messageLength := by
  simp [decode, encodeMessage, messageBytes, le16, decodeMessage, hp]

/-- Bytes that are less than a header are rejected (R201). -/
theorem decodeMessage_of_short {bs : List Byte} (h6 : bs.length < 6) : decodeMessage bs = .error .messageShort := by
  unfold decodeMessage
  split
  · simp only [List.length_cons] at h6; omega
  · rfl

/-! ### The other rows -/

/-- A received byte decodes to a row whose length check the byte passes (R133 to R135). -/
theorem wf_decodeSerialByte (p : Port) (st : FdState) (free : Bool) (b : Byte) :
    (decodeSerialByte p st free b).wf = true := by
  cases st with
  | waitLength =>
    unfold decodeSerialByte
    cases hb : frameLengthOk b with
    | false => simp [Instr.wf, hb]
    | true => cases free <;> exact hb
  | _ => rfl

/-- A bare transaction decodes to its own row only. -/
theorem decodeBare_ok {i j : Instr} {bs : List Byte} (hd : decodeBare i bs = .ok j) : j = i := by
  cases bs with
  | nil => cases hd; rfl
  | cons b bs => cases hd

/-- A row that is no Message is read back from its carrier and bytes (R97, R105). -/
theorem decode_encode_of_not_message {i : Instr} (hw : i.wf = true) (hi : i.isMessage = false) :
    decode (encode i) = .ok i := by
  cases i
  case serRxWaitStart0 | serRxWaitStart1 | serRxReceiveData => rfl
  case serRxWaitLengthBad p b =>
    have hb : frameLengthOk b = false := by simpa [Instr.wf] using hw
    simp [decode, encode, decodeSerialByte, hb]
  case serRxWaitLengthNofree p b | serRxWaitLengthOk p b =>
    have hb : frameLengthOk b = true := hw
    simp [decode, encode, decodeSerialByte, hb]
  case serSend p m =>
    have hm : m.length ≤ 253 := of_decide_eq_true hw
    simp [decode, encode, hm]
  case radioSend m fbit =>
    have hm : 6 ≤ m.length ∧ m.length ≤ 253 := of_decide_eq_true hw
    simp [decode, encode, hm]
  case rfRx pkt => exact Machine.decode_radioIn hw
  case poll | mlRadio | rfTxDone | dispatch | tick | rst => rfl
  all_goals cases hi

/-! ### The obligations -/

/-- Settles O1, by the row of the opcode map for a Message and by the carrier for the other rows. -/
theorem decodeOfEncodeIsTheInstruction : Obligations.DecodeOfEncodeIsTheInstruction := by
  intro i hw
  rcases Instr.message_or_not hw with ⟨op, h, pl, hp, rfl⟩ | hi
  · rw [encode_instrOfOpcode]
    exact decode_encodeMessage hp
  · exact decode_encode_of_not_message hw hi

/-- Settles O2, by the carrier of the unit. -/
theorem decodedInstructionsAreWellFormed : Obligations.DecodedInstructionsAreWellFormed := by
  rintro ⟨c, bs⟩ i hd
  cases c
  case message =>
    obtain ⟨op, h, pl, hp, -, rfl⟩ := decodeMessage_ok hd
    exact wf_instrOfOpcode op h hp
  case serialIn p st free =>
    simp only [decode] at hd
    split at hd <;> cases hd
    exact wf_decodeSerialByte p st free _
  case serialOut p =>
    simp only [decode] at hd
    split at hd <;> cases hd
    exact decide_eq_true ‹_›
  case radioOut fbit =>
    simp only [decode] at hd
    split at hd <;> cases hd
    exact decide_eq_true ‹_›
  case radioIn =>
    cases bs with
    | nil => cases hd
    | cons l rest =>
      simp only [decode] at hd
      split at hd <;> cases hd
      simpa [Instr.wf]
  case mlPoll | mlRadio | txDone | mlDispatch | tick | rst =>
    obtain rfl := decodeBare_ok hd
    rfl

/-- Settles O3, from the bytes that the decoder read the row from. -/
theorem encodeOfDecodedMessageIsTheMessage : Obligations.EncodeOfDecodedMessageIsTheMessage := by
  intro bs i hd
  obtain ⟨op, h, pl, -, rfl, rfl⟩ := decodeMessage_ok hd
  exact encode_instrOfOpcode op h pl

/-- Settles O4: at 6 bytes or more the payload is what is left after the header, and 253 = 6 + 247. -/
theorem messagesDecodeExactlyAtLegalLengths : Obligations.MessagesDecodeExactlyAtLegalLengths := by
  intro bs
  refine ⟨fun ⟨h6, h253⟩ => ?_, decodeMessage_of_short, fun h253 => ?_⟩
  · obtain ⟨op, h, pl, rfl⟩ := exists_messageBytes h6
    rw [Machine.length_messageBytes] at h253
    exact ⟨_, decode_encodeMessage (decide_eq_true (by omega))⟩
  · obtain ⟨op, h, pl, rfl⟩ := exists_messageBytes (bs := bs) (by omega)
    rw [Machine.length_messageBytes] at h253
    exact decode_encodeMessage_of_not_fits (decide_eq_false (by omega))

/-- Settles O5: the words are closed, and the decoder is run on each. -/
theorem writtenWordsDecode : Obligations.WrittenWordsDecode := by
  unfold Obligations.WrittenWordsDecode
  decide

end Sys2Proof
end

section
/-! SUPPORT. O15: a whole frame on a serial port, the header and the payload, said as one update of the port. -/

namespace Sys2Proof.Machine

/-! ### A byte string written byte by byte -/

/-- The first cell of a byte string, then the cells of the rest. -/
theorem Memory.cellsOf_cons (a : Nat) (b : Byte) (bs : List Byte) :
    Memory.cellsOf a (b :: bs) = Memory.cellsOf a [b] ++ Memory.cellsOf (a + 1) bs := by
  simp only [Memory.cellsOf]
  split <;> rfl

theorem Memory.below_append (x y : Memory) (k : Nat) : Memory.below (x ++ y) k = x.below k ++ y.below k :=
  List.filter_append ..

theorem Memory.from_append (x y : Memory) (k : Nat) : Memory.from (x ++ y) k = x.from k ++ y.from k :=
  List.filter_append ..

/-- What lies below `a + 1` after a byte is written at `a`. -/
theorem Memory.below_writeBytes_singleton (m : Memory) (a : Nat) (b : Byte) :
    (m.writeBytes a [b]).below (a + 1) = m.below a ++ Memory.cellsOf a [b] := by
  have hbelow : (m.below a).below (a + 1) = m.below a :=
    List.filter_eq_self.mpr fun c hc => decide_eq_true (Nat.lt_succ_of_lt (Memory.mem_below.mp hc).2)
  have hcell : (Memory.cellsOf a [b]).below (a + 1) = Memory.cellsOf a [b] :=
    List.filter_eq_self.mpr fun c hc => decide_eq_true (Memory.mem_cellsOf hc).2.1
  have hfrom : (m.from (a + 1)).below (a + 1) = [] :=
    List.filter_eq_nil_iff.mpr fun c hc => by simpa using (Memory.mem_from.mp hc).2
  rw [Memory.writeBytes, Memory.below_append, Memory.below_append, List.length_singleton, hbelow, hcell, hfrom,
    List.append_nil]

/-- What lies above `a` after a byte is written at `a` is what lay there before. -/
theorem Memory.from_writeBytes_singleton (m : Memory) {a k : Nat} (b : Byte) (hk : a < k) :
    (m.writeBytes a [b]).from k = m.from k := by
  have hbelow : (m.below a).from k = [] :=
    List.filter_eq_nil_iff.mpr fun c hc => by simpa using Nat.lt_trans (Memory.mem_below.mp hc).2 hk
  have hcell : (Memory.cellsOf a [b]).from k = [] :=
    List.filter_eq_nil_iff.mpr fun c hc => by simpa using Nat.lt_of_lt_of_le (Memory.mem_cellsOf hc).2.1 hk
  have hfrom : (m.from (a + 1)).from k = m.from k := by
    simp only [Memory.from, List.filter_filter]
    exact List.filter_congr fun c _ => by simpa using fun hc => Nat.lt_of_lt_of_le hk hc
  rw [Memory.writeBytes, Memory.from_append, Memory.from_append, List.length_singleton, hbelow, hcell, hfrom]
  rfl

/-- Writing a byte and then the bytes after it is writing them all. -/
theorem Memory.writeBytes_cons (m : Memory) (a : Nat) (b : Byte) (bs : List Byte) :
    (m.writeBytes a [b]).writeBytes (a + 1) bs = m.writeBytes a (b :: bs) := by
  have hend : a + (b :: bs).length = a + 1 + bs.length := by rw [List.length_cons]; omega
  rw [Memory.writeBytes, Memory.below_writeBytes_singleton, Memory.from_writeBytes_singleton _ _ (by omega),
    Memory.writeBytes, Memory.cellsOf_cons a b bs, hend, List.append_assoc (m.below a)]

/-! ### The port after the header and after the payload -/

/-- The port after the length byte `n` of a frame that goes to slot `k` (R135). -/
def SerialPort.startFrame (q : SerialPort) (k : Nat) (n : Byte) : SerialPort :=
  { q.updateSlot k (fun sl => { sl with status := .filling }) with
    fdSlot := k, fdLen := n, fdOff := 0, fdState := .receiveData }

/-- The port after the bytes `bs` that complete a frame (R136). -/
def SerialPort.receiveRest (q : SerialPort) (bs : List Byte) : SerialPort :=
  { q.updateSlot q.fdSlot (fun sl =>
      { status := .ready, len := q.fdLen, data := sl.data.writeBytes q.fdOff.toNat bs }) with
    fdOff := q.fdOff + BitVec.ofNat 8 bs.length, rxFrames := bump q.rxFrames, fdState := .waitStart0 }

@[simp] theorem SerialPort.storeByte_fdState (q : SerialPort) (b : Byte) : (q.storeByte b).fdState = q.fdState := rfl
@[simp] theorem SerialPort.storeByte_fdLen (q : SerialPort) (b : Byte) : (q.storeByte b).fdLen = q.fdLen := rfl
@[simp] theorem SerialPort.storeByte_fdOff (q : SerialPort) (b : Byte) : (q.storeByte b).fdOff = q.fdOff + 1 := rfl

/-- The last byte completes the frame. -/
theorem SerialPort.completeFrame_eq_receiveRest (q : SerialPort) (b : Byte) :
    q.completeFrame b = q.receiveRest [b] := by
  simp only [completeFrame, storeByte, receiveRest, updateSlot, List.modify_modify_eq]
  rfl

/-- A byte that does not complete the frame, and then the bytes that do. -/
theorem SerialPort.receiveRest_storeByte (q : SerialPort) {b : Byte} {bs : List Byte}
    (h : (q.fdOff + 1).toNat = q.fdOff.toNat + 1) :
    (q.storeByte b).receiveRest bs = q.receiveRest (b :: bs) := by
  have hoff : q.fdOff + 1 + BitVec.ofNat 8 bs.length = q.fdOff + BitVec.ofNat 8 (b :: bs).length := by
    rw [BitVec.add_assoc, List.length_cons, Nat.add_comm bs.length, BitVec.ofNat_add]
    rfl
  simp only [receiveRest, storeByte, updateSlot, List.modify_modify_eq, h, hoff, Function.comp_def,
    Memory.writeBytes_cons]

@[simp] theorem SerialPort.startFrame_fdState (q : SerialPort) (k : Nat) (n : Byte) :
    (q.startFrame k n).fdState = .receiveData := rfl
@[simp] theorem SerialPort.startFrame_fdLen (q : SerialPort) (k : Nat) (n : Byte) : (q.startFrame k n).fdLen = n := rfl
@[simp] theorem SerialPort.startFrame_fdOff (q : SerialPort) (k : Nat) (n : Byte) : (q.startFrame k n).fdOff = 0 := rfl

/-- The selected slot, once its frame is complete. -/
theorem SerialPort.receiveRest_self {q : SerialPort} {bs : List Byte} {sl : Slot} (h : q.slots[q.fdSlot]? = some sl) :
    (q.receiveRest bs).slots[q.fdSlot]? =
      some { status := .ready, len := q.fdLen, data := sl.data.writeBytes q.fdOff.toNat bs } :=
  SerialPort.updateSlot_self h

/-- The slot that a whole frame went to. -/
theorem SerialPort.receiveRest_startFrame_self {q : SerialPort} {k : Nat} {n : Byte} {bs : List Byte} {sl : Slot}
    (h : q.slots[k]? = some sl) :
    ((q.startFrame k n).receiveRest bs).slots[k]? =
      some { status := .ready, len := n, data := sl.data.writeBytes 0 bs } := by
  have hfilling : (q.startFrame k n).slots[k]? = some { sl with status := .filling } := SerialPort.updateSlot_self h
  exact (SerialPort.receiveRest_self hfilling :)

/-- A whole frame leaves every other slot alone. -/
theorem SerialPort.receiveRest_startFrame_of_ne {q : SerialPort} {j k : Nat} {n : Byte} {bs : List Byte} (h : j ≠ k) :
    ((q.startFrame k n).receiveRest bs).slots[j]? = q.slots[j]? :=
  (SerialPort.updateSlot_of_ne h).trans (SerialPort.updateSlot_of_ne h)

/-! ### The bytes of a frame -/

/-- R136: the bytes up to the announced length, whatever their values, complete the frame. -/
theorem feedBytes_receiveData {p : Port} {bs : List Byte} {s : State} (hs : (s.port p).fdState = .receiveData)
    (hne : bs ≠ []) (hlen : (s.port p).fdOff.toNat + bs.length = (s.port p).fdLen.toNat) :
    feedBytes p bs s = some (s.setPort p ((s.port p).receiveRest bs)) := by
  induction bs generalizing s with
  | nil => exact absurd rfl hne
  | cons b bs ih =>
    rw [feedBytes, feedByte_receiveData hs, Option.bind_some]
    cases bs with
    | nil => rw [if_pos (by simpa using hlen), SerialPort.completeFrame_eq_receiveRest, feedBytes]
    | cons c bs =>
      simp only [List.length_cons] at hlen
      have hlt := (s.port p).fdLen.isLt
      have hoff : ((s.port p).fdOff + 1).toNat = (s.port p).fdOff.toNat + 1 := by bv_omega
      have hnext : ((s.port p).storeByte b).fdOff.toNat + (c :: bs).length = ((s.port p).storeByte b).fdLen.toNat := by
        rw [SerialPort.storeByte_fdOff, SerialPort.storeByte_fdLen, hoff, List.length_cons]
        omega
      rw [if_neg (by omega), ih (by simpa using hs) (by simp) (by simpa using hnext), State.setPort_port_same,
        State.setPort_setPort, SerialPort.receiveRest_storeByte _ hoff]

/-- R131, R132, R135: the markers and a legal length start a frame in the lowest Free slot. -/
theorem feedBytes_header {p : Port} {n : Byte} {s : State} {k : Nat} (bs : List Byte)
    (hs : (s.port p).fdState = .waitStart0) (hn : frameLengthOk n = true)
    (hk : (s.port p).firstSlot .free = some k) :
    feedBytes p ([marker0, marker1, n] ++ bs) s = feedBytes p bs (s.setPort p ((s.port p).startFrame k n)) := by
  have h0 : feedByte p marker0 s = some (s.setPort p { s.port p with fdState := .waitStart1 }) := by
    rw [feedByte_waitStart0 hs, if_pos rfl]
  have h1 : feedByte p marker1 (s.setPort p { s.port p with fdState := .waitStart1 }) =
      some (s.setPort p { s.port p with fdState := .waitLength }) := by
    rw [feedByte_waitStart1 (by simp), if_pos rfl, State.setPort_port_same, State.setPort_setPort]
  have h2 : feedByte p n (s.setPort p { s.port p with fdState := .waitLength }) =
      some (s.setPort p ((s.port p).startFrame k n)) := by
    rw [feedByte_waitLength_ok (by simp) hn (by rw [State.setPort_port_same]; exact hk),
      State.setPort_port_same, State.setPort_setPort]
    rfl
  simp only [List.cons_append, List.nil_append, feedBytes, h0, h1, h2, Option.bind_some]

/-- The length byte of a frame of at most 251 bytes holds its length (R91). -/
theorem toNat_lengthByte {pl : List Byte} (h : pl.length ≤ 251) : (BitVec.ofNat 8 pl.length).toNat = pl.length := by
  rw [BitVec.toNat_ofNat]
  exact Nat.mod_eq_of_lt (by omega)

/-- A whole frame in one update of the port (R131 to R136). -/
theorem feedBytes_serialFrame {p : Port} {pl : List Byte} {s : State} {k : Nat} (h1 : 1 ≤ pl.length)
    (h251 : pl.length ≤ 251) (hs : (s.port p).fdState = .waitStart0) (hk : (s.port p).firstSlot .free = some k) :
    feedBytes p (serialFrame pl) s =
      some (s.setPort p (((s.port p).startFrame k (BitVec.ofNat 8 pl.length)).receiveRest pl)) := by
  have hlen := toNat_lengthByte h251
  have hok : frameLengthOk (BitVec.ofNat 8 pl.length) = true := decide_eq_true (by omega)
  rw [serialFrame, feedBytes_header pl hs hok hk, feedBytes_receiveData (by simp)
    (List.length_pos_iff.mp h1) (by simpa using hlen.symm), State.setPort_port_same, State.setPort_setPort]

/-! ### The obligation -/

/-- Settles O15, from the header, which selects the slot, and the payload, which fills it. -/
theorem framedPayloadIsReceivedWhole : Obligations.FramedPayloadIsReceivedWhole := by
  intro p pl s k sl h1 h251 hs hsl hfree hlow
  have hfeed := feedBytes_serialFrame h1 h251 hs (SerialPort.firstSlot_eq_some hsl hfree hlow)
  refine ⟨_, { status := .ready, len := BitVec.ofNat 8 pl.length, data := sl.data.writeBytes 0 pl }, hfeed,
    by rw [State.setPort_port_same], ?_⟩
  rw [State.setPort_port_same]
  exact ⟨rfl, rfl, SerialPort.receiveRest_startFrame_self hsl, rfl, toNat_lengthByte h251,
    Memory.readBytes_writeBytes_same sl.data 0 pl, fun _ hj => SerialPort.receiveRest_startFrame_of_ne hj⟩

end Sys2Proof.Machine
end

section
/-! SUPPORT. O9 to O14, O16, O17: each row of the decoder from what `feedByte` does in its state, and runs of bytes by
induction (R130 to R136). -/

namespace Sys2Proof.Machine

/-! ### A row, from the byte that selects it -/

/-- A byte that is received has run the row its decoder's state selects. -/
theorem exec_of_feedByte {p : Port} {b : Byte} {s t : State} (h : feedByte p b s = some t) :
    exec (decodeSerialByte p (s.port p).fdState (s.port p).hasFree b) s = .next t := by
  unfold feedByte at h
  split at h
  · cases h; assumption
  · cases h

theorem decodeSerialByte_waitLength_bad (p : Port) (free : Bool) {b : Byte} (hb : frameLengthOk b = false) :
    decodeSerialByte p .waitLength free b = .serRxWaitLengthBad p b := by
  simp [decodeSerialByte, hb]

theorem decodeSerialByte_waitLength_ok (p : Port) (free : Bool) {b : Byte} (hb : frameLengthOk b = true) :
    decodeSerialByte p .waitLength free b =
      if free then .serRxWaitLengthOk p b else .serRxWaitLengthNofree p b := by
  simp [decodeSerialByte, hb]

theorem SerialPort.hasFree_of_some {q : SerialPort} {k : Nat} (h : q.firstSlot .free = some k) : q.hasFree = true := by
  simp [SerialPort.hasFree, h]

theorem SerialPort.hasFree_of_none {q : SerialPort} (h : q.firstSlot .free = none) : q.hasFree = false := by
  simp [SerialPort.hasFree, h]

@[simp] theorem State.raiseEvent_port (s : State) (e : Event) (p : Port) : (s.raiseEvent e).port p = s.port p := by
  cases p <;> rfl

/-- A port written and an event raised. -/
theorem State.setPort_raiseEvent (s : State) (p : Port) (v : SerialPort) (e : Event) :
    (s.setPort p v).raiseEvent e = { s.setPort p v with events := s.events ++ [e] } := by cases p <;> rfl

/-! ### The rows before the payload (R131 to R135) -/

/-- Settles O9, from what a byte does in `WaitStart0`. -/
theorem waitStart0AdvancesOnMarker0Only : Obligations.WaitStart0AdvancesOnMarker0Only := by
  intro p b s hs
  have h := exec_of_feedByte (b := b) (feedByte_waitStart0 hs)
  rwa [hs] at h

/-- Settles O10, by the two markers. -/
theorem waitStart1LeavesOnMarker1Only : Obligations.WaitStart1LeavesOnMarker1Only := by
  intro p b s hs
  have h := exec_of_feedByte (b := b) (feedByte_waitStart1 hs)
  rw [hs] at h
  rw [show exec (.serRxWaitStart1 p b) s = _ from h, apply_ite Host.Outcome.next, apply_ite Host.Outcome.next]
  rfl

/-- Settles O11: each of these lengths fails the range check. -/
theorem badLengthReturnsToWaitStart1 : Obligations.BadLengthReturnsToWaitStart1 := by
  intro p b s hs hb
  have hbad : frameLengthOk b = false := decide_eq_false (by omega)
  have h := exec_of_feedByte (feedByte_waitLength_bad hs hbad)
  rw [hs, decodeSerialByte_waitLength_bad p _ hbad, State.setPort_raiseEvent] at h
  exact h

/-- Settles O12: with no Free slot the scan finds none. -/
theorem noFreeSlotDropsTheFrame : Obligations.NoFreeSlotDropsTheFrame := by
  intro p b s hs h1 h251 hnone
  have hok : frameLengthOk b = true := decide_eq_true ⟨h1, h251⟩
  have hscan : (s.port p).firstSlot .free = none := SerialPort.firstSlot_none.2 hnone
  have h := exec_of_feedByte (feedByte_waitLength_nofree hs hok hscan)
  rw [hs, decodeSerialByte_waitLength_ok p _ hok, SerialPort.hasFree_of_none hscan, State.setPort_raiseEvent] at h
  exact h

/-- Settles O13: the scan finds the lowest Free slot, and only that slot is updated. -/
theorem lowestFreeSlotIsSelected : Obligations.LowestFreeSlotIsSelected := by
  intro p b s k sl hs h1 h251 hsl hfree hlow
  have hok : frameLengthOk b = true := decide_eq_true ⟨h1, h251⟩
  have hscan : (s.port p).firstSlot .free = some k := SerialPort.firstSlot_eq_some hsl hfree hlow
  have h := exec_of_feedByte (feedByte_waitLength_ok hs hok hscan)
  rw [hs, decodeSerialByte_waitLength_ok p _ hok, SerialPort.hasFree_of_some hscan] at h
  refine ⟨_, h, by rw [State.setPort_port_same], ?_⟩
  rw [State.setPort_port_same]
  exact ⟨rfl, rfl, rfl, rfl, rfl, SerialPort.updateSlot_self hsl, fun _ hj => SerialPort.updateSlot_of_ne hj⟩

/-! ### A payload byte (R136) -/

/-- A byte written into a buffer is read back, and every other byte reads as before. -/
theorem Memory.byteAt_writeBytes_singleton (m : Memory) (a : Nat) (b : Byte) :
    (m.writeBytes a [b]).byteAt a = b ∧ ∀ k, k ≠ a → (m.writeBytes a [b]).byteAt k = m.byteAt k := by
  refine ⟨?_, fun k hk => Memory.byteAt_writeBytes_of_not_mem ?_⟩
  · simp [Memory.byteAt_writeBytes]
  · rw [List.length_singleton]; omega

/-- The selected slot after a byte that does not complete the frame. -/
theorem SerialPort.storeByte_self {q : SerialPort} {b : Byte} {sl : Slot} (h : q.slots[q.fdSlot]? = some sl) :
    (q.storeByte b).slots[q.fdSlot]? = some { sl with data := sl.data.writeBytes q.fdOff.toNat [b] } :=
  SerialPort.updateSlot_self h

/-- Settles O14, by whether the byte brings the offset to the length. -/
theorem receiveDataAppendsAndCompletes : Obligations.ReceiveDataAppendsAndCompletes := by
  intro p b s sl hs hsl
  have h := exec_of_feedByte (b := b) (feedByte_receiveData hs)
  rw [hs] at h
  obtain ⟨hsame, hother⟩ := Memory.byteAt_writeBytes_singleton sl.data (s.port p).fdOff.toNat b
  by_cases hlast : (s.port p).fdOff.toNat + 1 = (s.port p).fdLen.toNat
  · rw [if_pos hlast, SerialPort.completeFrame_eq_receiveRest] at h
    refine ⟨_,
      { status := .ready, len := (s.port p).fdLen, data := sl.data.writeBytes (s.port p).fdOff.toNat [b] }, h,
      by rw [State.setPort_port_same], ?_⟩
    rw [State.setPort_port_same, if_pos hlast]
    exact ⟨rfl, rfl, rfl, fun _ hj => SerialPort.updateSlot_of_ne hj, SerialPort.receiveRest_self hsl, hsame, hother,
      rfl, rfl, rfl, rfl⟩
  · rw [if_neg hlast] at h
    refine ⟨_, { sl with data := sl.data.writeBytes (s.port p).fdOff.toNat [b] }, h,
      by rw [State.setPort_port_same], ?_⟩
    rw [State.setPort_port_same, if_neg hlast]
    exact ⟨rfl, rfl, rfl, fun _ hj => SerialPort.updateSlot_of_ne hj, SerialPort.storeByte_self hsl, hsame, hother,
      rfl, rfl, rfl, hs⟩

/-! ### Runs of bytes -/

/-- Settles O16, by induction on the bytes: each leaves the decoder in `WaitStart1` for the next. -/
theorem waitStart1IsSticky : Obligations.WaitStart1IsSticky := by
  intro p bs
  induction bs with
  | nil => intro s _ _; simp [feedBytes]
  | cons b bs ih =>
    intro s hs hne
    obtain ⟨hb, hbs⟩ := List.forall_mem_cons.1 hne
    rw [feedBytes, feedByte_waitStart1 hs, if_neg (show ¬b = marker1 from hb), Option.bind_some]
    by_cases h0 : b = marker0
    · rw [if_pos h0, ih s hs hbs, List.filter_cons_of_neg (by simp [h0, marker0])]
    · rw [if_neg h0, ih _ (by rwa [State.raiseEvent_port]) hbs,
        List.filter_cons_of_pos (by simpa [marker0] using h0)]
      simp [State.raiseEvent]

/-- The bytes of a line touch nothing but their own port and the record of events (R130). -/
theorem feedBytes_frame {p : Port} {bs : List Byte} {s t : State} (h : feedBytes p bs s = some t) :
    ∃ q ev, t = { s.setPort p q with events := ev } := by
  induction bs generalizing s with
  | nil =>
    obtain rfl := Option.some.inj h
    exact ⟨s.port p, s.events, by rw [← State.setPort_withEvents, State.setPort_self]⟩
  | cons b bs ih =>
    obtain ⟨q, ev, hb⟩ := feedByte_frame p b s
    rw [feedBytes, hb, Option.bind_some] at h
    obtain ⟨q', ev', rfl⟩ := ih h
    exact ⟨q', ev', by cases p <;> rfl⟩

/-- Settles O17, from what the bytes of a line touch. -/
theorem portsShareNoState : Obligations.PortsShareNoState := by
  intro p r bs s t h hr
  obtain ⟨q, ev, rfl⟩ := feedBytes_frame h
  have hport (x : Port) : ({ s.setPort p q with events := ev } : State).port x = (s.setPort p q).port x := by
    cases x <;> rfl
  exact ⟨(hport r).trans (State.setPort_port_ne s q hr), by rw [hport, State.setPort_port_same]⟩

end Sys2Proof.Machine
end

section
/-! SUPPORT. O18 to O20: a service of ML that is taken, one that is not, and the serial send (R138 to R141, R162). -/

namespace Sys2Proof.Machine

/-! ### Poll (R138, R139) -/

theorem execPoll_of_busy {p : Port} {s : State} (h : s.ml ≠ .idle) : execPoll p s = .next s := by
  unfold execPoll
  split
  · exact absurd ‹_› h
  · rfl

theorem execPoll_of_none {p : Port} {s : State} (h : (s.port p).firstSlot .ready = none) :
    execPoll p s = .next s := by
  unfold execPoll
  split
  · simp only [h]
  · rfl

theorem execPoll_of_ready {p : Port} {s : State} {k : Nat} (hm : s.ml = .idle)
    (hk : (s.port p).firstSlot .ready = some k) :
    execPoll p s = .next ((s.setPort p ((s.port p).updateSlot k (fun sl => { sl with status := .free }))).takeMessage
      ((s.port p).frameOf k) (transportOf p) false) := by
  simp only [execPoll, hm, hk]

theorem SerialPort.frameOf_eq {q : SerialPort} {k : Nat} {sl : Slot} (h : q.slots[k]? = some sl) :
    q.frameOf k = sl.data.readBytes 0 sl.len.toNat := by
  simp only [SerialPort.frameOf, h]

@[simp] theorem State.takeMessage_port (s : State) (d : List Byte) (src : Transport) (fbit : Bool) (p : Port) :
    (s.takeMessage d src fbit).port p = s.port p := by cases p <;> rfl

/-- A Message that fits the length register is held whole (R33). -/
theorem State.takeMessage_msgBytes (s : State) {d : List Byte} (src : Transport) (fbit : Bool) (h : d.length < 256) :
    (s.takeMessage d src fbit).msgBytes = d := by
  have hlen : (BitVec.ofNat 8 d.length).toNat = d.length := by
    rw [BitVec.toNat_ofNat]; exact Nat.mod_eq_of_lt h
  rw [State.msgBytes, State.takeMessage_msgLen, hlen]
  exact Memory.readBytes_writeBytes_same s.msg 0 d

/-- Settles O18: the scan finds the lowest Ready slot, whose frame is taken and whose status alone is written. -/
theorem pollTakesTheLowestReadySlot : Obligations.PollTakesTheLowestReadySlot := by
  intro p s k sl hm hsl hready hlow
  have hscan : (s.port p).firstSlot .ready = some k := SerialPort.firstSlot_eq_some hsl hready hlow
  have hlen : (sl.data.readBytes 0 sl.len.toNat).length = sl.len.toNat := Memory.length_readBytes ..
  refine ⟨_, execPoll_of_ready hm hscan, ?_⟩
  rw [SerialPort.frameOf_eq hsl, State.takeMessage_port, State.setPort_port_same]
  refine ⟨State.takeMessage_msgBytes _ _ _ (by rw [hlen]; exact sl.len.isLt), ?msgLen, ?msgSrc, rfl, rfl, ?msgRest,
    SerialPort.updateSlot_self hsl, fun _ hj => SerialPort.updateSlot_of_ne hj, rfl, rfl⟩
  case msgLen => rw [State.takeMessage_msgLen, hlen, BitVec.ofNat_toNat, BitVec.setWidth_eq]
  case msgSrc => cases p <;> rfl
  case msgRest =>
    intro a ha
    rw [State.takeMessage_msg, State.setPort_msg]
    exact Memory.byteAt_writeBytes_of_not_mem (.inr (by omega))

/-! ### Services that are not enabled -/

theorem execMlRadio_of_not_enabled {s : State} (h : s.radioEnabled = false) : execMlRadio s = .next s := by
  simp [execMlRadio, h]

/-- Settles O19, by what keeps the service from being taken. -/
theorem servicesNotEnabledDoNothing : Obligations.ServicesNotEnabledDoNothing := by
  refine ⟨fun p s h => ?poll, fun s h => execMlRadio_of_not_enabled ?radio⟩
  case poll =>
    rcases h with hm | hnone
    · exact execPoll_of_busy hm
    · exact execPoll_of_none (SerialPort.firstSlot_none.2 hnone)
  case radio => rcases h with h | h | h <;> simp [State.radioEnabled, h]

/-! ### The serial send (R140, R141) -/

/-- Settles O20, by the length; the service ends either way. -/
theorem serialSendEmitsOneFrame : Obligations.SerialSendEmitsOneFrame := by
  intro p m s
  show execSerSend p m s = _
  unfold execSerSend
  by_cases hm : 1 ≤ m.length ∧ m.length ≤ 251
  · rw [if_neg (by omega), if_pos hm, State.endService, State.endPhase_eq]
    rfl
  · rw [if_pos (by omega), if_neg hm, State.endService, State.endPhase_eq]
    rfl

end Sys2Proof.Machine
end

section
/-! SUPPORT. O60: each unit that a step can be presented with decodes, and its instruction goes on. -/

namespace Sys2Proof.Machine

/-! ### Going on -/

/-- An instruction that goes on: no fault, no refusal. -/
def GoesOn (o : Host.Outcome State Fault Refusal) : Prop := ∃ t, o = .next t

theorem GoesOn.next (t : State) : GoesOn (.next t) := ⟨t, rfl⟩

/-- What bounds the payload of every reply (R206): a legal configuration (R345), the contract of `EXT` (R256) and
what the handlers keep. -/
structure RepliesFit (s : State) : Prop where
  config : configLegal s.cfg = true
  ext : extContract s.cfg
  handlers : handlersOk s

theorem RepliesFit.kept {s t : State} (h : RepliesFit s) (k : Kept s t) : RepliesFit t :=
  ⟨by rw [k.cfg]; exact h.config, by rw [k.cfg]; exact h.ext, k.handlers h.handlers⟩

theorem RepliesFit.callsignLen_le {s : State} (h : RepliesFit s) : s.callsignLen ≤ 247 := h.handlers.1

theorem RepliesFit.timeBytes_le {s : State} (h : RepliesFit s) (ht : s.timeSet = true) : s.cfg.timeBytes ≤ 247 :=
  h.handlers.2.2 ht

/-- The snapshot of a legal configuration fits a reply, whatever its layout (R288, R345). -/
theorem length_telemetry_le {s : State} (h : configLegal s.cfg = true) : s.telemetry.length ≤ 247 := by
  simp only [configLegal, Bool.and_eq_true, decide_eq_true_eq] at h
  obtain ⟨⟨⟨-, hbound⟩, hlegal⟩, -⟩ := h
  unfold telemLegal at hlegal
  unfold State.telemetry
  split
  case h_1 => rw [List.length_map, List.length_range]; exact hbound
  case h_2 bs hbs =>
    rw [hbs] at hlegal
    simp only [beq_iff_eq] at hlegal
    omega

/-! ### The shapes of local delivery -/

theorem goesOn_replyWith {op : Byte} {pl : List Byte} {s : State} (h : pl.length ≤ 247) :
    GoesOn (replyWith op pl s) := ⟨_, replyWith_eq h⟩

/-- R237: the only reply whose length a rule does not bound is the one of `EXT`. -/
theorem goesOn_unmatched (op : Byte) (hd : Header) (pl : List Byte) {s : State} (h : extContract s.cfg) :
    GoesOn (unmatched op hd pl s) := by
  unfold unmatched
  split
  · exact .next _
  · dsimp only
    split
    · exact .next _
    · exact .next _
    · exact goesOn_replyWith (h _ _ _ _ ‹_›)

theorem goesOn_deliverUnmatched (op : Byte) (hd : Header) (pl : List Byte) {s : State} (h : RepliesFit s) :
    GoesOn (deliverUnmatched op hd pl s) := goesOn_unmatched op hd pl h.ext

section
variable {op : Byte} {hd : Header} {pl : List Byte} {handler : State → Host.Outcome State Fault Refusal} {s : State}

theorem goesOn_deliverBootloader (h : RepliesFit s) (g : ∀ u, GoesOn (handler u)) :
    GoesOn (deliverBootloader op hd pl handler s) := by
  unfold deliverBootloader
  split
  · exact g _
  · exact goesOn_unmatched op hd pl h.ext

theorem goesOn_deliverBlocking {v : Variant} (h : RepliesFit s) (g : ∀ u, GoesOn (handler u)) :
    GoesOn (deliverBlocking v op hd pl handler s) := by
  unfold deliverBlocking
  split
  · exact g _
  · exact goesOn_unmatched op hd pl h.ext

theorem goesOn_deliverApplication (h : RepliesFit s) (g : ∀ u, RepliesFit u → GoesOn (handler u)) :
    GoesOn (deliverApplication op hd pl handler s) := by
  unfold deliverApplication
  split
  · exact goesOn_unmatched op hd pl h.ext
  · exact g _ (h.kept ((Kept.replyInit s hd).trans (Kept.recognize _)))

end

theorem goesOn_commonInbound (hd : Header) (s : State) : GoesOn (commonInbound hd s) := by
  unfold commonInbound
  split <;> exact .next _

/-! ### The handlers -/

theorem goesOn_writePageDone (pl : List Byte) (s : State) : GoesOn (writePageDone pl s) := by
  unfold writePageDone
  dsimp only
  split <;> exact .next _

theorem goesOn_writePageStart (pl : List Byte) (s : State) : GoesOn (writePageStart pl s) := by
  unfold writePageStart
  split
  · exact .next _
  · split
    · exact .next _
    · exact goesOn_writePageDone pl s

theorem goesOn_execWritePage (hd : Header) (pl : List Byte) {s : State} (h : RepliesFit s) :
    GoesOn (execWritePage hd pl s) := by
  unfold execWritePage
  split
  · exact goesOn_writePageDone pl s
  · exact goesOn_deliverBlocking h fun u => goesOn_writePageStart pl _

theorem goesOn_eraseNext (p : Nat) (s : State) : GoesOn (eraseNext p s) := by
  unfold eraseNext
  split <;> exact .next _

theorem goesOn_execErase (hd : Header) (pl : List Byte) {s : State} (h : RepliesFit s) :
    GoesOn (execErase hd pl s) := by
  unfold execErase
  split
  · exact goesOn_eraseNext _ s
  · exact goesOn_deliverBlocking h fun _ => .next _

theorem goesOn_execRanging (hd : Header) (pl : List Byte) {s : State} (h : RepliesFit s) :
    GoesOn (execRanging hd pl s) := by
  unfold execRanging
  split
  · exact .next _
  · exact goesOn_deliverBlocking h fun _ => .next _

theorem goesOn_postponeHandler (pl : List Byte) (s : State) : GoesOn (postponeHandler pl s) := by
  unfold postponeHandler
  split
  · exact .next _
  · dsimp only
    split <;> exact .next _

theorem goesOn_getTimeHandler {s : State} (h : RepliesFit s) : GoesOn (getTimeHandler s) := by
  unfold getTimeHandler
  split
  · exact goesOn_replyWith (by rw [Memory.length_readBytes]; exact h.timeBytes_le ‹_›)
  · exact .next _

theorem goesOn_setTimeHandler (pl : List Byte) (s : State) : GoesOn (setTimeHandler pl s) := by
  unfold setTimeHandler
  split <;> exact .next _

theorem goesOn_getTelemHandler {s : State} (h : RepliesFit s) : GoesOn (getTelemHandler s) :=
  goesOn_replyWith (length_telemetry_le h.config)

theorem goesOn_getCallsignHandler {s : State} (h : RepliesFit s) : GoesOn (getCallsignHandler s) :=
  goesOn_replyWith (by rw [Memory.length_readBytes]; exact h.callsignLen_le)

theorem goesOn_setCallsignHandler (pl : List Byte) (s : State) : GoesOn (setCallsignHandler pl s) := by
  unfold setCallsignHandler
  split <;> exact .next _

/-- Every opcode: its local delivery goes on. -/
theorem exec_goesOn_of_message (op : Byte) (hd : Header) (pl : List Byte) {s : State} (h : RepliesFit s) :
    GoesOn (exec (instrOfOpcode op hd pl) s) := by
  apply instrOfOpcode_cases (motive := fun _ i => GoesOn (exec i s)) op hd pl
  case ping => exact goesOn_deliverBootloader h fun _ => .next _
  case writePage => exact goesOn_execWritePage hd pl h
  case erase => exact goesOn_execErase hd pl h
  case ack | ascii | nack => exact goesOn_commonInbound hd s
  case reboot => exact fun _ => goesOn_deliverApplication h fun _ _ => .next _
  case rebootPostpone => exact fun _ => goesOn_deliverApplication h fun u _ => goesOn_postponeHandler pl u
  case getTime => exact goesOn_deliverApplication h fun _ => goesOn_getTimeHandler
  case setTime => exact goesOn_deliverApplication h fun u _ => goesOn_setTimeHandler pl u
  case ranging => exact goesOn_execRanging hd pl h
  case getTelem => exact goesOn_deliverApplication h fun _ => goesOn_getTelemHandler
  case getCallsign => exact goesOn_deliverApplication h fun _ => goesOn_getCallsignHandler
  case setCallsign => exact goesOn_deliverApplication h fun u _ => goesOn_setCallsignHandler pl u
  case bootloaderAck | bootloaderNack | rangingAck | telem | callsign => exact goesOn_deliverUnmatched _ hd pl h
  case unassigned => exact fun _ => goesOn_deliverUnmatched op hd pl h

/-! ### The other instructions -/

theorem goesOn_execDispatch (s : State) : GoesOn (execDispatch s) := by
  unfold execDispatch
  split
  · exact .next _
  · split
    · exact .next _
    · split <;> exact .next _

theorem goesOn_execPoll (p : Port) (s : State) : GoesOn (execPoll p s) := by
  unfold execPoll
  split
  · dsimp only
    split <;> exact .next _
  · exact .next _

theorem goesOn_execSerSend (p : Port) (m : List Byte) (s : State) : GoesOn (execSerSend p m s) := by
  unfold execSerSend
  split <;> exact .next _

theorem goesOn_execRadioSend (m : List Byte) (fbit : Bool) (s : State) : GoesOn (execRadioSend m fbit s) := by
  unfold execRadioSend
  split <;> exact .next _

theorem goesOn_execRfRx (pkt : List Byte) (s : State) : GoesOn (execRfRx pkt s) := by
  unfold execRfRx
  split <;> exact .next _

theorem goesOn_execMlRadio (s : State) : GoesOn (execMlRadio s) := by
  unfold execMlRadio
  split
  · dsimp only
    split
    · exact .next _
    · split <;> exact .next _
  · exact .next _

/-- R178: the end of a transmission that is in flight. -/
theorem goesOn_execRfTxDone {s : State} (h : s.txBusy = true) : GoesOn (execRfTxDone s) := by
  simp only [execRfTxDone, h, if_true]
  exact .next _

/-! ### The units -/

/-- A unit that decodes to an instruction that goes on from `s`. -/
def UnitGoesOn (u : WireUnit) (s : State) : Prop := ∃ i, decode u = .ok i ∧ GoesOn (exec i s)

/-- R137: every received byte goes on. -/
theorem unitGoesOn_serialIn (p : Port) (b : Byte) (s : State) :
    UnitGoesOn ⟨.serialIn p (s.port p).fdState (s.port p).hasFree, [b]⟩ s := by
  obtain ⟨q, ev, hb⟩ := feedByte_frame p b s
  exact ⟨_, rfl, _, exec_of_feedByte hb⟩

/-- A Message of a legal length in `msg`, handed to its handler (R204). -/
theorem unitGoesOn_message {s t : State} (h : RepliesFit t) (h6 : 6 ≤ s.msgLen.toNat)
    (h253 : s.msgLen.toNat ≤ 253) :
    UnitGoesOn ⟨.message, s.msgBytes⟩ t :=
  ⟨_, decode_msgBytes h6 h253, exec_goesOn_of_message _ _ _ h⟩

theorem unitGoesOn_serialOut (p : Port) {m : List Byte} (h253 : m.length ≤ 253) (s : State) :
    UnitGoesOn ⟨.serialOut p, m⟩ s :=
  ⟨_, decode_encode_of_not_message (i := .serSend p m) (decide_eq_true h253) rfl, goesOn_execSerSend p m s⟩

theorem unitGoesOn_radioOut (fbit : Bool) {m : List Byte} (h6 : 6 ≤ m.length) (h253 : m.length ≤ 253) (s : State) :
    UnitGoesOn ⟨.radioOut fbit, m⟩ s :=
  ⟨_, decode_encode_of_not_message (i := .radioSend m fbit) (decide_eq_true ⟨h6, h253⟩) rfl,
    goesOn_execRadioSend m fbit s⟩

/-- The reply's send, on any transport (R207). -/
theorem unitGoesOn_replyUnit {s : State} (h6 : 6 ≤ s.replyLen.toNat) (h253 : s.replyLen.toNat ≤ 253) (t : State) :
    UnitGoesOn s.replyUnit t := by
  have hlen : s.replyBytes.length = s.replyLen.toNat := Memory.length_readBytes ..
  unfold State.replyUnit
  cases s.msgSrc with
  | s0 | s1 => exact unitGoesOn_serialOut _ (by omega) t
  | r => exact unitGoesOn_radioOut _ (by omega) (by omega) t

/-- The forward's send, from any transport (R208). -/
theorem unitGoesOn_forwardUnit {s : State} (h6 : 6 ≤ s.msgLen.toNat) (h253 : s.msgLen.toNat ≤ 253) (t : State) :
    UnitGoesOn s.forwardUnit t := by
  have hlen : s.msgBytes.length = s.msgLen.toNat := Memory.length_readBytes ..
  unfold State.forwardUnit
  cases s.msgSrc with
  | s0 | s1 => exact unitGoesOn_radioOut _ (by omega) (by omega) t
  | r => exact unitGoesOn_serialOut _ (by omega) t

/-! ### The step -/

theorem MachineInv.repliesFit {s : State} (h : MachineInv s) (he : extContract s.cfg) : RepliesFit s := by
  obtain ⟨hc, -, -, -, -, hh⟩ := h
  exact ⟨hc, he, hh⟩

/-- ML's next step in the service in progress: its phase promises a length that its unit may have. -/
theorem MachineInv.mlUnit_goesOn {s : State} {u : WireUnit} (h : MachineInv s) (he : extContract s.cfg)
    (hu : s.mlUnit = some u) : UnitGoesOn u s.advance := by
  obtain ⟨-, -, -, -, ⟨-, hmsg, hreply, -⟩, -⟩ := id h
  rcases State.mlUnit_cases hu with ⟨-, rfl⟩ | ⟨hm, rfl⟩ | ⟨hm, rfl⟩ | ⟨hm, rfl⟩
  · exact ⟨_, rfl, goesOn_execDispatch _⟩
  · obtain ⟨h6, h253⟩ := hmsg (.inl hm)
    exact unitGoesOn_message (h.advance.repliesFit (by rwa [s.advance_cfg])) h6 h253
  · obtain ⟨h6, h253⟩ := hreply hm
    exact unitGoesOn_replyUnit h6 h253 _
  · obtain ⟨h6, h253⟩ := hmsg (.inr hm)
    exact unitGoesOn_forwardUnit h6 h253 _

/-- Whatever a step is presented with goes on. -/
theorem MachineInv.fetch_goesOn {s : State} {u : WireUnit} (h : MachineInv s) (he : extContract s.cfg)
    (ha : stimulusAllowed s) (hf : s.fetch = some u) : UnitGoesOn u s.advance := by
  rcases State.fetch_cases hf with
    hml | ⟨p, b, rfl⟩ | ⟨p, rfl⟩ | ⟨pkt, rest, hs, rfl⟩ | rfl | ⟨rfl, rest, hs⟩ | rfl | ⟨c, rfl⟩
  · exact h.mlUnit_goesOn he hml
  · rw [← s.advance_port]
    exact unitGoesOn_serialIn p b s.advance
  · exact ⟨_, rfl, goesOn_execPoll p _⟩
  · have hw : (Instr.rfRx pkt).wf = true := by simpa [stimulusAllowed, hs] using ha
    exact ⟨_, decode_radioIn hw, goesOn_execRfRx pkt _⟩
  · exact ⟨_, rfl, goesOn_execMlRadio _⟩
  · have hb : s.txBusy = true := by simpa [stimulusAllowed, hs] using ha
    exact ⟨_, rfl, goesOn_execRfTxDone (s.advance_txBusy.trans hb)⟩
  · exact ⟨_, rfl, .next _⟩
  · exact ⟨_, rfl, .next _⟩

/-- Settles O60: the step without an instruction goes on, and so does every unit that is presented. -/
theorem allowedStepsNeverStop : Obligations.AllowedStepsNeverStop := by
  intro s h he ha
  obtain ⟨hc, -⟩ := id h
  cases hf : s.fetch with
  | none => exact ⟨_, step_of_fetch_none hc hf⟩
  | some u =>
    obtain ⟨i, hd, t, ht⟩ := h.fetch_goesOn he ha hf
    exact ⟨t, (step_of_fetch hc hf hd).trans ht⟩

end Sys2Proof.Machine
end

section
/-! SUPPORT. O21 to O26: the deposit of a packet, the radio service, the radio send and its end, each said once for every
outcome it can have (41_radio_codec.md). -/

namespace Sys2Proof.Machine

/-! ### The bytes of a packet -/

theorem Memory.readBytes_one (m : Memory) (a : Nat) : m.readBytes a 1 = [m.byteAt a] := rfl

theorem Memory.readBytes_two (m : Memory) (a : Nat) : m.readBytes a 2 = [m.byteAt a, m.byteAt (a + 1)] := rfl

/-- A 16-bit field is two given bytes exactly where it is their value (R63). -/
theorem le16_eq_iff {v : U16} {lo hi : Byte} : le16 v = [lo, hi] ↔ v = u16le lo hi := by
  constructor
  · intro h
    simp only [le16, List.cons.injEq, and_true] at h
    obtain ⟨rfl, rfl⟩ := h
    exact (u16le_le16 v).symm
  · rintro rfl
    exact le16_u16le lo hi

theorem u16le_inj {lo hi lo' hi' : Byte} : u16le lo hi = u16le lo' hi' ↔ lo = lo' ∧ hi = hi' := by
  rw [← le16_eq_iff, le16_u16le]
  simp

/-- The packet of a Message, its parts in the order they are sent (R97, R172). -/
theorem buildPacket_eq (binding : CrcBinding) {m : List Byte} (fbit : Bool) (h : 2 ≤ m.length) :
    buildPacket binding m fbit =
      [BitVec.ofNat 8 (m.length + 3), flagsOf fbit] ++ m.drop 2 ++ m.take 2 ++
        le16 (crcOf binding ([BitVec.ofNat 8 (m.length + 3), flagsOf fbit] ++ m.drop 2)) := by
  have hlen : ([BitVec.ofNat 8 (m.length + 3), flagsOf fbit] ++ m.drop 2).length = m.length := by
    simp only [List.length_append, List.length_cons, List.length_nil, List.length_drop]
    omega
  simp only [buildPacket, packetPrefix]
  rw [List.take_left' hlen]

/-! ### The deposit (R160) -/

/-- The state after a packet was deposited. -/
def State.deposit (s : State) (pkt : List Byte) : State :=
  { s with rxBuf := s.rxBuf.writeBytes 0 pkt, rxFull := true }

theorem execRfRx_of_listening {pkt : List Byte} {s : State} (h : s.rxArmed = true ∧ s.rxFull = false) :
    execRfRx pkt s = .next (s.deposit pkt) :=
  if_pos (by simp [h])

theorem execRfRx_of_not_listening {pkt : List Byte} {s : State} (h : ¬ (s.rxArmed = true ∧ s.rxFull = false)) :
    execRfRx pkt s = .next (s.raiseEvent .radioLost) :=
  if_neg (by simpa using h)

/-- Settles O21, by whether the receiver listens to an empty slot. -/
theorem packetIsDepositedOrLost : Obligations.PacketIsDepositedOrLost := by
  intro pkt s
  refine ⟨fun h => ⟨_, execRfRx_of_listening h, rfl, ?whole, ?rest⟩, execRfRx_of_not_listening⟩
  case whole => exact Memory.readBytes_writeBytes_same s.rxBuf 0 pkt
  case rest => exact fun a ha => Memory.byteAt_writeBytes_of_not_mem (.inr (by omega))

/-! ### The radio service (R162 to R166) -/

theorem State.radioEnabled_iff {s : State} :
    s.radioEnabled = true ↔ s.rxFull = true ∧ s.txBusy = false ∧ s.ml = .idle := by
  simp [State.radioEnabled, and_assoc]

theorem execMlRadio_of_short {s : State} (he : s.radioEnabled = true) (hL : s.rxLen < 9) :
    execMlRadio s = .next s.rejectShort := by
  simp [execMlRadio, he, hL]

theorem execMlRadio_of_match {s : State} (he : s.radioEnabled = true) (hL : 9 ≤ s.rxLen)
    (hc : crcOf s.cfg.crc (s.rxBuf.readBytes 0 (s.rxLen - 3)) = s.rxChecksum s.rxLen) :
    execMlRadio s = .next (s.acceptPacket s.rxLen) := by
  simp [execMlRadio, he, hc, show ¬ s.rxLen < 9 by omega]

theorem execMlRadio_of_mismatch {s : State} (he : s.radioEnabled = true) (hL : 9 ≤ s.rxLen)
    (hc : crcOf s.cfg.crc (s.rxBuf.readBytes 0 (s.rxLen - 3)) ≠ s.rxChecksum s.rxLen) :
    execMlRadio s =
      .next (s.rejectCrc (crcOf s.cfg.crc (s.rxBuf.readBytes 0 (s.rxLen - 3))) (s.rxChecksum s.rxLen)) := by
  simp [execMlRadio, he, hc, show ¬ s.rxLen < 9 by omega]

theorem State.rxLen_le (s : State) : s.rxLen ≤ 255 := by
  have := (s.rxBuf.byteAt 0).isLt
  exact Nat.le_of_lt_succ this

theorem State.length_rxMessage (s : State) {L : Nat} (h : 5 ≤ L) : (s.rxMessage L).length = L - 3 := by
  simp only [State.rxMessage, List.length_append, Memory.length_readBytes]
  omega

/-- The accepted Message is held whole (R33, R166). -/
theorem State.acceptPacket_msgBytes {s : State} (h : 5 ≤ s.rxLen) :
    (s.acceptPacket s.rxLen).msgBytes = s.rxMessage s.rxLen := by
  have hlen := s.length_rxMessage h
  have hle := s.rxLen_le
  exact s.takeMessage_msgBytes .r (flagsFbit (s.rxBuf.byteAt 1)) (by omega)

/-- The state after a packet was accepted, field by field. -/
theorem State.acceptPacket_eq (s : State) {L : Nat} (h : 5 ≤ L) :
    s.acceptPacket L = { s with
      msg := s.msg.writeBytes 0 (s.rxMessage L), msgLen := BitVec.ofNat 8 (L - 3), msgSrc := .r,
      msgFbit := (s.rxBuf.byteAt 1).getLsbD 6, radioGood := s.radioGood + 1, idleTicks := 0, ml := .dispatch } := by
  rw [← s.length_rxMessage h]
  rfl

/-- Settles O22, from what the service does with a short packet. -/
theorem shortPacketIsRejected : Obligations.ShortPacketIsRejected := by
  intro s hfull hbusy hm hL
  exact execMlRadio_of_short (State.radioEnabled_iff.2 ⟨hfull, hbusy, hm⟩) hL

/-- Settles O23, from what the service does with a packet whose footer holds another checksum. -/
theorem checksumMismatchIsRejected : Obligations.ChecksumMismatchIsRejected := by
  rintro s L c f hfull hbusy hm hlen hL rfl hf hne
  obtain rfl : L = s.rxLen := hlen
  obtain rfl : f = s.rxChecksum s.rxLen := le16_eq_iff.1 hf
  exact execMlRadio_of_mismatch (State.radioEnabled_iff.2 ⟨hfull, hbusy, hm⟩) hL hne

/-- Settles O24: the service's accepting outcome, and the checksum by its own recursion. -/
theorem goodPacketBecomesTheMessage : Obligations.GoodPacketBecomesTheMessage := by
  refine ⟨?accept, crcOf_nil, crcOf_append_singleton, fun _ _ => rfl⟩
  intro s L hfull hbusy hm hlen hL hc
  obtain rfl : L = s.rxLen := hlen
  refine ⟨s.acceptPacket s.rxLen,
    execMlRadio_of_match (State.radioEnabled_iff.2 ⟨hfull, hbusy, hm⟩) hL (le16_eq_iff.1 hc), ?bytes, ?rest,
    s.acceptPacket_eq (by omega)⟩
  case bytes =>
    rw [State.acceptPacket_msgBytes (by omega), State.rxMessage, Memory.readBytes_two,
      show s.rxLen - 3 + 1 = s.rxLen - 2 by omega]
  case rest =>
    have hbytes := s.length_rxMessage (L := s.rxLen) (by omega)
    exact fun a ha => Memory.byteAt_writeBytes_of_not_mem (.inr (by omega))

/-! ### The radio send and its end (R171 to R173, R178) -/

theorem execRadioSend_of_fits {m : List Byte} {fbit : Bool} {s : State} (h : m.length + 3 ≤ s.cfg.radioLenMax) :
    execRadioSend m fbit s = .next { s with
      txBuf := s.txBuf.writeBytes 0 (buildPacket s.cfg.crc m fbit), rxArmed := false, txBusy := true, ml := .txWait,
      outs := s.outs ++ [.rfTx (buildPacket s.cfg.crc m fbit)] } :=
  if_neg (by omega)

theorem execRadioSend_of_oversize {m : List Byte} {fbit : Bool} {s : State} (h : s.cfg.radioLenMax < m.length + 3) :
    execRadioSend m fbit s = .next (s.raiseEvent (.sendOversize m.length)).endService :=
  if_pos h

/-- Settles O25, by the size budget. -/
theorem radioSendBuildsThePacket : Obligations.RadioSendBuildsThePacket := by
  intro m fbit s h6
  refine ⟨fun hfits => ?fits, fun hover => ?oversize⟩
  case fits =>
    refine ⟨_, buildPacket s.cfg.crc m fbit, execRadioSend_of_fits hfits, buildPacket_eq _ _ (by omega), ?_, ?_, rfl⟩
    · exact Memory.readBytes_writeBytes_same s.txBuf 0 _
    · exact fun a ha => Memory.byteAt_writeBytes_of_not_mem (.inr (by omega))
  case oversize =>
    refine (execRadioSend_of_oversize hover).trans ?_
    rw [State.endService, State.endPhase_eq]
    rfl

/-- Settles O26, by whether a transmission is in flight. -/
theorem txDoneCompletesTheTransmission : Obligations.TxDoneCompletesTheTransmission := by
  intro s
  refine ⟨fun hb => ?inFlight, fun hb => ?none⟩
  case inFlight =>
    show execRfTxDone s = _
    rw [execRfTxDone, if_pos hb, State.endService, State.endPhase_eq]
    rfl
  case none => exact if_neg (by simp [hb])

end Sys2Proof.Machine
end

section
/-! SUPPORT. O27: the fields a receiver reads from a packet that carries a Message (R97, R179). -/

namespace Sys2Proof.Machine

/-- What a receiver finds in `buf` once the packet of Message `m` is deposited there: each field at the index that R97
gives it, and a checksum that is the one of the bytes it covers. -/
structure HoldsPacket (binding : CrcBinding) (buf : Memory) (m : List Byte) (fbit : Bool) : Prop where
  length : buf.byteAt 0 = BitVec.ofNat 8 (m.length + 3)
  flags : buf.byteAt 1 = flagsOf fbit
  body : buf.readBytes 2 (m.length - 2) = m.drop 2
  deviceId : buf.readBytes m.length 2 = m.take 2
  checksum :
    le16 (crcOf binding (buf.readBytes 0 m.length)) = [buf.byteAt (m.length + 2), buf.byteAt (m.length + 3)]

/-- A byte string stands in a buffer where its two parts stand one after the other. -/
theorem Memory.readBytes_eq_append {m : Memory} {a : Nat} {x y : List Byte} :
    m.readBytes a (x ++ y).length = x ++ y ↔
      m.readBytes a x.length = x ∧ m.readBytes (a + x.length) y.length = y := by
  rw [List.length_append, Memory.readBytes_add]
  exact ⟨fun h => List.append_inj h (by simp), fun ⟨hx, hy⟩ => by rw [hx, hy]⟩

/-- The deposited packet, field by field. -/
theorem holdsPacket_of_readBytes {binding : CrcBinding} {buf : Memory} {m : List Byte} {fbit : Bool} (h : 2 ≤ m.length)
    (hall : buf.readBytes 0 (buildPacket binding m fbit).length = buildPacket binding m fbit) :
    HoldsPacket binding buf m fbit := by
  rw [buildPacket_eq binding fbit h] at hall
  obtain ⟨hrest, hck⟩ := Memory.readBytes_eq_append.1 hall
  obtain ⟨hcovered, hid⟩ := Memory.readBytes_eq_append.1 hrest
  obtain ⟨hhead, hbody⟩ := Memory.readBytes_eq_append.1 hcovered
  have hlen : ([BitVec.ofNat 8 (m.length + 3), flagsOf fbit] ++ m.drop 2).length = m.length := by
    simp only [List.length_append, List.length_cons, List.length_nil, List.length_drop]
    omega
  have htake : (m.take 2).length = 2 := by rw [List.length_take]; omega
  obtain ⟨h0, h1⟩ : buf.byteAt 0 = _ ∧ buf.byteAt 1 = _ := by simpa [Memory.readBytes_two] using hhead
  rw [hlen] at hcovered
  rw [hlen, htake, Nat.zero_add] at hid
  rw [List.length_append, hlen, htake, length_le16, Nat.zero_add, Memory.readBytes_two] at hck
  exact ⟨h0, h1, by simpa using hbody, hid, by rw [hcovered, hck]⟩

theorem holdsPacket_deposit {binding : CrcBinding} {r : State} {m : List Byte} (fbit : Bool)
    (hb : r.cfg.crc = binding) (h : 2 ≤ m.length) :
    HoldsPacket (r.deposit (buildPacket binding m fbit)).cfg.crc (r.deposit (buildPacket binding m fbit)).rxBuf m
      fbit := by
  subst hb
  exact holdsPacket_of_readBytes h (Memory.readBytes_writeBytes_same r.rxBuf 0 _)

/-- Bit 6 of a flags byte is the bit it was made of (R99). -/
theorem flagsFbit_flagsOf (fbit : Bool) : flagsFbit (flagsOf fbit) = fbit := by cases fbit <;> decide

section
variable {m : List Byte} {fbit : Bool} {s : State} (h : HoldsPacket s.cfg.crc s.rxBuf m fbit)
include h

theorem HoldsPacket.rxLen (hm : m.length + 3 ≤ 255) : s.rxLen = m.length + 3 := by
  rw [State.rxLen, h.length, BitVec.toNat_ofNat]
  exact Nat.mod_eq_of_lt (by omega)

/-- The device-id from the footer and the body behind it are the Message (R166). -/
theorem HoldsPacket.rxMessage : s.rxMessage (m.length + 3) = m := by
  rw [State.rxMessage, show m.length + 3 - 3 = m.length by omega, show m.length + 3 - 5 = m.length - 2 by omega,
    h.deviceId, h.body, List.take_append_drop]

/-- The packet passes the checksum. -/
theorem HoldsPacket.rxChecksum :
    crcOf s.cfg.crc (s.rxBuf.readBytes 0 (m.length + 3 - 3)) = s.rxChecksum (m.length + 3) :=
  le16_eq_iff.1 h.checksum

/-- A service that finds the packet takes its Message. -/
theorem HoldsPacket.execMlRadio (he : s.radioEnabled = true) (h6 : 6 ≤ m.length) (hm : m.length + 3 ≤ 255) :
    execMlRadio s = .next (s.acceptPacket s.rxLen) := by
  have hL := h.rxLen hm
  exact execMlRadio_of_match he (by omega) (by rw [hL]; exact h.rxChecksum)

theorem HoldsPacket.acceptPacket_msgBytes (h6 : 6 ≤ m.length) (hm : m.length + 3 ≤ 255) :
    (s.acceptPacket s.rxLen).msgBytes = m := by
  have hL := h.rxLen hm
  rw [State.acceptPacket_msgBytes (by omega), hL, h.rxMessage]

end

/-- Settles O27: the packet that is sent is deposited as it is, and its fields give the Message back. -/
theorem radioRoundTripKeepsTheMessage : Obligations.RadioRoundTripKeepsTheMessage := by
  intro m fbit s r h6 hfits hmax hcrc harmed hempty hbusy hidle
  have hp := holdsPacket_deposit fbit hcrc (show 2 ≤ m.length by omega)
  have hbytes := hp.acceptPacket_msgBytes h6 (by omega)
  have hen : (r.deposit (buildPacket s.cfg.crc m fbit)).radioEnabled = true :=
    State.radioEnabled_iff.2 ⟨rfl, hbusy, hidle⟩
  refine ⟨_, buildPacket s.cfg.crc m fbit, _, _, execRadioSend_of_fits hfits, rfl,
    execRfRx_of_listening ⟨harmed, hempty⟩, hp.execMlRadio hen h6 (by omega), hbytes, ?len, ?fbit, rfl, rfl⟩
  case len => exact (Memory.length_readBytes ..).symm.trans (congrArg List.length hbytes)
  case fbit => exact (congrArg flagsFbit hp.flags).trans (flagsFbit_flagsOf fbit)

end Sys2Proof.Machine
end

section
/-! SUPPORT. O28: `CRC16_8005` tells apart two byte strings that differ in one byte, for each of its steps is injective
in the sum so far and in the byte (R169, R180). -/

namespace Sys2Proof.Machine

/-! ### The primitive is injective -/

/-- The bit that a shift drops comes back as the lowest bit, for 0x8005 is odd. -/
theorem getLsbD_crcShift_zero (c : U16) : (crcShift c).getLsbD 0 = c.msb := by
  unfold crcShift
  split <;> simp [*]

theorem getLsbD_crcShift_succ (c : U16) {i : Nat} (hi : i + 1 < 16) :
    (crcShift c).getLsbD (i + 1) = (c.getLsbD i ^^ (c.msb && (0x8005 : U16).getLsbD (i + 1))) := by
  have hget := BitVec.getLsbD_eq_getElem (x := c) (show i < 16 by omega)
  unfold crcShift
  split <;> simp [*]

/-- One shift loses nothing: the lowest bit gives the dropped one, and that one gives the others. -/
theorem crcShift_injective : Function.Injective crcShift := by
  intro x y h
  have hmsb : x.msb = y.msb := by rw [← getLsbD_crcShift_zero x, h, getLsbD_crcShift_zero]
  apply BitVec.eq_of_getLsbD_eq
  intro i hi
  by_cases htop : i = 15
  · subst htop
    exact hmsb
  · have hbit := congrArg (BitVec.getLsbD · (i + 1)) h
    simpa [getLsbD_crcShift_succ _ (show i + 1 < 16 by omega), hmsb] using hbit

/-- Eight shifts lose nothing either: two steps agree exactly where they shift the same word. -/
theorem crc16x8005_eq_iff {c d : U16} {a b : Byte} :
    crc16x8005 c a = crc16x8005 d b ↔ c ^^^ (a.zeroExtend 16 <<< 8) = d ^^^ (b.zeroExtend 16 <<< 8) :=
  (crcShift_injective.iterate 8).eq_iff

theorem crc16x8005_injective_sum (b : Byte) : Function.Injective (crc16x8005 · b) := fun _ _ h =>
  (BitVec.xor_left_inj _).1 (crc16x8005_eq_iff.1 h)

theorem crc16x8005_injective_byte (c : U16) : Function.Injective (crc16x8005 c) := by
  intro a b h
  have hshift := (BitVec.xor_right_inj c).1 (crc16x8005_eq_iff.1 h)
  apply BitVec.eq_of_getLsbD_eq
  intro i hi
  have hbit := congrArg (BitVec.getLsbD · (i + 8)) hshift
  simpa [show i + 8 < 16 by omega, hi] using hbit

/-- Bytes that follow keep two different sums different. -/
theorem foldl_crc16x8005_injective (bs : List Byte) : Function.Injective (bs.foldl crc16x8005) := by
  induction bs with
  | nil => exact fun _ _ h => h
  | cons b bs ih => exact ih.comp (crc16x8005_injective_sum b)

theorem crcOf_crc16x8005 (bs : List Byte) : crcOf .crc16x8005 bs = bs.foldl crc16x8005 0xFFFF := rfl

/-- Two byte strings that differ in one byte have different sums. -/
theorem crcOf_ne_of_byte_ne {a b : Byte} (x y : List Byte) (h : a ≠ b) :
    crcOf .crc16x8005 (x ++ a :: y) ≠ crcOf .crc16x8005 (x ++ b :: y) := by
  intro he
  simp only [crcOf_crc16x8005, List.foldl_append, List.foldl_cons] at he
  exact h (crc16x8005_injective_byte _ (foldl_crc16x8005_injective y he))

/-! ### A changed byte of a packet -/

theorem Memory.readBytes_split (m : Memory) {k n : Nat} (hk : k < n) :
    m.readBytes 0 n = m.readBytes 0 k ++ m.byteAt k :: m.readBytes (k + 1) (n - k - 1) := by
  have hn : n = k + (1 + (n - k - 1)) := by omega
  conv_lhs => rw [hn, Memory.readBytes_add, Memory.readBytes_add, Memory.readBytes_one, Nat.zero_add]
  rfl

/-- A changed byte in the covered range changes the sum of the range. -/
theorem crcOf_writeBytes_ne {m : Memory} {k n : Nat} {b : Byte} (hk : k < n) (hb : b ≠ m.byteAt k) :
    crcOf .crc16x8005 ((m.writeBytes k [b]).readBytes 0 n) ≠ crcOf .crc16x8005 (m.readBytes 0 n) := by
  rw [Memory.readBytes_split _ hk, Memory.readBytes_split m hk, (Memory.byteAt_writeBytes_singleton m k b).1,
    Memory.readBytes_writeBytes_disjoint (.inl (by omega)), Memory.readBytes_writeBytes_disjoint (.inr (by simp))]
  exact crcOf_ne_of_byte_ne _ _ hb

/-- A changed byte in the covered range, or in the footer behind it, parts the sum from the footer. -/
theorem crcOf_writeBytes_ne_footer {m : Memory} {L k : Nat} {b : Byte} (hL : 9 ≤ L)
    (hc : crcOf .crc16x8005 (m.readBytes 0 (L - 3)) = u16le (m.byteAt (L - 1)) (m.byteAt L))
    (hk : k ≤ L - 4 ∨ k = L - 1 ∨ k = L) (hb : b ≠ m.byteAt k) :
    crcOf .crc16x8005 ((m.writeBytes k [b]).readBytes 0 (L - 3)) ≠
      u16le ((m.writeBytes k [b]).byteAt (L - 1)) ((m.writeBytes k [b]).byteAt L) := by
  obtain ⟨hsame, hother⟩ := Memory.byteAt_writeBytes_singleton m k b
  rcases hk with hk | hfooter
  · rw [hother (L - 1) (by omega), hother L (by omega), ← hc]
    exact crcOf_writeBytes_ne (by omega) hb
  · rw [Memory.readBytes_writeBytes_disjoint (.inl (by omega)), hc]
    intro he
    obtain ⟨hlo, hhi⟩ := u16le_inj.1 he
    rcases hfooter with rfl | rfl
    · exact hb (hsame.symm.trans hlo.symm)
    · exact hb (hsame.symm.trans hhi.symm)

/-- The state in which byte `k` of the deposited packet was changed to `b`. -/
def State.withRxByte (s : State) (k : Nat) (b : Byte) : State := { s with rxBuf := s.rxBuf.writeBytes k [b] }

theorem State.withRxByte_rxLen (s : State) {k : Nat} (b : Byte) (hk : k ≠ 0) : (s.withRxByte k b).rxLen = s.rxLen :=
  congrArg BitVec.toNat ((Memory.byteAt_writeBytes_singleton s.rxBuf k b).2 0 hk.symm)

/-- Settles O28: the length byte stands, so the service compares the same ranges, and they no longer agree. -/
theorem oneChangedByteIsDetected : Obligations.OneChangedByteIsDetected := by
  intro s L k b hcrc hfull hbusy hidle hlen hL hc hk hb
  obtain rfl : L = s.rxLen := hlen
  have hsame : (s.withRxByte k b).rxLen = s.rxLen := s.withRxByte_rxLen b (by omega)
  have hne := crcOf_writeBytes_ne_footer hL (le16_eq_iff.1 hc) (hk.imp_left And.right) hb
  rw [← hcrc, ← hsame] at hne
  have hen : (s.withRxByte k b).radioEnabled = true := State.radioEnabled_iff.2 ⟨hfull, hbusy, hidle⟩
  exact ⟨_, execMlRadio_of_mismatch hen (hsame.symm ▸ hL) hne, rfl, rfl, hidle, rfl⟩

end Sys2Proof.Machine
end

section
/-! SUPPORT. O32: while ML waits for `rf_tx_done` it has no step of its own and takes no service (R173, R357). -/

namespace Sys2Proof.Machine

theorem State.mlUnit_of_txWait {s : State} (h : s.ml = .txWait) : s.mlUnit = none := by simp only [State.mlUnit, h]

theorem State.mlBusy_of_txWait {s : State} (h : s.ml = .txWait) : s.mlBusy = false := by
  simp [State.mlBusy, State.mlUnit_of_txWait h, h]

/-- A turn for a new service presents that service, for ML has no step left to go on with. -/
theorem State.serviceUnit_of_txWait {s : State} (h : s.ml = .txWait) (u : WireUnit) : s.serviceUnit u = some u := by
  simp [State.serviceUnit, State.mlBusy_of_txWait h]

/-- The service is run, and its turn taken off the queue. -/
theorem step_of_txWait_service {s : State} {e : Stim} {rest : List Stim} {u : WireUnit} {i : Instr}
    (hc : configLegal s.cfg = true) (hr : s.rebootLine = false) (hm : s.ml = .txWait) (hs : s.stim = e :: rest)
    (hk : s.consumes e = !s.mlBusy) (hu : s.stimUnit e = s.serviceUnit u) (hd : decode u = .ok i) :
    step s = exec i { s with stim := rest, cmdRecognized := false } :=
  step_of_stimulus hc hr hs (by rw [hk, State.mlBusy_of_txWait hm]; rfl) (hu.trans (State.serviceUnit_of_txWait hm u)) hd

theorem State.radioEnabled_of_txWait {s : State} (h : s.ml = .txWait) : s.radioEnabled = false := by
  simp [State.radioEnabled, h]

/-- A turn given to ML passes. -/
theorem step_of_txWait_ml {s : State} {rest : List Stim} (hc : configLegal s.cfg = true) (hr : s.rebootLine = false)
    (hm : s.ml = .txWait) (hs : s.stim = .ml :: rest) :
    step s = .next { s with stim := rest, cmdRecognized := false } := by
  have hf : s.fetch = none := by simp [State.fetch, hr, hs, State.stimUnit, State.mlUnit_of_txWait hm]
  have ht : s.mlTurn = true := by simp [State.mlTurn, hs]
  have hd : s.advance.ml ≠ .drain := by simp [hm]
  rw [step_of_fetch_none hc hf, State.pass, if_pos ht, State.mlDrain_of_not_drain hd,
    State.advance_of_consumes hr hs rfl]
  rfl

/-- Settles O32, by the turn: ML's own presents nothing, and a service that is presented is not enabled. -/
theorem blockedSendStopsMl : Obligations.BlockedSendStopsMl := by
  rintro s e rest hc hr hm hs (rfl | rfl | ⟨p, rfl⟩)
  case inl => exact step_of_txWait_ml hc hr hm hs
  case inr.inl =>
    exact (step_of_txWait_service hc hr hm hs rfl rfl rfl).trans
      (execMlRadio_of_not_enabled (State.radioEnabled_of_txWait hm))
  case inr.inr =>
    exact (step_of_txWait_service hc hr hm hs rfl rfl rfl).trans (execPoll_of_busy (by simp [hm]))

end Sys2Proof.Machine
end

section
/-! SUPPORT. O29 to O31: the dispatch in its four cases, and the sends that follow it, a forward or a reply (R200 to
R209). -/

namespace Sys2Proof.Machine

/-! ### The sends (R207, R208) -/

@[simp] theorem State.length_msgBytes (s : State) : s.msgBytes.length = s.msgLen.toNat := Memory.length_readBytes ..

@[simp] theorem State.length_replyBytes (s : State) : s.replyBytes.length = s.replyLen.toNat :=
  Memory.length_readBytes ..

theorem decode_serialOut (p : Port) {m : List Byte} (h253 : m.length ≤ 253) :
    decode ⟨.serialOut p, m⟩ = .ok (.serSend p m) :=
  decode_encode_of_not_message (i := .serSend p m) (decide_eq_true h253) rfl

theorem decode_radioOut (fbit : Bool) {m : List Byte} (h6 : 6 ≤ m.length) (h253 : m.length ≤ 253) :
    decode ⟨.radioOut fbit, m⟩ = .ok (.radioSend m fbit) :=
  decode_encode_of_not_message (i := .radioSend m fbit) (decide_eq_true ⟨h6, h253⟩) rfl

theorem State.mlUnit_of_forward {s : State} (h : s.ml = .forward) : s.mlUnit = some s.forwardUnit := by
  simp only [State.mlUnit, h]

theorem State.mlUnit_of_reply {s : State} (h : s.ml = .reply) : s.mlUnit = some s.replyUnit := by
  simp only [State.mlUnit, h]

/-- Settles O30: ML's turn runs what the forward's unit decodes to, by the transport the Message came from. -/
theorem forwardingSendsTheMessageUnmodified : Obligations.ForwardingSendsTheMessageUnmodified := by
  intro s left hc hr ht hm h6 h253
  rw [← s.length_msgBytes] at h6 h253
  refine step_of_turn hc hr ht (State.mlUnit_of_forward hm) ?_
  unfold State.forwardUnit
  cases s.msgSrc with
  | s0 => exact decode_radioOut false h6 h253
  | s1 => exact decode_radioOut true h6 h253
  | r => exact decode_serialOut (forwardPort s.cfg s.msgFbit) h253

/-- Settles O31: ML's turn runs what the reply's unit decodes to, by the transport the request came from. -/
theorem replyLeavesByTheOriginatingTransport : Obligations.ReplyLeavesByTheOriginatingTransport := by
  intro s left hc hr ht hm h6 h253
  rw [← s.length_replyBytes] at h6 h253
  refine step_of_turn hc hr ht (State.mlUnit_of_reply hm) ?_
  unfold State.replyUnit
  cases s.msgSrc with
  | s0 => exact decode_serialOut .p0 h253
  | s1 => exact decode_serialOut .p1 h253
  | r => exact decode_radioOut s.msgFbit h6 h253

/-! ### The dispatch (R200, R201, R203, R208, R209) -/

theorem State.addressedHere_iff {s : State} :
    s.addressedHere = true ↔ s.msg.byteAt 4 = s.cfg.subsysRadio ∧
      (u16le (s.msg.byteAt 0) (s.msg.byteAt 1) = s.cfg.selfId ∨ u16le (s.msg.byteAt 0) (s.msg.byteAt 1) = 0xFFFF) := by
  simp [State.addressedHere, State.msgSubsystem, State.msgId]

/-- A Message is dropped with an event, and its dispatch is over. -/
theorem State.raiseEvent_endService (s : State) (e : Event) :
    (s.raiseEvent e).endService = { s with events := s.events ++ [e], ml := serviceLeft s } := by
  rw [State.endService, State.endPhase_eq]
  rfl

theorem execDispatch_of_short {s : State} (h : s.msgLen.toNat < 6) :
    execDispatch s =
      .next { s with events := s.events ++ [.msgShort s.msgSrc s.msgLen], ml := serviceLeft s } := by
  rw [execDispatch, if_pos h, State.raiseEvent_endService]

theorem execDispatch_of_addressedHere {s : State} (h6 : ¬ s.msgLen.toNat < 6) (ha : s.addressedHere = true) :
    execDispatch s = .next { s with ml := .deliver } := by
  rw [execDispatch, if_neg h6, if_pos ha]

theorem execDispatch_of_forwardEnabled {s : State} (h6 : ¬ s.msgLen.toNat < 6) (ha : ¬ s.addressedHere = true)
    (hf : forwardEnabled s.cfg s.msgSrc = true) : execDispatch s = .next { s with ml := .forward } := by
  rw [execDispatch, if_neg h6, if_neg ha, if_pos hf]

theorem execDispatch_of_not_forwardEnabled {s : State} (h6 : ¬ s.msgLen.toNat < 6) (ha : ¬ s.addressedHere = true)
    (hf : ¬ forwardEnabled s.cfg s.msgSrc = true) :
    execDispatch s = .next { s with
      events := s.events ++ [.notForwarded s.msgSrc (u16le (s.msg.byteAt 0) (s.msg.byteAt 1))],
      ml := serviceLeft s } := by
  rw [execDispatch, if_neg h6, if_neg ha, if_neg hf, State.raiseEvent_endService]
  rfl

/-- Settles O29, by the four cases of the dispatch. -/
theorem dispatchRoutesByAddress : Obligations.DispatchRoutesByAddress := by
  intro s
  change execDispatch s = _
  split
  case isTrue h => exact execDispatch_of_short h
  case isFalse h6 =>
    split
    case isTrue ha => exact execDispatch_of_addressedHere h6 (State.addressedHere_iff.mpr ha)
    case isFalse hn =>
      have ha := mt State.addressedHere_iff.mp hn
      by_cases hf : forwardEnabled s.cfg s.msgSrc = true
      · exact (execDispatch_of_forwardEnabled h6 ha hf).trans (if_pos hf).symm
      · exact (execDispatch_of_not_forwardEnabled h6 ha hf).trans (if_neg hf).symm

end Sys2Proof.Machine
end

section
/-! SUPPORT. O53: the three handlers of the Application and the answer of `EXT` whose reply may pass the buffer (R206,
R256). -/

namespace Sys2Proof.Machine

/-- A reply past the 253-byte buffer stops the handler (log 24). -/
theorem replyWith_of_overflow {op : Byte} {pl : List Byte} {s : State} (h : 247 < pl.length) :
    replyWith op pl s = .fault (.replyOverflow op) := if_neg (Nat.not_le.mpr h)

theorem getTimeHandler_of_set {s : State} (h : s.timeSet = true) :
    getTimeHandler s = replyWith 0x14 (s.timeVal.readBytes 0 s.cfg.timeBytes) s := if_pos h

/-- R237: in the Application, every opcode without an entry in its table is unmatched, whichever row it has. -/
theorem exec_of_no_application_entry {op : Byte} (h : Header) (pl : List Byte) {s : State}
    (hv : s.cfg.variant = .application) (hn : hasEntry .application op = false) :
    exec (instrOfOpcode op h pl) s = unmatched op h pl (s.replyInit h) := by
  revert hn
  apply instrOfOpcode_cases
    (motive := fun op i => hasEntry .application op = false → exec i s = unmatched op h pl (s.replyInit h)) op h pl
  case ping => exact fun _ => deliverBootloader_unmatched hv
  case writePage => exact fun _ => execWritePage_unmatched hv
  case erase => exact fun _ => execErase_unmatched hv
  case bootloaderAck | bootloaderNack | rangingAck | telem | callsign => exact fun _ => rfl
  case unassigned => exact fun _ _ => rfl
  case reboot | rebootPostpone => exact fun _ hn => absurd hn (by decide)
  all_goals exact fun hn => absurd hn (by decide)

/-- Settles O53: each of the four replies is given to `replyWith`, which refuses its length. -/
theorem oversizeRepliesAreFaults : Obligations.OversizeRepliesAreFaults := by
  intro h pl s hv
  refine ⟨fun hset hlen => ?getTime, fun hlen => ?getTelem, fun hlen => ?getCallsign,
    fun op rop rpl hn hext hlen => ?ext⟩
  case getTime =>
    refine (deliverApplication_entry hv).trans ((getTimeHandler_of_set ?_).trans (replyWith_of_overflow ?_))
    · exact hset
    · rwa [Memory.length_readBytes]
  case getTelem => exact (deliverApplication_entry hv).trans (replyWith_of_overflow hlen)
  case getCallsign =>
    refine (deliverApplication_entry hv).trans (replyWith_of_overflow ?_)
    rwa [Memory.length_readBytes]
  case ext =>
    rw [exec_of_no_application_entry h pl hv hn, unmatched_application hv, hext]
    exact replyWith_of_overflow hlen

end Sys2Proof.Machine
end

section
/-! SUPPORT. O33, O41, O45 to O51: the handlers that answer in their one step. Each is said once for each case it tells
apart, and the ending it has gives the statement (43_match_table.md sections 2 to 4). -/

namespace Sys2Proof.Machine

/-! ### Ping (R239) -/

/-- Settles O33: the strobe and the kick are emitted one after the other. -/
theorem pingRepliesPong : Obligations.PingRepliesPong := by
  intro h pl s hv
  refine handled_setReply _ (deliverBootloader_entry hv) ?_ (by decide)
  simp [withRecognized, State.emit]

/-! ### The common inbound opcodes (R231 to R234) -/

theorem commonInbound_none {h : Header} {s : State} (hn : s.cfg.inboundReply = .none) :
    commonInbound h s = .next (s.replyInit h).recognize.noReply.handlerDone := by
  simp only [commonInbound, hn]

theorem commonInbound_nack {h : Header} {s : State} (hn : s.cfg.inboundReply = .nack) :
    commonInbound h s = .next (s.replyInit h).recognize.handlerDone := by
  simp only [commonInbound, hn]

/-- Settles O41: the three rows have one meaning, which ends as `COMMON_INBOUND_REPLY` says. -/
theorem commonOpcodesAreNotAnswered : Obligations.CommonOpcodesAreNotAnswered := by
  intro h pl s i hi
  have hexec : exec i s = commonInbound h s := by rcases hi with rfl | rfl | rfl <;> rfl
  rw [hexec]
  exact ⟨fun hn => handled_silently _ (commonInbound_none hn) (s.replyInit_recognize h) rfl rfl,
    fun hn => handled_default _ (commonInbound_nack hn) (s.replyInit_recognize h)⟩

/-! ### Reboot (R248) and the reset after it (R286, R340) -/

/-- Settles O45: the reboot is requested once the dispatch is over. -/
theorem rebootRequestsAReset : Obligations.RebootRequestsAReset := by
  intro h s hv
  refine ⟨_, deliverApplication_entry hv, rfl, rfl, ?_⟩
  rw [State.handlerDone_of_none rfl, State.endService, State.endPhase_eq]
  simp [State.requestReboot, State.emit, State.noReply, serviceLeft, withRecognized]

/-- Settles O46: what a reboot leaves has the reset line up, and a reset keeps only what a reboot leaves alone. -/
theorem rebootIsFollowedByReset : Obligations.RebootIsFollowedByReset := by
  intro h s t hv hc ht
  obtain ⟨u, hu, -, -, heq⟩ := rebootRequestsAReset h s hv
  obtain rfl : u = t := Host.Outcome.next.inj (hu.symm.trans ht)
  have hcfg : u.cfg = s.cfg := by rw [heq]; rfl
  have hline : u.rebootLine = true := by rw [heq]
  rw [step_of_rebootLine (by rw [hcfg]; exact hc) hline, heq]
  rfl

/-! ### Postpone (R249, R282) -/

/-- The value of four bytes, the lowest first (R13). -/
theorem toNat_u32le (b0 b1 b2 b3 : Byte) :
    (u32le b0 b1 b2 b3).toNat = b0.toNat + 2 ^ 8 * b1.toNat + 2 ^ 16 * b2.toNat + 2 ^ 24 * b3.toNat := by
  have h0 := b0.isLt
  have h1 := b1.isLt
  have h2 := b2.isLt
  simp only [u32le, BitVec.toNat_append]
  rw [← Nat.shiftLeft_add_eq_or_of_lt h2, ← Nat.shiftLeft_add_eq_or_of_lt h1, ← Nat.shiftLeft_add_eq_or_of_lt h0]
  simp only [Nat.shiftLeft_eq]
  omega

theorem postponeHandler_of_short {pl : List Byte} {s : State} (h : pl.length < 4) :
    postponeHandler pl s = .next (s.raiseEvent (.missingArgument 0x12)).handlerDone := if_pos h

theorem postponeHandler_of_accepted {pl : List Byte} {s : State} (h4 : 4 ≤ pl.length)
    (hx : (postponeArgument pl).toNat ≤ s.cfg.postponeMax) :
    postponeHandler pl s = .next ((s.postpone (postponeArgument pl)).setReply appAck []).handlerDone :=
  (if_neg (Nat.not_lt.2 h4)).trans (if_pos (decide_eq_true hx))

theorem postponeHandler_of_too_long {pl : List Byte} {s : State} (h4 : 4 ≤ pl.length)
    (hx : s.cfg.postponeMax < (postponeArgument pl).toNat) :
    postponeHandler pl s = .next ((s.postpone (postponeArgument pl)).setReply 0xFF []).handlerDone :=
  (if_neg (Nat.not_lt.2 h4)).trans (if_neg (by simpa [postponeAccepted] using hx))

/-- Settles O47, by the length of the argument and by the cap. -/
theorem postponeSetsTheDeadlineWithinTheCap : Obligations.PostponeSetsTheDeadlineWithinTheCap := by
  intro h pl s hv
  have hexec := deliverApplication_entry (op := 0x12) (h := h) (pl := pl) (handler := postponeHandler pl) hv
  refine ⟨?argument, fun hlt => ?short⟩
  case argument =>
    rintro b0 b1 b2 b3 rest rfl
    have h4 : 4 ≤ (b0 :: b1 :: b2 :: b3 :: rest).length := by simp
    refine ⟨toNat_u32le b0 b1 b2 b3, fun hx => ?accepted, fun hx => ?tooLong⟩
    case accepted =>
      exact handled_setReply _ (hexec.trans (postponeHandler_of_accepted h4 hx)) (State.postpone_of_accepted hx)
        (by decide)
    case tooLong =>
      exact handled_setReply _ (hexec.trans (postponeHandler_of_too_long h4 hx)) (State.postpone_of_too_long hx)
        (by decide)
  case short => exact handled_default _ (hexec.trans (postponeHandler_of_short hlt)) rfl

/-! ### The time (R250, R251) -/

theorem getTimeHandler_of_not_set {s : State} (h : s.timeSet = false) : getTimeHandler s = .next s.handlerDone :=
  if_neg (by simp [h])

/-- Settles O48, by whether a time was set. -/
theorem getTimeRepliesTheStoredTime : Obligations.GetTimeRepliesTheStoredTime := by
  intro h pl s hv
  have hexec := deliverApplication_entry (op := 0x13) (h := h) (pl := pl) (handler := getTimeHandler) hv
  refine ⟨fun hset hlen => ?stored, fun hset => ?never⟩
  case stored =>
    have hfits : (s.timeVal.readBytes 0 s.cfg.timeBytes).length ≤ 247 := by rwa [Memory.length_readBytes]
    refine handled_setReply _ (hexec.trans ((getTimeHandler_of_set ?_).trans (replyWith_eq ?_))) rfl hfits
    · exact hset
    · exact hfits
  case never => exact handled_default _ (hexec.trans (getTimeHandler_of_not_set hset)) rfl

theorem setTimeHandler_of_short {pl : List Byte} {s : State} (h : pl.length < s.cfg.timeBytes) :
    setTimeHandler pl s = .next (s.raiseEvent (.missingArgument 0x14)).handlerDone := if_pos h

theorem setTimeHandler_of_fits {pl : List Byte} {s : State} (h : s.cfg.timeBytes ≤ pl.length) :
    setTimeHandler pl s =
      .next ({ s with timeVal := s.timeVal.writeBytes 0 (pl.take s.cfg.timeBytes), timeSet := true }.setReply
        appAck []).handlerDone := if_neg (Nat.not_lt.2 h)

/-- A buffer that `bs` was written to from its start holds `bs`, and behind it what it held before. -/
theorem Memory.writeBytes_zero_holds (m : Memory) {bs : List Byte} {n : Nat} (hn : bs.length = n) :
    (m.writeBytes 0 bs).readBytes 0 n = bs ∧ ∀ a, n ≤ a → (m.writeBytes 0 bs).byteAt a = m.byteAt a := by
  subst hn
  exact ⟨Memory.readBytes_writeBytes_same m 0 bs, fun a ha => Memory.byteAt_writeBytes_of_not_mem (.inr (by omega))⟩

/-- Settles O49, by the length of the payload. -/
theorem setTimeStoresTheTime : Obligations.SetTimeStoresTheTime := by
  intro h pl s hv
  have hexec := deliverApplication_entry (op := 0x14) (h := h) (pl := pl) (handler := setTimeHandler pl) hv
  refine ⟨fun hle => ?fits, fun hlt => ?short⟩
  case fits =>
    refine ⟨_, hexec.trans (setTimeHandler_of_fits hle), State.setReply_handledWith _ rfl (by decide), ?_⟩
    simpa [withRecognized] using s.timeVal.writeBytes_zero_holds (List.length_take_of_le hle)
  case short => exact handled_default _ (hexec.trans (setTimeHandler_of_short hlt)) rfl

/-! ### Telemetry (R252, R288) -/

/-- Every layout of the snapshot has the size that the configuration gives (R288, R345). -/
theorem State.length_telemetry {s : State} (hc : configLegal s.cfg = true) :
    s.telemetry.length = s.cfg.telemBytes := by
  simp only [configLegal, Bool.and_eq_true] at hc
  obtain ⟨⟨-, hlegal⟩, -⟩ := hc
  unfold State.telemetry
  split
  case h_1 => simp
  case h_2 bs hbs => simpa [telemLegal, hbs] using hlegal

/-- Settles O50: the snapshot of a legal configuration fits the reply. -/
theorem getTelemRepliesASnapshot : Obligations.GetTelemRepliesASnapshot := by
  intro h pl s hv hc
  have hfits := length_telemetry_le hc
  exact ⟨State.length_telemetry hc,
    handled_setReply _ ((deliverApplication_entry hv).trans (replyWith_eq hfits)) rfl hfits⟩

/-! ### The callsign (R253, R254) -/

theorem setCallsignHandler_of_too_long {pl : List Byte} {s : State} (h : s.cfg.callsignMax < pl.length) :
    setCallsignHandler pl s = .next (s.raiseEvent (.missingArgument 0x1A)).handlerDone := if_pos h

theorem setCallsignHandler_of_fits {pl : List Byte} {s : State} (h : pl.length ≤ s.cfg.callsignMax) :
    setCallsignHandler pl s =
      .next ({ s with callsign := s.callsign.writeBytes 0 pl, callsignLen := pl.length }.setReply appAck
        []).handlerDone := if_neg (Nat.not_lt.2 h)

/-- Settles O51: the stored callsign fits the reply, and a new one is stored by its length. -/
theorem callsignIsStoredAndReplied : Obligations.CallsignIsStoredAndReplied := by
  intro h pl s hv
  have hset := deliverApplication_entry (op := 0x1A) (h := h) (pl := pl) (handler := setCallsignHandler pl) hv
  refine ⟨fun hlen => ?get, fun hle => ?fits, fun hlt => ?tooLong⟩
  case get =>
    have hfits : (s.callsign.readBytes 0 s.callsignLen).length ≤ 247 := by rwa [Memory.length_readBytes]
    exact handled_setReply _ ((deliverApplication_entry hv).trans (replyWith_eq hfits)) rfl hfits
  case fits =>
    refine ⟨_, hset.trans (setCallsignHandler_of_fits hle), State.setReply_handledWith _ rfl (by decide), ?_⟩
    simpa [withRecognized] using s.callsign.writeBytes_zero_holds rfl
  case tooLong => exact handled_default _ (hset.trans (setCallsignHandler_of_too_long hlt)) rfl

end Sys2Proof.Machine
end

section
/-! SUPPORT. O42 to O44: the opcodes without an entry (R237, R256), and which deliveries assert `cmd_recognized`
(R238). -/

namespace Sys2Proof.Machine

/-! ### Unmatched opcodes (R237, R256) -/

/-- R237: in the Bootloader, every opcode without an entry in its table is unmatched, whichever row it has. -/
theorem exec_of_no_bootloader_entry {op : Byte} (h : Header) (pl : List Byte) {s : State}
    (hv : s.cfg.variant = .bootloader) (hn : hasEntry .bootloader op = false) :
    exec (instrOfOpcode op h pl) s = unmatched op h pl (s.replyInit h) := by
  revert hn
  apply instrOfOpcode_cases
    (motive := fun op i => hasEntry .bootloader op = false → exec i s = unmatched op h pl (s.replyInit h)) op h pl
  case reboot =>
    rintro rfl -
    exact deliverApplication_unmatched hv
  case rebootPostpone => exact fun _ _ => deliverApplication_unmatched hv
  case getTime | setTime | getTelem | getCallsign | setCallsign => exact fun _ => deliverApplication_unmatched hv
  case ranging => exact fun _ => execRanging_unmatched hv
  case bootloaderAck | bootloaderNack | rangingAck | telem | callsign => exact fun _ => rfl
  case unassigned => exact fun _ _ => rfl
  all_goals exact fun hn => absurd hn (by decide)

/-- R237, in either variant. -/
theorem exec_of_no_entry {op : Byte} (h : Header) (pl : List Byte) {s : State}
    (hn : hasEntry s.cfg.variant op = false) :
    exec (instrOfOpcode op h pl) s = unmatched op h pl (s.replyInit h) := by
  cases hv : s.cfg.variant with
  | bootloader => exact exec_of_no_bootloader_entry h pl hv (hv ▸ hn)
  | application => exact exec_of_no_application_entry h pl hv (hv ▸ hn)

/-- The Bootloader's answer to what it has no entry for. -/
theorem handled_unmatched_bootloader {op : Byte} {h : Header} {pl : List Byte} {s : State}
    {o : Host.Outcome State Fault Refusal} (hv : s.cfg.variant = .bootloader)
    (ho : o = unmatched op h pl (s.replyInit h)) :
    ∃ t, o = .next t ∧ HandledWith s t h 0xFF [] (fun s => { s with events := s.events ++ [.unknownOpcode op] }) :=
  handled_default _ (ho.trans (unmatched_bootloader hv)) rfl

/-- Settles O42: the reply codes and the unassigned opcodes are rows of their own, the others rows of the opcode map. -/
theorem unmatchedOpcodesAreNackedByTheBootloader : Obligations.UnmatchedOpcodesAreNackedByTheBootloader := by
  refine ⟨fun h pl s i op hv hi => handled_unmatched_bootloader (pl := pl) hv ?row, fun h pl s op hv hn =>
    handled_unmatched_bootloader hv (exec_of_no_bootloader_entry h pl hv hn)⟩
  case row => rcases hi with ⟨rfl, rfl⟩ | ⟨rfl, rfl⟩ | ⟨rfl, rfl⟩ | ⟨rfl, rfl⟩ | ⟨rfl, rfl⟩ | rfl <;> rfl

/-- Settles O43, by the answer of `EXT`. -/
theorem unmatchedOpcodesGoToTheExtension : Obligations.UnmatchedOpcodesGoToTheExtension := by
  intro h pl s op hv hn
  have hexec := (exec_of_no_application_entry h pl hv hn).trans (unmatched_application hv)
  refine ⟨fun hext => ?notTaken, fun hext => ?silent, fun rop rpl hext hfits => ?reply⟩
  all_goals rw [hext] at hexec
  case notTaken => exact handled_default _ hexec rfl
  case silent =>
    refine handled_silently _ hexec ?_ rfl rfl
    rw [State.recognize_eq]
    rfl
  case reply =>
    refine handled_setReply _ (hexec.trans (replyWith_eq hfits)) ?_ hfits
    rw [State.recognize_eq]
    rfl

/-! ### Which deliveries assert `cmd_recognized` (R35, R238) -/

/-- Wherever the delivery goes on, the strobe is `b`. -/
def Strobes (b : Bool) (o : Host.Outcome State Fault Refusal) : Prop := ∀ t, o = .next t → t.cmdRecognized = b

theorem Strobes.next {b : Bool} {u : State} (h : u.cmdRecognized = b) : Strobes b (.next u) := by
  rintro t ⟨⟩
  exact h

theorem Strobes.replyWith {b : Bool} {op : Byte} {pl : List Byte} {u : State} (h : u.cmdRecognized = b) :
    Strobes b (replyWith op pl u) := by
  unfold Machine.replyWith
  split
  · exact .next (by simpa using h)
  · intro t ht
    cases ht

/-- An unmatched opcode is recognized exactly where `EXT` takes it. -/
theorem strobes_unmatched {op : Byte} {h : Header} {pl : List Byte} {s : State} (hs : s.cmdRecognized = false) :
    Strobes (decide (s.cfg.variant = .application) && (extAnswer s.cfg.ext op (messageBytes h op pl)).isSome)
      (unmatched op h pl (s.replyInit h)) := by
  cases hv : s.cfg.variant with
  | bootloader =>
    rw [unmatched_bootloader hv]
    exact .next (by simpa using hs)
  | application =>
    rw [unmatched_application hv]
    cases extAnswer s.cfg.ext op (messageBytes h op pl) with
    | none => exact .next (by simpa using hs)
    | some answer =>
      cases answer with
      | silent => exact .next (by simp)
      | reply rop rpl => exact .replyWith (by simp)

/-- The write-page handler asserts nothing after its first step. -/
theorem strobes_writePageDone (pl : List Byte) (s : State) : Strobes s.cmdRecognized (writePageDone pl s) := by
  have htail (w : State) (i : Byte) : (w.pageTail i).cmdRecognized = w.cmdRecognized := by
    unfold State.pageTail State.page255Tail
    split
    · split <;> rfl
    · rfl
  unfold writePageDone
  dsimp only
  split
  · exact .next (by simp [htail, State.writePage])
  · exact .next (by simp [State.writePage])

theorem strobes_writePageStart (pl : List Byte) (s : State) : Strobes s.cmdRecognized (writePageStart pl s) := by
  unfold writePageStart
  split
  · exact .next (by simp)
  · split
    · exact .next rfl
    · exact strobes_writePageDone pl s

theorem strobes_postponeHandler (pl : List Byte) (s : State) : Strobes s.cmdRecognized (postponeHandler pl s) := by
  have hpostpone (x : U32) : (s.postpone x).cmdRecognized = s.cmdRecognized := by
    unfold State.postpone
    split <;> rfl
  unfold postponeHandler
  split
  · exact .next (by simp)
  · dsimp only
    split <;> exact .next (by simp [hpostpone])

theorem strobes_getTimeHandler (s : State) : Strobes s.cmdRecognized (getTimeHandler s) := by
  unfold getTimeHandler
  split
  · exact .replyWith rfl
  · exact .next (by simp)

theorem strobes_setTimeHandler (pl : List Byte) (s : State) : Strobes s.cmdRecognized (setTimeHandler pl s) := by
  unfold setTimeHandler
  split <;> exact .next (by simp)

theorem strobes_setCallsignHandler (pl : List Byte) (s : State) :
    Strobes s.cmdRecognized (setCallsignHandler pl s) := by
  unfold setCallsignHandler
  split <;> exact .next (by simp)

theorem strobes_commonInbound (h : Header) (s : State) : Strobes true (commonInbound h s) := by
  unfold commonInbound
  split <;> exact .next (by simp)

/-- A handler of the Application's table that leaves the strobe as it finds it runs with the strobe asserted. -/
theorem strobes_deliverApplication {op : Byte} {h : Header} {pl : List Byte}
    {handler : State → Host.Outcome State Fault Refusal} {s : State} (hv : s.cfg.variant = .application)
    (hh : ∀ u, Strobes u.cmdRecognized (handler u)) : Strobes true (deliverApplication op h pl handler s) := by
  rw [deliverApplication_entry hv]
  exact hh _

/-- The match tables hold assigned opcodes only (R101, R236). -/
theorem assigned_of_hasEntry {v : Variant} {op : Byte} (he : hasEntry v op = true) :
    assignedOpcodes.contains op = true := by
  cases v with
  | bootloader =>
    have hsub : [0x00, 0x02, 0x0C, 0x10, 0x11, 0xFF] ⊆ assignedOpcodes := by decide
    exact List.contains_iff_mem.2 (hsub (List.contains_iff_mem.1 he))
  | application =>
    have hsub : [0x10, 0x11, 0xFF, 0x12, 0x13, 0x14, 0x15, 0x17, 0x19, 0x1A] ⊆ assignedOpcodes := by decide
    exact List.contains_iff_mem.2 (hsub (List.contains_iff_mem.1 he))

/-- The entries of the Bootloader's table but erase, which asserts the strobe last (R240). -/
theorem strobes_bootloader_entry {op : Byte} (h : Header) (pl : List Byte) {s : State}
    (hv : s.cfg.variant = .bootloader) (hm : s.ml ≠ .programming) (he : hasEntry .bootloader op = true)
    (hop : op ≠ 0x0C) : Strobes true (exec (instrOfOpcode op h pl) s) := by
  revert he hop
  apply instrOfOpcode_cases
    (motive := fun op i => hasEntry .bootloader op = true → op ≠ 0x0C → Strobes true (exec i s)) op h pl
  case ping =>
    intro _ _
    change Strobes true (deliverBootloader _ _ _ _ _)
    rw [deliverBootloader_entry hv]
    exact .next (by simp [withRecognized])
  case writePage =>
    intro _ _
    change Strobes true (execWritePage h pl s)
    rw [execWritePage_start hv hm, ← State.recognize_cmdRecognized (s.replyInit h)]
    exact strobes_writePageStart pl _
  case ack | ascii | nack => exact fun _ _ => strobes_commonInbound h s
  case erase => exact fun _ hop => absurd rfl hop
  case unassigned => exact fun hn he => absurd (assigned_of_hasEntry he) (Bool.eq_false_iff.1 hn)
  case reboot | rebootPostpone => exact fun _ he => absurd he (by decide)
  all_goals exact fun he => absurd he (by decide)

/-- The entries of the Application's table. -/
theorem strobes_application_entry {op : Byte} (h : Header) (pl : List Byte) {s : State}
    (hv : s.cfg.variant = .application) (hm : s.ml ≠ .ranging) (he : hasEntry .application op = true) :
    Strobes true (exec (instrOfOpcode op h pl) s) := by
  revert he
  apply instrOfOpcode_cases (motive := fun op i => hasEntry .application op = true → Strobes true (exec i s)) op h pl
  case ack | ascii | nack => exact fun _ => strobes_commonInbound h s
  case reboot => exact fun _ _ => strobes_deliverApplication hv fun _ => .next (by simp)
  case rebootPostpone => exact fun _ _ => strobes_deliverApplication hv (strobes_postponeHandler pl)
  case getTime => exact fun _ => strobes_deliverApplication hv strobes_getTimeHandler
  case setTime => exact fun _ => strobes_deliverApplication hv (strobes_setTimeHandler pl)
  case getTelem => exact fun _ => strobes_deliverApplication hv fun _ => .replyWith rfl
  case getCallsign => exact fun _ => strobes_deliverApplication hv fun _ => .replyWith rfl
  case setCallsign => exact fun _ => strobes_deliverApplication hv (strobes_setCallsignHandler pl)
  case ranging =>
    intro _
    change Strobes true (execRanging h pl s)
    rw [execRanging_start hv hm]
    exact .next (by simp [State.rangingTx, State.rangingReply])
  case unassigned => exact fun hn he => absurd (assigned_of_hasEntry he) (Bool.eq_false_iff.1 hn)
  all_goals exact fun he => absurd he (by decide)

@[simp] theorem State.erasePage_cmdRecognized (s : State) (p : Nat) :
    (s.erasePage p).cmdRecognized = s.cmdRecognized := by
  unfold State.erasePage
  split <;> rfl

/-- Erase asserts the strobe in the step in which it leaves `erase_app` (R240). -/
theorem execErase_recognized_iff {h : Header} {pl : List Byte} {s t : State} (hv : s.cfg.variant = .bootloader)
    (hs : s.cmdRecognized = false) (ht : execErase h pl s = .next t) :
    t.cmdRecognized = true ↔ handling t.ml = false := by
  by_cases hm : ∃ p, s.ml = .erasing p
  case neg =>
    rw [execErase_start hv fun p hp => hm ⟨p, hp⟩] at ht
    cases ht
    simp [handling, hs]
  case pos =>
    obtain ⟨p, hp⟩ := hm
    rw [execErase_next hv hp, eraseNext] at ht
    split at ht <;> cases ht
    case isTrue => simp [handling, hs]
    case isFalse =>
      rw [State.handlerDone_of_reply (State.setReply_replyLen_ne (by decide))]
      simp [handling]

/-- Settles O44: by the variant, and by whether the opcode has an entry there; and the steps of the handlers that
block. -/
theorem recognizedExactlyByEntriesAndTheExtension : Obligations.RecognizedExactlyByEntriesAndTheExtension := by
  intro op h pl s t hs ht
  refine ⟨fun hprog hrang hop => ?entries, ?erase, ?writePage, ?ranging⟩
  case entries =>
    cases he : hasEntry s.cfg.variant op with
    | true =>
      have hrec : t.cmdRecognized = true := by
        cases hv : s.cfg.variant with
        | bootloader =>
          exact strobes_bootloader_entry h pl hv hprog (hv ▸ he) (hop.resolve_left (by simp [hv])) t ht
        | application => exact strobes_application_entry h pl hv hrang (hv ▸ he) t ht
      simp [hrec]
    | false =>
      have hstrobe := strobes_unmatched hs t ((exec_of_no_entry h pl he).symm.trans ht)
      simp [hstrobe]
  case erase =>
    rintro hv rfl
    exact execErase_recognized_iff hv hs ht
  case writePage =>
    rintro hv rfl hm
    exact (strobes_writePageDone pl s t ((execWritePage_done hv hm).symm.trans ht)).trans hs
  case ranging =>
    rintro hv rfl hm
    have hdone : Strobes s.cmdRecognized (rangingDone s) := .next (by simp)
    exact (hdone t ((execRanging_done hv hm).symm.trans ht)).trans hs

end Sys2Proof.Machine
end

section
/-! SUPPORT. O36 to O38: the write-page handler, in its first step and after the programming (R241, R242, R271). -/

namespace Sys2Proof.Machine

/-! ### The payload and the address check -/

theorem pageIndex_cons (i : Byte) (data extra : List Byte) : pageIndex (i :: data ++ extra) = i := rfl

theorem pageData_cons {i : Byte} {data extra : List Byte} (hd : data.length = 128) :
    pageData (i :: data ++ extra) = data := by
  simp [pageData, hd]

theorem length_page_le {i : Byte} {data extra : List Byte} (hd : data.length = 128) :
    129 ≤ (i :: data ++ extra).length := by
  rw [List.cons_append, List.length_cons, List.length_append]
  omega

theorem pageCheck_of_mem {c : Config} {i : Byte} (hlo : c.appStart ≤ i.toNat * 128)
    (hhi : i.toNat * 128 + 128 ≤ c.appEnd + 1) : pageCheck c i = .ok := by
  simp only [pageCheck, if_neg (Nat.not_lt.2 hlo), if_pos hhi]

/-! ### What `write_page` does (R271, R279) -/

theorem State.pageResult_of_taken {s : State} {i : Byte} (hc : pageCheck s.cfg i = .ok)
    (ha : s.flashAnswers.headD true = true) : s.pageResult i = .ok := by
  simp only [State.pageResult, hc, ha, if_true]

/-- A write that the flash takes: recorded, and the page programmed. -/
theorem State.writePage_of_taken {s : State} {i : Byte} (data : List Byte) (hc : pageCheck s.cfg i = .ok)
    (ha : s.flashAnswers.headD true = true) :
    s.writePage i data = { s with
      calls := s.calls ++ [.writePage i data .ok], flash := s.flash.writeBytes (i.toNat * 128) data,
      flashAnswers := s.flashAnswers.tail } := by
  simp [State.writePage, State.pageResult_of_taken hc ha, State.answersLeft, hc, State.logCall]

/-- A programming failure is `ErrProtected` (D53). -/
theorem State.pageResult_of_failed {s : State} {i : Byte} (hc : pageCheck s.cfg i = .ok)
    (ha : s.flashAnswers.headD true = false) : s.pageResult i = .errProtected := by
  simp only [State.pageResult, hc, ha]
  rfl

/-- A write that the flash does not take: recorded, and one of its answers used up. -/
theorem State.writePage_of_failed {s : State} {i : Byte} (data : List Byte) (hc : pageCheck s.cfg i = .ok)
    (ha : s.flashAnswers.headD true = false) :
    s.writePage i data = { s with
      calls := s.calls ++ [.writePage i data .errProtected], flashAnswers := s.flashAnswers.tail } := by
  simp [State.writePage, State.pageResult_of_failed hc ha, State.answersLeft, hc, State.logCall]

theorem State.pageResult_of_refused {s : State} {i : Byte} (hc : pageCheck s.cfg i ≠ .ok) :
    s.pageResult i = pageCheck s.cfg i := by
  unfold State.pageResult
  split
  · exact absurd ‹_› hc
  · rfl

/-- A write that is refused by its address uses up none of the flash's answers. -/
theorem State.writePage_of_refused {s : State} {i : Byte} (data : List Byte) (hc : pageCheck s.cfg i ≠ .ok) :
    s.writePage i data = s.logCall (.writePage i data (pageCheck s.cfg i)) := by
  cases hr : pageCheck s.cfg i with
  | ok => exact absurd hr hc
  | errProtected | errBadAddr =>
    simp [State.writePage, State.pageResult_of_refused hc, hr, State.answersLeft, State.logCall]

/-! ### The steps of the handler (R241) -/

theorem writePageDone_of_ok {pl : List Byte} {s : State} (hr : s.pageResult (pageIndex pl) = .ok) :
    writePageDone pl s =
      .next ((((s.writePage (pageIndex pl) (pageData pl)).pageTail (pageIndex pl)).setReply blAck
        [pageIndex pl]).handlerDone) := by
  simp only [writePageDone, hr]

theorem writePageDone_of_not_ok {pl : List Byte} {s : State} {r : PageResult}
    (hr : s.pageResult (pageIndex pl) = r) (hn : r ≠ .ok) :
    writePageDone pl s =
      .next ((((s.writePage (pageIndex pl) (pageData pl)).raiseEvent (.flashRejected (pageIndex pl) r)).setReply blNack
        []).handlerDone) := by
  cases r with
  | ok => exact absurd rfl hn
  | errProtected | errBadAddr => simp only [writePageDone, hr]

theorem writePageStart_of_short {pl : List Byte} {s : State} (hl : pl.length < 129) :
    writePageStart pl s = .next ((s.raiseEvent (.missingArgument 0x02)).setReply blNack []).handlerDone := if_pos hl

theorem writePageStart_of_mem {pl : List Byte} {s : State} (hl : 129 ≤ pl.length)
    (hc : pageCheck s.cfg (pageIndex pl) = .ok) : writePageStart pl s = .next { s with ml := .programming } := by
  simp only [writePageStart, if_neg (Nat.not_lt.2 hl), hc]

theorem writePageStart_of_refused {pl : List Byte} {s : State} (hl : 129 ≤ pl.length)
    (hc : pageCheck s.cfg (pageIndex pl) ≠ .ok) : writePageStart pl s = writePageDone pl s := by
  rw [writePageStart, if_neg (Nat.not_lt.2 hl)]
  split
  · exact absurd ‹_› hc
  · rfl

theorem State.pageTail_of_ne (s : State) {i : Byte} (hi : i ≠ 0xFF) : s.pageTail i = s := if_neg hi

theorem State.pageTail_255 (s : State) : s.pageTail 0xFF = s.page255Tail := if_pos rfl

/-- A handler that goes on after it was blocked, and ends with `setReply` over the header of its first step. -/
theorem State.setReply_handledWith_of_header {s t : State} {h : Header} {op : Byte} {pl : List Byte}
    (f : State → State) (ht : t = { f s with reply := s.reply, ml := s.ml })
    (hr : s.reply.readBytes 0 5 = replyHeader s.cfg h) (hl : pl.length ≤ 247) :
    HandledWith s (t.setReply op pl).handlerDone h op pl f := by
  obtain ⟨u, hu, hw⟩ := handled_resumed f rfl ht hr hl
  exact Host.Outcome.next.inj hu ▸ hw

/-- The state in which ML is blocked in the programming: recognized, with the header-only NACK as the reply. -/
def State.startProgramming (s : State) (h : Header) : State :=
  { withRecognized s with reply := (s.replyInit h).reply, replyLen := 6, ml := .programming }

theorem exec_writePage_of_mem {h : Header} {pl : List Byte} {s : State} (hv : s.cfg.variant = .bootloader)
    (hm : s.ml ≠ .programming) (hl : 129 ≤ pl.length) (hc : pageCheck s.cfg (pageIndex pl) = .ok) :
    exec (.writePage h pl) s = .next (s.startProgramming h) := by
  refine (execWritePage_start hv hm).trans ((writePageStart_of_mem hl (by simpa using hc)).trans ?_)
  rw [State.replyInit_recognize]
  rfl

/-- What the flash holds after a page was programmed: its data, and beside it what it held before (R271). -/
theorem Memory.writeBytes_page {m : Memory} {a : Nat} {data : List Byte} (hd : data.length = 128) :
    (m.writeBytes a data).readBytes a 128 = data ∧
      ∀ k, (k < a ∨ a + 128 ≤ k) → (m.writeBytes a data).byteAt k = m.byteAt k := by
  rw [← hd]
  exact ⟨Memory.readBytes_writeBytes_same m a data, fun k hk => Memory.byteAt_writeBytes_of_not_mem hk⟩

/-- Settles O36: the first step blocks, and the step after the programming writes the page. -/
theorem writePageStoresThePage : Obligations.WritePageStoresThePage := by
  intro h i data extra s hv hd hlo hhi
  have hc := pageCheck_of_mem hlo hhi
  refine ⟨fun hm => ?start, fun hm ha hi hr => ?done⟩
  case start =>
    have hl := length_page_le (i := i) (extra := extra) hd
    exact ⟨_, exec_writePage_of_mem hv hm hl hc, s.replyInit_repliesWith h, rfl⟩
  case done =>
    have ho := (execWritePage_done (h := h) hv hm).trans
      (writePageDone_of_ok (pl := i :: data ++ extra) (s.pageResult_of_taken hc ha))
    rw [pageIndex_cons, pageData_cons hd, State.writePage_of_taken data hc ha, State.pageTail_of_ne _ hi] at ho
    refine ⟨_, ho, State.setReply_handledWith_of_header _ ?_ hr (by simp), ?_⟩
    · simp
    · simpa using Memory.writeBytes_page hd

/-- Settles O38, by what refuses the write: its address, the flash, or its length. -/
theorem rejectedWritesLeaveFlashAlone : Obligations.RejectedWritesLeaveFlashAlone := by
  refine ⟨fun h pl s r hv hm hl hc hn => ?address, fun h pl s hv hm hc ha hr => ?flash, fun h pl s hv hm hl => ?short⟩
  case address =>
    subst hc
    have hu : pageCheck (s.replyInit h).recognize.cfg (pageIndex pl) ≠ .ok := by simpa using hn
    have ho := (execWritePage_start hv hm).trans ((writePageStart_of_refused hl hu).trans
      (writePageDone_of_not_ok (State.pageResult_of_refused hu) hu))
    rw [State.writePage_of_refused _ hu, State.recognize_cfg, State.replyInit_cfg, State.replyInit_recognize] at ho
    exact handled_setReply _ ho rfl (by decide)
  case flash =>
    have ho := (execWritePage_done (h := h) hv hm).trans
      (writePageDone_of_not_ok (s.pageResult_of_failed hc ha) (by simp))
    rw [State.writePage_of_failed _ hc ha] at ho
    exact handled_resumed _ ho rfl hr (by decide)
  case short =>
    have ho := (execWritePage_start (h := h) hv hm).trans (writePageStart_of_short hl)
    rw [State.replyInit_recognize] at ho
    exact handled_setReply _ ho rfl (by decide)

/-! ### Page 255 (R242, R280) -/

theorem State.length_verifyEach (s : State) : s.verifyEach.length = 3 := by simp [State.verifyEach, keyRing]

theorem State.page255Tail_eq (s : State) :
    s.page255Tail = { s with
      calls := s.calls ++ [.verify s.verifies], macEvals := s.macEvals + 3,
      keepalive :=
        if s.verifies = true then narrowKeepalive s.cfg.keepaliveForm (s.keepalive + s.cfg.keepaliveExtend)
        else s.keepalive,
      events := if s.verifies = true then s.events else s.events ++ [.authFailed] } := by
  cases hv : s.verifies <;>
    simp [State.page255Tail, hv, State.verify, State.length_verifyEach, State.logCall, State.raiseEvent]

/-- The step in which the programming of page 255 ends. -/
theorem exec_writePage_255 {h : Header} {data extra : List Byte} {s : State} (hv : s.cfg.variant = .bootloader)
    (hd : data.length = 128) (hc : pageCheck s.cfg 0xFF = .ok) (ha : s.flashAnswers.headD true = true)
    (hm : s.ml = .programming) (hr : s.reply.readBytes 0 5 = replyHeader s.cfg h) :
    ∃ t v, exec (.writePage h (0xFF :: data ++ extra)) s = .next t ∧
      t.flash = s.flash.writeBytes 0x7F80 data ∧ v = { s with flash := t.flash }.verifies ∧
      HandledWith s t h 0x01 [0xFF] (fun s => { s with
        calls := s.calls ++ [.writePage 0xFF data .ok, .verify v], macEvals := s.macEvals + 3, flash := t.flash,
        flashAnswers := s.flashAnswers.tail,
        keepalive := if v = true then narrowKeepalive s.cfg.keepaliveForm (s.keepalive + s.cfg.keepaliveExtend)
          else s.keepalive,
        events := if v = true then s.events else s.events ++ [.authFailed] }) := by
  have ho := (execWritePage_done (h := h) hv hm).trans
    (writePageDone_of_ok (pl := 0xFF :: data ++ extra) (s.pageResult_of_taken hc ha))
  rw [pageIndex_cons, pageData_cons hd, State.writePage_of_taken data hc ha, State.pageTail_255,
    State.page255Tail_eq] at ho
  refine ⟨_, _, ho, by simp, rfl, State.setReply_handledWith_of_header _ ?_ hr (by simp)⟩
  simp only [List.append_assoc, List.cons_append, List.nil_append]
  rfl

/-- Settles O37: the step that ends the programming, and before it the step that refreshes the keep-alive. -/
theorem page255VerifiesTheImage : Obligations.Page255VerifiesTheImage := by
  intro h data extra s hv hd hlo hhi ha
  have hc : pageCheck s.cfg 0xFF = .ok := pageCheck_of_mem hlo (Nat.succ_le_succ hhi)
  refine ⟨fun hm hr => ?done, fun hm => ?fromStart⟩
  case done =>
    obtain ⟨t, v, ho, hflash, hver, hw⟩ := exec_writePage_255 (extra := extra) hv hd hc ha hm hr
    refine ⟨t, v, ho, hver, hw, ?_, ?_, fun hexact hauth => ?_⟩
    · rw [hflash]; exact (Memory.writeBytes_page hd).1
    · rw [hflash]; exact (Memory.writeBytes_page hd).2
    · obtain ⟨-, heq⟩ := hw
      have hkeep := congrArg State.keepalive heq
      simpa [hexact, hauth, narrowKeepalive] using hkeep
  case fromStart =>
    have hl := length_page_le (i := 0xFF) (extra := extra) hd
    have hstart := exec_writePage_of_mem (h := h) hv hm hl hc
    obtain ⟨t, v, hend, -, hver, -, heq⟩ := exec_writePage_255 (h := h) (extra := extra)
      (s := s.startProgramming h) hv hd hc ha rfl (s.replyInit_header h)
    have hrefreshed : (s.startProgramming h).keepalive = s.cfg.keepaliveInit := if_pos hv
    have hkeep : t.keepalive =
        if v = true then narrowKeepalive s.cfg.keepaliveForm (s.cfg.keepaliveInit + s.cfg.keepaliveExtend)
        else s.cfg.keepaliveInit := by
      rw [← hrefreshed]
      exact congrArg State.keepalive heq
    have hauth : ({ s with flash := t.flash } : State).verifies = v := hver.symm
    refine ⟨t, by simp only [execTimes, hstart, hend], ?_, ?_⟩
    · rw [hauth]
      rintro rfl
      exact ⟨hkeep, fun hexact => by simpa [hexact, narrowKeepalive] using hkeep⟩
    · rw [hauth]
      rintro rfl
      exact hkeep

end Sys2Proof.Machine
end

section
/-! SUPPORT. O34: erase, page by page; a run of it by induction on the pages that are left (R240, R270). -/

namespace Sys2Proof.Machine

/-! ### One page (R270) -/

/-- What erase leaves when `erase_app` has returned, with the flash `m`: recognized, and "erased" replied (R240). -/
def State.erased (s : State) (m : Memory) : State :=
  ({ withRecognized s with flash := m }.setReply blAck erasedText).handlerDone

/-- Neither the flash that erase found nor the page it stood at is in what it leaves. -/
theorem State.erased_congr (s : State) (m m' : Memory) (p : MlPhase) :
    ({ s with flash := m', ml := p } : State).erased m = s.erased m := by
  have hne {t : State} : (t.setReply blAck erasedText).replyLen ≠ 0 := State.setReply_replyLen_ne (by decide)
  rw [State.erased, State.erased, State.handlerDone_of_reply hne, State.handlerDone_of_reply hne]
  rfl

@[simp] theorem State.erased_flash (s : State) (m : Memory) : (s.erased m).flash = m := by simp [State.erased]

theorem eraseNext_of_lt {p : Nat} {s : State} (hlo : firstPage s.cfg ≤ p) (hp : p < lastPage s.cfg) :
    eraseNext p s = .next { s with flash := s.flash.fill (p * 128) 128 s.cfg.erasedByte, ml := .erasing (p + 1) } := by
  rw [eraseNext, if_pos hp, State.erasePage_of_mem hlo hp.le]

theorem eraseNext_of_eq {p : Nat} {s : State} (hlo : firstPage s.cfg ≤ p) (hp : p = lastPage s.cfg) :
    eraseNext p s = .next (s.erased (s.flash.fill (p * 128) 128 s.cfg.erasedByte)) := by
  rw [eraseNext, if_neg hp.not_lt, State.erasePage_of_mem hlo hp.le, State.recognize_eq]
  rfl

/-! ### A run of pages -/

/-- `n` pages from page `p` on all read as `v`. -/
def Memory.fillPages (v : Byte) : Nat → Nat → Memory → Memory
  | _, 0, m => m
  | p, n + 1, m => Memory.fillPages v (p + 1) n (m.fill (p * 128) 128 v)

theorem Memory.byteAt_fillPages (v : Byte) (p n : Nat) (m : Memory) (k : Nat) :
    (Memory.fillPages v p n m).byteAt k = if p * 128 ≤ k ∧ k < (p + n) * 128 then v else m.byteAt k := by
  induction n generalizing p m with
  | zero => rw [Memory.fillPages, if_neg (by omega)]
  | succ n ih =>
    rw [Memory.fillPages, ih, Memory.byteAt_fill]
    by_cases hk : p * 128 ≤ k ∧ k < (p + (n + 1)) * 128
    · rw [if_pos hk]
      split
      · rfl
      · rw [if_pos (by omega)]
    · rw [if_neg hk, if_neg (by omega), if_neg (by omega)]

/-- Erase run on from page `p`, with `n` pages after it. -/
theorem execTimes_erase {h : Header} {pl : List Byte} {s : State} {p n : Nat} (hv : s.cfg.variant = .bootloader)
    (hlo : firstPage s.cfg ≤ p) (hn : p + n = lastPage s.cfg) (hm : s.ml = .erasing p) :
    execTimes (.erase h pl) (n + 1) s = some (s.erased (Memory.fillPages s.cfg.erasedByte p (n + 1) s.flash)) := by
  induction n generalizing p s with
  | zero =>
    have hexec : exec (.erase h pl) s = _ := (execErase_next hv hm).trans (eraseNext_of_eq hlo hn)
    rw [execTimes, hexec]
    rfl
  | succ n ih =>
    have hexec : exec (.erase h pl) s = _ := (execErase_next hv hm).trans (eraseNext_of_lt hlo (by omega))
    rw [execTimes, hexec]
    have hn' : p + 1 + n = lastPage s.cfg := by omega
    exact (ih (s := { s with flash := s.flash.fill (p * 128) 128 s.cfg.erasedByte, ml := .erasing (p + 1) }) hv
      (Nat.le_succ_of_le hlo) hn' rfl).trans (congrArg some (s.erased_congr _ _ _))

/-! ### The obligation -/

/-- The application region is its pages, from the first to the last (R345). -/
theorem region_eq_pages {c : Config} (hc : flashMapLegal c = true) :
    firstPage c ≤ lastPage c ∧ firstPage c * 128 = c.appStart ∧ (lastPage c + 1) * 128 = c.appEnd + 1 := by
  simp only [flashMapLegal, Bool.and_eq_true, beq_iff_eq, decide_eq_true_eq] at hc
  obtain ⟨⟨⟨⟨⟨⟨hstart, hend⟩, hle⟩, -⟩, -⟩, -⟩, -⟩ := hc
  simp only [firstPage, lastPage]
  omega

/-- The call of `erase_app` and the erase of every page, run on (R270). -/
theorem execTimes_erase_from_call {h : Header} {pl : List Byte} {s : State} (hv : s.cfg.variant = .bootloader)
    (hm : ∀ p, s.ml ≠ .erasing p) (hle : firstPage s.cfg ≤ lastPage s.cfg) :
    execTimes (.erase h pl) (lastPage s.cfg - firstPage s.cfg + 1 + 1) s = some
      ((s.replyInit h).beginErase.erased (Memory.fillPages s.cfg.erasedByte (firstPage s.cfg)
        (lastPage s.cfg - firstPage s.cfg + 1) s.flash)) := by
  have hcall : exec (.erase h pl) s = _ := execErase_start hv hm
  rw [execTimes, hcall]
  exact execTimes_erase (s := (s.replyInit h).beginErase) hv (Nat.le_refl _) (Nat.add_sub_cancel' hle) rfl

/-- Settles O34: the call, the run of it over all pages, and each page's step. -/
theorem eraseClearsTheApplicationRegion : Obligations.EraseClearsTheApplicationRegion := by
  intro h pl s hv hc
  obtain ⟨hle, hstart, hend⟩ := region_eq_pages hc
  refine ⟨fun hm => ⟨⟨_, execErase_start hv hm, s.replyInit_repliesWith h, rfl⟩, ?run⟩, fun p hm hlo hhi => ?page⟩
  case run =>
    have hsteps : s.cfg.appEnd / 128 + 2 - s.cfg.appStart / 128 = lastPage s.cfg - firstPage s.cfg + 1 + 1 := by
      simp only [firstPage, lastPage] at hle ⊢
      omega
    rw [hsteps]
    refine ⟨_, execTimes_erase_from_call hv hm hle, ?_, fun a => ?_⟩
    · rw [State.erased_flash]
      exact State.setReply_handledWith _ rfl (by decide)
    · rw [State.erased_flash, Memory.byteAt_fillPages]
      exact if_congr (by omega) rfl rfl
  case page =>
    have hlo' : firstPage s.cfg ≤ p := by omega
    rcases Nat.lt_or_eq_of_le (show p ≤ lastPage s.cfg by omega) with hp | hp
    · have hexec : exec (.erase h pl) s = _ := (execErase_next hv hm).trans (eraseNext_of_lt hlo' hp)
      exact ⟨_, hexec, s.flash.byteAt_fill _ _ _, fun _ => rfl, fun hlast => absurd hlast (by omega)⟩
    · have hexec : exec (.erase h pl) s = _ := (execErase_next hv hm).trans (eraseNext_of_eq hlo' hp)
      refine ⟨_, hexec, ?_, fun hnext => absurd hnext (by omega), fun _ hr => ?_⟩
      · rw [State.erased_flash]
        exact s.flash.byteAt_fill _ _ _
      · rw [State.erased_flash]
        exact State.setReply_handledWith_of_header _ rfl hr (by decide)

end Sys2Proof.Machine
end

section
/-! SUPPORT. O52: the ranging handler, in its first step and after its transmission (R255, R287). -/

namespace Sys2Proof.Machine

/-- What was written behind the first `n` bytes of a buffer is read behind them. -/
theorem Memory.readBytes_writeBytes_behind (m : Memory) (n : Nat) (bs : List Byte) :
    (m.writeBytes n bs).readBytes 0 (n + bs.length) = m.readBytes 0 n ++ bs := by
  rw [Memory.readBytes_add, Memory.readBytes_writeBytes_disjoint (.inl (by omega)), Nat.zero_add,
    Memory.readBytes_writeBytes_same]

/-- The reply buffer with the ranging reply in it (R255). -/
def State.rangingBuffer (s : State) (h : Header) : Memory :=
  (s.replyInit h).reply.writeBytes 5 (0x16 :: s.cfg.rangingPayload)

/-- The ranging reply: the header every reply has, and behind it its opcode and payload (R205, R255). -/
theorem State.rangingBuffer_readBytes (s : State) (h : Header) :
    (s.rangingBuffer h).readBytes 0 (6 + s.cfg.rangingPayload.length) =
      replyHeader s.cfg h ++ 0x16 :: s.cfg.rangingPayload := by
  have hlen : 6 + s.cfg.rangingPayload.length = 5 + (0x16 :: s.cfg.rangingPayload).length := by
    rw [List.length_cons]
    omega
  rw [State.rangingBuffer, hlen, Memory.readBytes_writeBytes_behind, State.replyInit_header]

theorem State.rangingBuffer_byteAt (s : State) (h : Header) {a : Nat} (ha : 6 + s.cfg.rangingPayload.length ≤ a) :
    (s.rangingBuffer h).byteAt a = s.reply.byteAt a := by
  obtain ⟨-, -, hrest⟩ := s.replyInit_repliesWith h
  rw [State.rangingBuffer, Memory.byteAt_writeBytes_of_not_mem (.inr (by rw [List.length_cons]; omega))]
  exact hrest a (by rw [List.length_nil]; omega)

/-- The first step, with `m` the ranging reply: the packet of `m` goes out and ML is blocked. -/
theorem rangingStart_eq {s : State} {h : Header} {m : List Byte}
    (hm : m = replyHeader s.cfg h ++ 0x16 :: s.cfg.rangingPayload) :
    rangingStart (s.replyInit h) = .next { withRecognized s with
      outs := s.outs ++ [.cmdRecognized, .rngTx (buildPacket s.cfg.crc m s.msgFbit)],
      calls := s.calls ++ [.rangingTx m s.msgFbit], rxArmed := false, reply := s.rangingBuffer h, replyLen := 6,
      ml := .ranging } := by
  have hread := (s.rangingBuffer_readBytes h).trans hm.symm
  rw [← hread]
  simp only [rangingStart, State.replyInit_recognize]
  simp [State.rangingTx, State.rangingReply, State.logCall, State.emit, withRecognized, State.rangingBuffer]

theorem rangingDone_eq (s : State) :
    rangingDone s = .next { s with rxArmed := true, replyLen := 0, ml := serviceLeft s } := by
  rw [rangingDone, State.handlerDone_of_none rfl, State.endService, State.endPhase_eq]
  rfl

/-- Settles O52: the step that sends and blocks, and the step after the transmission. -/
theorem rangingAnswersByTheRangingPath : Obligations.RangingAnswersByTheRangingPath := by
  intro h pl s hv
  refine ⟨fun hm => ?start, fun hm => (execRanging_done hv hm).trans (rangingDone_eq s)⟩
  have hlen : (replyHeader s.cfg h ++ 0x16 :: s.cfg.rangingPayload).length = 6 + s.cfg.rangingPayload.length := by
    rw [← s.rangingBuffer_readBytes h, Memory.length_readBytes]
  refine ⟨_, _, (execRanging_start hv hm).trans (rangingStart_eq rfl), rfl, ?_, fun a ha => ?_, rfl⟩
  · rw [hlen]
    exact s.rangingBuffer_readBytes h
  · rw [hlen] at ha
    exact s.rangingBuffer_byteAt h ha

end Sys2Proof.Machine
end

section
/-! SUPPORT. O54: the clocks, the idle limit and the deadline, said once for each outcome (R283, R285, R286). -/

namespace Sys2Proof.Machine

/-- A receiver reset is requested in any case, and has its effect where nothing is transmitted (R285; log 29). -/
theorem State.rxReset_eq (s : State) :
    s.rxReset = { s with
      outs := s.outs ++ [.rxReset], rxFull := if s.transmitting = false then false else s.rxFull,
      rxArmed := if s.transmitting = false then true else s.rxArmed } := by
  cases ht : s.transmitting with
  | true => exact State.rxReset_of_transmitting ht
  | false => exact State.rxReset_of_not_transmitting ht

theorem State.tickIdle_of_over {s : State} (h : s.cfg.rxIdleMax < s.idleTicks.toNat) :
    s.tickIdle = { s.rxReset with idleTicks := 0 } := if_pos h

theorem State.tickIdle_of_within {s : State} (h : ¬ s.cfg.rxIdleMax < s.idleTicks.toNat) : s.tickIdle = s := if_neg h

/-- The reboot is requested past the deadline, and nothing else happens there (R283, R286). -/
theorem State.tickDeadline_eq (s : State) :
    s.tickDeadline = { s with
      outs := s.outs ++ (if decide (s.deadline.toNat < s.uptime.toNat) then [.rebootReq] else []),
      rebootLine := s.rebootLine || decide (s.deadline.toNat < s.uptime.toNat) } := by
  unfold State.tickDeadline
  by_cases h : s.deadline.toNat < s.uptime.toNat
  · simp [h, State.requestReboot, State.emit]
  · simp [h]

/-- A transmission is in flight neither as a radio send nor as the ranging transmission (log 37). -/
theorem State.not_transmitting_iff {s : State} : s.transmitting = false ↔ s.txBusy = false ∧ s.ml ≠ .ranging := by
  simp [State.transmitting]

/-- Settles O54, by whether the idle limit is passed; the deadline is compared after it. -/
theorem tickAdvancesTheScheduler : Obligations.TickAdvancesTheScheduler := by
  rintro s idle late hidle rfl
  show Host.Outcome.next s.countTick.tickIdle.tickDeadline = _
  cases idle with
  | true =>
    have hover : s.countTick.cfg.rxIdleMax < s.countTick.idleTicks.toNat := of_decide_eq_true hidle.symm
    have hflight : s.countTick.transmitting = s.transmitting := rfl
    rw [State.tickIdle_of_over hover, State.tickDeadline_eq, State.rxReset_eq, hflight]
    simp [State.not_transmitting_iff, State.countTick, bump]
  | false =>
    have hwithin : ¬ s.countTick.cfg.rxIdleMax < s.countTick.idleTicks.toNat := of_decide_eq_false hidle.symm
    rw [State.tickIdle_of_within hwithin, State.tickDeadline_eq]
    simp [State.countTick, bump]

end Sys2Proof.Machine
end

section
/-! SUPPORT. O35, O39, O40: the address check of write-page, and the signature verifier: the comparison, the chain and
the key ring (R271, R273 to R276). -/

namespace Sys2Proof.Machine

/-! ### The address check (R271) -/

theorem pageCheck_of_below {c : Config} {i : Byte} (h : i.toNat * 128 < c.appStart) :
    pageCheck c i = .errProtected := if_pos h

/-- Past the region the check is whether the flash has the page. -/
theorem pageCheck_of_past {c : Config} {i : Byte} (hlo : c.appStart ≤ i.toNat * 128)
    (hhi : c.appEnd + 1 < i.toNat * 128 + 128) :
    pageCheck c i = if i.toNat * 128 + 128 ≤ c.flashSize then .errProtected else .errBadAddr := by
  simp only [pageCheck, if_neg (Nat.not_lt.2 hlo), if_neg (Nat.not_le.2 hhi)]

/-- Settles O35, by where the page lies. -/
theorem pageAddressesAreChecked : Obligations.PageAddressesAreChecked := fun _ _ =>
  ⟨pageCheck_of_below, pageCheck_of_mem,
    fun hlo hhi hflash => (pageCheck_of_past hlo hhi).trans (if_pos hflash),
    fun hlo hhi hflash => (pageCheck_of_past hlo hhi).trans (if_neg (Nat.not_le.2 hflash))⟩

/-! ### The comparison (R275) -/

/-- The accumulator is zero exactly where nothing was ever ORed into it. -/
theorem foldl_or_eq_zero_iff {xs : List Byte} {acc : Byte} :
    xs.foldl (fun acc x => acc ||| x) acc = 0 ↔ acc = 0 ∧ ∀ x ∈ xs, x = 0 := by
  induction xs generalizing acc with
  | nil => simp
  | cons x xs ih =>
    rw [List.foldl_cons, ih, List.forall_mem_cons, ← and_assoc]
    exact and_congr_left' BitVec.or_eq_zero_iff

/-- Two strings of one length are equal exactly where all their byte pairs XOR to zero. -/
theorem forall_mem_zipWith_xor_eq_zero_iff {x y : List Byte} (h : x.length = y.length) :
    (∀ b ∈ List.zipWith (fun a b => a ^^^ b) x y, b = 0) ↔ x = y := by
  induction x generalizing y with
  | nil => simp [List.eq_nil_of_length_eq_zero h.symm]
  | cons a x ih =>
    cases y with
    | nil => cases h
    | cons b y =>
      rw [List.zipWith_cons_cons, List.forall_mem_cons, ih (Nat.succ.inj h), List.cons.injEq]
      exact and_congr_left' BitVec.xor_eq_zero_iff

/-- Settles O39: the accumulator stays zero exactly where every byte pair is equal. -/
theorem macComparisonIsEquality : Obligations.MacComparisonIsEquality := by
  intro x y h
  rw [macEqual, beq_iff_eq, foldl_or_eq_zero_iff, forall_mem_zipWith_xor_eq_zero_iff h]
  exact and_iff_right rfl

/-! ### The key ring (R273, R276) -/

/-- The image is authentic exactly under one of the keys of the ring. -/
theorem State.verifies_iff {s : State} :
    s.verifies = true ↔ ∃ k ∈ keyRing s.cfg, macEqual (cbcMac s.cfg.cipher k s.signedImage) s.signature = true := by
  simp [State.verifies, State.verifyEach, keyRing, or_assoc]

/-! ### The chain (R274) -/

/-- One block more is one more turn of the chain, after those of the blocks before it. -/
theorem cbcChain_append_block {binding : CipherBinding} {k : List Byte} {n : Nat} {x d b : List Byte}
    (hd : d.length = n * 16) (hb : b.length = 16) :
    cbcChain binding k (n + 1) x (d ++ b) = blockCipher binding k (xorBlock (cbcChain binding k n x d) b) := by
  induction n generalizing x d with
  | zero =>
    obtain rfl : d = [] := List.eq_nil_of_length_eq_zero (by omega)
    rw [List.nil_append, cbcChain, cbcChain, cbcChain, List.take_of_length_le hb.le]
  | succ n ih =>
    rw [cbcChain, List.take_append_of_le_length (by omega), List.drop_append_of_le_length (by omega),
      ih (by rw [List.length_drop]; omega)]
    rfl

theorem cbcMac_nil (binding : CipherBinding) (k : List Byte) : cbcMac binding k [] = List.replicate 16 0 := rfl

theorem cbcMac_append_block {binding : CipherBinding} {k d b : List Byte} (hd : d.length % 16 = 0)
    (hb : b.length = 16) :
    cbcMac binding k (d ++ b) = blockCipher binding k (xorBlock (cbcMac binding k d) b) := by
  have hblocks : (d ++ b).length / 16 = d.length / 16 + 1 := by rw [List.length_append]; omega
  rw [cbcMac, hblocks]
  exact cbcChain_append_block (by omega) hb

/-- Settles O40: the three evaluations, the ring by its keys, and the chain by its last block. -/
theorem verifyTriesAllThreeKeys : Obligations.VerifyTriesAllThreeKeys := by
  refine ⟨fun s => ⟨congrArg (s.macEvals + ·) s.length_verifyEach, ?_⟩, cbcMac_nil,
    fun _ _ _ _ => cbcMac_append_block⟩
  rw [State.verifies_iff]
  simp only [keyRing, List.mem_cons, List.not_mem_nil, or_false]
  rfl

end Sys2Proof.Machine
end

section
/-! SUPPORT. O56: what each step does to the flash. Only a local delivery can reach it; every other step leaves it as it
is (R62, R270, R271). -/

namespace Sys2Proof.Machine

/-- The flash outside the application region is kept, and in the Application all of it. -/
structure FlashProtected (s t : State) : Prop where
  outside : ∀ a, (a < s.cfg.appStart ∨ s.cfg.appEnd < a) → t.flash.byteAt a = s.flash.byteAt a
  application : s.cfg.variant = .application → t.flash = s.flash

theorem FlashProtected.of_eq {s t : State} (h : t.flash = s.flash) : FlashProtected s t :=
  ⟨fun _ _ => by rw [h], fun _ => h⟩

/-! ### Local delivery (R270, R271) -/

theorem flashMapLegal_of_configLegal {c : Config} (h : configLegal c = true) : flashMapLegal c = true := by
  simp only [configLegal, Bool.and_eq_true] at h
  obtain ⟨⟨⟨⟨⟨⟨⟨⟨⟨-, hmap⟩, -⟩, -⟩, -⟩, -⟩, -⟩, -⟩, -⟩, -⟩ := h
  exact hmap

theorem Kept.flashProtected {s t u : State} (k : Kept s u) (hc : configLegal s.cfg = true) (h : t.flash = u.flash) :
    FlashProtected s t :=
  ⟨fun a ha => h ▸ k.flashOutside (flashMapLegal_of_configLegal hc) a ha, fun hv => h ▸ k.flashApplication hv⟩

/-- However a delivery ends, the flash is the one its handler left. -/
theorem Delivers.flashProtected {s t : State} {o : Host.Outcome State Fault Refusal} (d : Delivers s o)
    (hc : configLegal s.cfg = true) (ho : o = .next t) : FlashProtected s t := by
  obtain ⟨u, k, ⟨-, rfl | rfl⟩ | ⟨p, -, -, rfl⟩⟩ := d t ho
  · exact k.flashProtected hc (by simp)
  · exact k.flashProtected hc (by simp)
  · exact k.flashProtected hc rfl

/-! ### The other instructions -/

section
variable {s t : State}

theorem flash_of_serialByte {p : Port} {b : Byte}
    (he : exec (decodeSerialByte p (s.port p).fdState (s.port p).hasFree b) s = .next t) : t.flash = s.flash := by
  obtain ⟨q, ev, hq⟩ := feedByte_frame p b s
  obtain rfl := Option.some.inj ((feedByte_of_exec he).symm.trans hq)
  exact s.setPort_flash p q

theorem flash_of_poll {p : Port} (he : exec (.poll p) s = .next t) : t.flash = s.flash := by
  change execPoll p s = _ at he
  by_cases hm : s.ml = .idle
  · cases hk : (s.port p).firstSlot .ready with
    | none => rw [execPoll_of_none hk] at he; cases he; rfl
    | some k => rw [execPoll_of_ready hm hk] at he; cases he; simp
  · rw [execPoll_of_busy hm] at he; cases he; rfl

theorem flash_of_rfRx {pkt : List Byte} (he : exec (.rfRx pkt) s = .next t) : t.flash = s.flash := by
  change execRfRx pkt s = _ at he
  by_cases hl : s.rxArmed = true ∧ s.rxFull = false
  · rw [execRfRx_of_listening hl] at he; cases he; rfl
  · rw [execRfRx_of_not_listening hl] at he; cases he; rfl

theorem flash_of_mlRadio (he : exec .mlRadio s = .next t) : t.flash = s.flash := by
  change execMlRadio s = _ at he
  cases hen : s.radioEnabled with
  | false => rw [execMlRadio_of_not_enabled hen] at he; cases he; rfl
  | true =>
    by_cases hL : s.rxLen < 9
    · rw [execMlRadio_of_short hen hL] at he; cases he; rfl
    · by_cases hc : crcOf s.cfg.crc (s.rxBuf.readBytes 0 (s.rxLen - 3)) = s.rxChecksum s.rxLen
      · rw [execMlRadio_of_match hen (Nat.le_of_not_lt hL) hc] at he; cases he; rfl
      · rw [execMlRadio_of_mismatch hen (Nat.le_of_not_lt hL) hc] at he; cases he; rfl

theorem flash_of_dispatch (he : exec .dispatch s = .next t) : t.flash = s.flash := by
  change execDispatch s = _ at he
  by_cases h6 : s.msgLen.toNat < 6
  · rw [execDispatch_of_short h6] at he; cases he; rfl
  · by_cases ha : s.addressedHere = true
    · rw [execDispatch_of_addressedHere h6 ha] at he; cases he; rfl
    · by_cases hf : forwardEnabled s.cfg s.msgSrc = true
      · rw [execDispatch_of_forwardEnabled h6 ha hf] at he; cases he; rfl
      · rw [execDispatch_of_not_forwardEnabled h6 ha hf] at he; cases he; rfl

theorem flash_of_serSend {p : Port} {m : List Byte} (he : exec (.serSend p m) s = .next t) : t.flash = s.flash := by
  rw [serialSendEmitsOneFrame p m s] at he
  split at he <;> cases he <;> rfl

theorem flash_of_radioSend {m : List Byte} {fbit : Bool} (he : exec (.radioSend m fbit) s = .next t) :
    t.flash = s.flash := by
  change execRadioSend m fbit s = _ at he
  by_cases hfits : m.length + 3 ≤ s.cfg.radioLenMax
  · rw [execRadioSend_of_fits hfits] at he; cases he; rfl
  · rw [execRadioSend_of_oversize (Nat.lt_of_not_le hfits)] at he; cases he; rfl

theorem flash_of_rfTxDone (he : exec .rfTxDone s = .next t) : t.flash = s.flash := by
  obtain ⟨hbusy, hidle⟩ := txDoneCompletesTheTransmission s
  cases hb : s.txBusy with
  | true => rw [hbusy hb] at he; cases he; rfl
  | false => rw [hidle hb] at he; cases he

theorem flash_of_tick (he : exec .tick s = .next t) : t.flash = s.flash := by
  rw [tickAdvancesTheScheduler s _ _ rfl rfl] at he
  cases he
  rfl

/-- R342: the flash survives a reset of any cause. -/
theorem flash_of_rst {c : ResetCause} (he : exec (.rst c) s = .next t) : t.flash = s.flash := by
  cases he
  cases c <;> rfl

/-- A reply or a forward is a send (R207, R208). -/
theorem flash_of_send {u : WireUnit} {i : Instr}
    (hu : (∃ p, u.carrier = .serialOut p) ∨ ∃ b, u.carrier = .radioOut b) (hd : decode u = .ok i)
    (he : exec i s = .next t) : t.flash = s.flash := by
  rcases hu with ⟨p, hp⟩ | ⟨b, hb⟩
  · simp only [decode, hp] at hd
    split at hd
    · cases hd; exact flash_of_serSend he
    · cases hd
  · simp only [decode, hb] at hd
    split at hd
    · cases hd; exact flash_of_radioSend he
    · cases hd

end

/-! ### The step -/

@[simp] theorem State.pass_flash (s : State) : s.pass.flash = s.flash := by
  unfold State.pass
  split <;> simp

/-- What is protected from the state an instruction runs in is protected from the state of the step. -/
theorem FlashProtected.of_advance {s t : State} (h : FlashProtected s.advance t) : FlashProtected s t := by
  obtain ⟨hout, happ⟩ := h
  rw [State.advance_cfg, State.advance_flash] at hout happ
  exact ⟨hout, happ⟩

/-- ML's next step in the service in progress: only its handler's can reach the flash. -/
theorem flashProtected_of_mlStep {s t : State} {u : WireUnit} {i : Instr} (hc : configLegal s.cfg = true)
    (hu : s.mlUnit = some u) (hd : decode u = .ok i) (he : exec i s.advance = .next t) :
    FlashProtected s.advance t := by
  rcases State.mlUnit_cases hu with ⟨-, rfl⟩ | ⟨-, rfl⟩ | ⟨-, rfl⟩ | ⟨-, rfl⟩
  · cases hd; exact .of_eq (flash_of_dispatch he)
  · obtain ⟨op, hdr, pl, hfit, -, rfl⟩ := decodeMessage_ok hd
    exact (exec_delivers op hdr pl _ hfit).flashProtected (by rwa [State.advance_cfg]) he
  · exact .of_eq (flash_of_send s.replyUnit_carrier hd he)
  · exact .of_eq (flash_of_send s.forwardUnit_carrier hd he)

/-- A step that runs an instruction: ML's own, or one of an input or of the start of a service. -/
theorem flashProtected_of_fetch {s t : State} {u : WireUnit} {i : Instr} (hc : configLegal s.cfg = true)
    (hf : s.fetch = some u) (hd : decode u = .ok i) (he : exec i s.advance = .next t) :
    FlashProtected s.advance t := by
  rcases State.fetch_cases hf with
    hml | ⟨p, b, rfl⟩ | ⟨p, rfl⟩ | ⟨pkt, rest, -, rfl⟩ | rfl | ⟨rfl, -⟩ | rfl | ⟨c, rfl⟩
  · exact flashProtected_of_mlStep hc hml hd he
  · cases hd
    rw [← s.advance_port] at he
    exact .of_eq (flash_of_serialByte he)
  · cases hd; exact .of_eq (flash_of_poll he)
  · obtain rfl := decode_radioIn_row hd
    exact .of_eq (flash_of_rfRx he)
  · cases hd; exact .of_eq (flash_of_mlRadio he)
  · cases hd; exact .of_eq (flash_of_rfTxDone he)
  · cases hd; exact .of_eq (flash_of_tick he)
  · cases hd; exact .of_eq (flash_of_rst he)

/-- Settles O56, from the step without an instruction and the step of the instruction that is presented. -/
theorem flashOutsideTheApplicationRegionIsProtected : Obligations.FlashOutsideTheApplicationRegionIsProtected := by
  intro s t hstep
  have h : FlashProtected s t := by
    obtain ⟨hc, ⟨-, rfl⟩ | ⟨u, i, hf, hd, he⟩⟩ := step_next hstep
    · exact .of_eq s.pass_flash
    · exact (flashProtected_of_fetch hc hf hd he).of_advance
  exact ⟨h.outside, h.application⟩

end Sys2Proof.Machine
end

section
/-! SUPPORT. O7, O8, O58: what a reset establishes (R340 to R342), whatever the cause and the configuration. -/

namespace Sys2Proof.Machine

/-! ### The reset values (R341) -/

@[simp] theorem SerialPort.length_slots_reset (n : Nat) : (SerialPort.reset n).slots.length = n :=
  List.length_replicate

theorem SerialPort.free_of_mem_slots_reset {n : Nat} (sl : Slot) (h : sl ∈ (SerialPort.reset n).slots) :
    sl.status = .free ∧ sl.len = 0 := by
  rw [List.eq_of_mem_replicate h]
  exact ⟨rfl, rfl⟩

theorem keepaliveAtReset_of_bootloader {c : Config} (h : c.variant = .bootloader) :
    keepaliveAtReset c = c.keepaliveInit := by
  simp [keepaliveAtReset, h]

/-! ### The reset of any cause (R340, R342) -/

/-- R340: the block after a reset does not depend on the cause; only the record of events tells a watchdog's apart
(log 18). -/
theorem exec_rst (cause : ResetCause) (s : State) :
    exec (.rst cause) s = .next { s.resetBlock with
      events := if cause = .watchdog then s.events ++ [.watchdogReset] else s.events } := by
  cases cause <;> rfl

/-- Settles O7: the cause reaches only the record, and the rest is the block's reset. -/
theorem resetEstablishesTheResetState : Obligations.ResetEstablishesTheResetState := by
  intro cause s
  refine ⟨_, exec_rst cause s, rfl, rfl, ?ports, SerialPort.length_slots_reset _, SerialPort.length_slots_reset _,
    rfl, rfl, rfl, rfl, rfl, rfl, rfl, rfl, rfl, rfl, rfl, rfl, keepaliveAtReset_of_bootloader,
    rfl, rfl, rfl, rfl, rfl, rfl, rfl⟩
  case ports =>
    intro p
    cases p <;> exact ⟨rfl, rfl, rfl, rfl, rfl, SerialPort.free_of_mem_slots_reset⟩

/-! ### The machine right after reset -/

/-- Both ports of CFG-A have two slots (log 8). -/
theorem State.reset_port (p : Port) : State.reset.port p = SerialPort.reset 2 := by
  cases p <;> rfl

/-- Settles O8, from the reset values under CFG-A. -/
theorem machineStartsInTheResetState : Obligations.MachineStartsInTheResetState := by
  refine ⟨rfl, fun p => ?ports, rfl, rfl, rfl, rfl, rfl, rfl, rfl, rfl, rfl, rfl⟩
  case ports =>
    rw [State.reset_port]
    exact ⟨rfl, SerialPort.length_slots_reset 2, fun sl h => (SerialPort.free_of_mem_slots_reset sl h).1⟩

/-- R341: the reset state meets the invariant under every legal configuration. -/
theorem MachineInv.atReset {c : Config} (hc : configLegal c = true) : MachineInv (State.atReset c) :=
  ⟨hc, portOk_reset _, portOk_reset _,
    ⟨Memory.wf_nil, Memory.wf_nil, Memory.wf_nil, Memory.wf_nil, Memory.wf_nil, Memory.wf_nil, Memory.wf_nil⟩,
    phaseOk_of_quiet (.inl rfl) rfl, Nat.zero_le _, Nat.zero_le _, nofun⟩

/-- Settles O58: CFG-A is legal. -/
theorem invariantHoldsAtReset : Obligations.InvariantHoldsAtReset :=
  MachineInv.atReset (by decide)

end Sys2Proof.Machine
end
